-- ==== Sys2Proof/Word.lean ====
section
/-! DEFINITION. The word types of the CPU: a code byte and a 64-bit value pattern (spec R7, R9). -/

namespace Sys2Proof

/-- A byte of the code space (R7). -/
abbrev Byte := BitVec 8

/-- The 64-bit pattern of a binary64 value: what a register, an operand-stack entry, a memory element
and a double immediate hold (R9). A moved value keeps its pattern. -/
abbrev Value := BitVec 64

end Sys2Proof
end

