-- ==== Sys2Proof/Config.lean ====
section
/-! DEFINITION. The names the spec fixes (registers, opcodes, formats, fault causes), the parameters a model takes
(00_scope.md R6), and the free values: constants without a body, for what the spec leaves open. -/

namespace Sys2Proof

/-- The three general registers (R21). -/
inductive Reg where
  | rax
  | rbx
  | rcx
deriving DecidableEq, Repr

/-- The 23 opcodes, in the order of the table of R97. -/
inductive Opcode where
  | add
  | sub
  | mul
  | div
  | sqrt
  | writeR
  | writeA
  | readR
  | readA
  | pushV
  | pushR
  | pop
  | popR
  | input
  | inputR
  | output
  | outputR
  | jmp
  | jmpl
  | jmpg
  | call
  | ret
  | hlt
deriving DecidableEq, Repr

/-- The seven instruction formats (R92). -/
inductive Format where
  | f0
  | fr
  | frr
  | fa
  | fra
  | far
  | fd
deriving DecidableEq, Repr

/-- The values of the status field `fault_cause` (R34, R250): no fault, or the cause of the fault. -/
inductive FaultCause where
  | none
  | stackUnderflow
  | divNearZero
  | sqrtNegative
  | badRegister
  | badOpcode
  | truncatedOperand
  | retEmpty
  | memOutOfRange
  | endOfStream
  | badTarget
  | badIndex
  | ioError
  | resource
deriving DecidableEq, Repr

/-- `BYTE_ORDER`: the order of the bytes of a 4-byte or 8-byte operand (R6, R62). `little` is the spec's default, and it
lists no other value. DESIGN CHOICE (log 27): the one other value is the full reversal, and the two widths share one order. -/
inductive ByteOrder where
  | little
  | big
deriving DecidableEq, Repr

/-- `INDEX_CONVERSION`: how a register's double becomes a memory address (R201). -/
inductive IndexConversion where
  | strict
  | truncate
deriving DecidableEq, Repr

/-- `RESTART_POLICY`: whether `execute` may start on a CPU that faulted and was not reset (R43, D16). -/
inductive RestartPolicy where
  | staleResume
  | requireReset
deriving DecidableEq, Repr

/-- `INPUT_CONVERT`: how a console token becomes a binary64 (R180, C8). DESIGN CHOICE (log 21): the default reading, the
reading through single precision that the source's word "float" leaves possible, or any other conversion of the host. -/
inductive InputConvert where
  | nearest
  | viaSingle
  | other
deriving DecidableEq, Repr

/-- `OPCODE_OF`: the byte of each opcode (R97), as plain data. -/
structure OpcodeMap where
  add     : Byte
  sub     : Byte
  mul     : Byte
  div     : Byte
  sqrt    : Byte
  writeR  : Byte
  writeA  : Byte
  readR   : Byte
  readA   : Byte
  pushV   : Byte
  pushR   : Byte
  pop     : Byte
  popR    : Byte
  input   : Byte
  inputR  : Byte
  output  : Byte
  outputR : Byte
  jmp     : Byte
  jmpl    : Byte
  jmpg    : Byte
  call    : Byte
  ret     : Byte
  hlt     : Byte
deriving DecidableEq, Repr

/-- `REGID_OF`: the byte of each register id (R98). -/
structure RegIdMap where
  rax : Byte
  rbx : Byte
  rcx : Byte
deriving DecidableEq, Repr

/-- The encoding configuration: `OPCODE_OF`, `REGID_OF`, `BYTE_ORDER` (R6; the warning of 30_encoding.md). -/
structure Encoding where
  opcodeOf  : OpcodeMap
  regIdOf   : RegIdMap
  byteOrder : ByteOrder
deriving DecidableEq, Repr

/-- The parameters of R6 that the spec asks a model to keep open, as plain data held in the state (log 1).
A capacity `none` is "no limit" (R24, R26). -/
structure Params where
  encoding        : Encoding
  /-- `EPS`, the threshold of the near-zero test of `div` (R144, R148). -/
  eps             : Value
  outPops         : Bool
  indexConversion : IndexConversion
  restartPolicy   : RestartPolicy
  opStackCap      : Option Nat
  callStackCap    : Option Nat
  inputConvert    : InputConvert
deriving DecidableEq, Repr

/-- `CODE_LEN` is at most this (R6, D27). -/
def Config.maxCodeLen : Nat := 2 ^ 31 - 1

/-- FREE VALUE (log 8): where the sign and fraction bits of the n-th NaN that an arithmetic instruction
produces come from; the spec fixes neither (R143, U18). -/
opaque Config.freeNaN : Nat → BitVec 64

/-- FREE VALUE (log 9): where the sign and fraction bits of the NaN that a text `nan` is read as come from. -/
opaque Config.textNaN : List Char → BitVec 64

/-- FREE VALUE (log 21): the host's own conversion of a console token, under `INPUT_CONVERT = other` (U19). -/
opaque Config.otherConvert : List Char → Option (BitVec 64)

/-- FREE VALUE (log 15): whether the host rounds up a value that lies exactly between two six-decimal texts
(R182 says only "round to nearest"). -/
opaque Config.outTieUp : BitVec 64 → Bool

/-- FREE VALUE (log 15): the host's spelling of an infinity or a NaN on output (R182, U23). -/
opaque Config.specialText : BitVec 64 → List Char

/-- FREE VALUE (log 20): `READ_DELAY` less one, so that the delay is some positive duration (R6, R72). -/
opaque Config.readDelayPred : Nat

/-- `READ_DELAY`, an unspecified positive duration (R72). No step reads it: the model carries no time (R290, log 20). -/
def Config.readDelay : Nat := Config.readDelayPred + 1

/-- `WRITE_DELAY = 2 * READ_DELAY` (R72). -/
def Config.writeDelay : Nat := 2 * Config.readDelay

end Sys2Proof
end

