-- ==== Sys2Proof/Machine/Binary64.lean ====
section
/-! DEFINITION. IEEE 754 binary64 arithmetic on 64-bit patterns (spec R140 to R143): the layout, exact values as integers in
units of 2^-1074, one rounding to nearest with ties to even, and the five operations. An operation answers `none` where
its result is a NaN, whose pattern the spec leaves free. -/

namespace Sys2Proof.Machine

/-! ## Layout (R140) -/

/-- The sign bit, bit 63. -/
def F64.sign (v : Value) : Bool := decide (2 ^ 63 ≤ v.toNat)

/-- The pattern without its sign bit. -/
def F64.magnitude (v : Value) : Nat := v.toNat % 2 ^ 63

/-- The exponent field, bits 62:52. -/
def F64.expField (v : Value) : Nat := F64.magnitude v / 2 ^ 52

/-- The fraction field, bits 51:0. -/
def F64.fraction (v : Value) : Nat := v.toNat % 2 ^ 52

/-- Exponent all ones, fraction not zero. -/
def F64.isNaN (v : Value) : Bool := F64.expField v == 2047 && F64.fraction v != 0

/-- Exponent all ones, fraction zero. -/
def F64.isInf (v : Value) : Bool := F64.expField v == 2047 && F64.fraction v == 0

/-- Neither an infinity nor a NaN. -/
def F64.isFinite (v : Value) : Bool := F64.expField v != 2047

/-- A zero of either sign. -/
def F64.isZero (v : Value) : Bool := F64.magnitude v == 0

/-- A sign bit over a 63-bit magnitude. -/
def F64.withSign (neg : Bool) (mag : Nat) : Value :=
  BitVec.ofNat 64 (if neg then 2 ^ 63 + mag else mag)

/-- The magnitude of an infinity. -/
def F64.infMagnitude : Nat := 2047 * 2 ^ 52

/-- A zero of a sign. -/
def F64.zero (neg : Bool) : Value := F64.withSign neg 0

/-- An infinity of a sign. -/
def F64.inf (neg : Bool) : Value := F64.withSign neg F64.infMagnitude

/-- `abs(x)`: `x` with its sign bit cleared (R144). -/
def F64.abs (v : Value) : Value := F64.withSign false (F64.magnitude v)

/-- The value with its sign bit flipped. -/
def F64.neg (v : Value) : Value := F64.withSign (!F64.sign v) (F64.magnitude v)

/-- A NaN whose sign and fraction are those of a free pattern; a zero fraction becomes 1, so every NaN pattern and
nothing else is the image of some free pattern (R143). -/
def F64.nanOf (free : BitVec 64) : Value :=
  F64.withSign (F64.sign free) (F64.infMagnitude + (if F64.fraction free = 0 then 1 else F64.fraction free))

/-! ## Exact values -/

/-- The magnitude of a finite value in units of 2^-1074, the least subnormal: exact, gradual underflow included. -/
def F64.scaledMag (v : Value) : Nat :=
  if F64.expField v = 0 then F64.fraction v
  else (2 ^ 52 + F64.fraction v) * 2 ^ (F64.expField v - 1)

/-- A finite value in units of 2^-1074. -/
def F64.scaled (v : Value) : Int :=
  if F64.sign v then -(F64.scaledMag v : Int) else (F64.scaledMag v : Int)

/-- The number of units of `scaled` in 1. -/
def F64.unit : Nat := 2 ^ 1074

/-! ## Rounding (R141) -/

/-- `n / d` rounded to the nearest integer, ties to even. -/
def F64.divRoundEven (n d : Nat) : Nat :=
  if 2 * (n % d) < d then n / d
  else if d < 2 * (n % d) then n / d + 1
  else if n / d % 2 = 0 then n / d
  else n / d + 1

/-- The exponent of the largest power of two not above `num / den`, both positive. -/
def F64.floorLog2 (num den : Nat) : Int :=
  if den.log2 ≤ num.log2 then
    if den * 2 ^ (num.log2 - den.log2) ≤ num then (num.log2 - den.log2 : Nat)
    else (num.log2 - den.log2 : Nat) - 1
  else
    if den ≤ num * 2 ^ (den.log2 - num.log2) then -(den.log2 - num.log2 : Nat)
    else -(den.log2 - num.log2 : Nat) - 1

/-- `num / den` divided by `2 ^ q` and rounded to the nearest integer, ties to even. -/
def F64.roundAt (num den : Nat) (q : Int) : Nat :=
  if 0 ≤ q then F64.divRoundEven num (den * 2 ^ q.toNat)
  else F64.divRoundEven (num * 2 ^ (-q).toNat) den

/-- The exponent of the last place of `num / den` in a format of `prec` bits whose least exponent is `qmin`. -/
def F64.lastPlace (prec : Nat) (qmin : Int) (num den : Nat) : Int :=
  max (F64.floorLog2 num den - (prec - 1 : Nat)) qmin

/-- `num / den` (both positive) rounded to the nearest binary64, ties to even, of the sign given: the exact result is
rounded once, with gradual underflow, and overflows to an infinity (R141, R142). -/
def F64.roundPos (neg : Bool) (num den : Nat) : Value :=
  let q := F64.lastPlace 53 (-1074) num den
  let mag := (q + 1074).toNat * 2 ^ 52 + F64.roundAt num den q
  if F64.infMagnitude ≤ mag then F64.inf neg else F64.withSign neg mag

/-- `num / den` rounded to binary64, a zero included. -/
def F64.round (neg : Bool) (num den : Nat) : Value :=
  if num = 0 then F64.zero neg else F64.roundPos neg num den

/-- The integer square root by its binary digits, `k` of them still to find: the largest `r' ≥ r` whose square is at
most `n`, where `r` holds the digits found. -/
def F64.isqrtDigits (n : Nat) : Nat → Nat → Nat
  | 0, r => r
  | k + 1, r =>
    match Nat.ble ((r + 2 ^ k) * (r + 2 ^ k)) n with
    | true => F64.isqrtDigits n k (r + 2 ^ k)
    | false => F64.isqrtDigits n k r

/-- The integer square root: the largest number whose square is at most `n`. -/
def F64.isqrt (n : Nat) : Nat := F64.isqrtDigits n (n.log2 / 2 + 1) 0

/-! ## The operations (R141, R142): `none` is a NaN -/

/-- `x + y`. -/
def F64.add (x y : Value) : Option Value :=
  if F64.isNaN x || F64.isNaN y then none
  else if F64.isInf x then
    if F64.isInf y && F64.sign x != F64.sign y then none else some x
  else if F64.isInf y then some y
  else
    let sum := F64.scaled x + F64.scaled y
    if sum = 0 then some (F64.zero (F64.sign x && F64.sign y))
    else some (F64.round (decide (sum < 0)) sum.natAbs F64.unit)

/-- `x - y`. -/
def F64.sub (x y : Value) : Option Value := F64.add x (F64.neg y)

/-- `x * y`. -/
def F64.mul (x y : Value) : Option Value :=
  if F64.isNaN x || F64.isNaN y then none
  else if F64.isInf x || F64.isInf y then
    if F64.isZero x || F64.isZero y then none else some (F64.inf (F64.sign x != F64.sign y))
  else
    some (F64.round (F64.sign x != F64.sign y) (F64.scaledMag x * F64.scaledMag y) (F64.unit * F64.unit))

/-- `x / y`. A zero divisor is given its IEEE meaning (R141); with the default `EPS`, `div` faults on it (R148). -/
def F64.div (x y : Value) : Option Value :=
  if F64.isNaN x || F64.isNaN y then none
  else if F64.isInf x then
    if F64.isInf y then none else some (F64.inf (F64.sign x != F64.sign y))
  else if F64.isInf y then some (F64.zero (F64.sign x != F64.sign y))
  else if F64.isZero y then
    if F64.isZero x then none else some (F64.inf (F64.sign x != F64.sign y))
  else
    some (F64.round (F64.sign x != F64.sign y) (F64.scaledMag x) (F64.scaledMag y))

/-- The square root is found to this many binary digits below the unit of its scale. -/
def F64.sqrtGuard : Nat := 64

/-- `sqrt(x)`. The root of an integer in units of 2^-1074 is an integer root in units of 2^-537, found to `sqrtGuard` more
digits, with one sticky digit after them where it is not exact: it is then on the same side of every rounding
boundary as the exact root. A negative argument is given its IEEE meaning, though `sqrt` faults on it (R149). -/
def F64.sqrt (x : Value) : Option Value :=
  if F64.isNaN x then none
  else if F64.isZero x then some x
  else if F64.sign x then none
  else if F64.isInf x then some x
  else
    let n := F64.scaledMag x * 4 ^ F64.sqrtGuard
    let r := F64.isqrt n
    let sticky := if r * r = n then 0 else 1
    some (F64.round false (2 * r + sticky) (2 ^ (537 + F64.sqrtGuard + 1)))

end Sys2Proof.Machine
end

