-- ==== Sys2Proof/Machine/Flags.lean ====
section
/-! DEFINITION. The conditions the instructions test. The CPU has no status flags (spec R32): a comparison's result is used at
once and does not survive its instruction. So this file holds the ordered comparisons of R144, the near-zero test of `div`,
the sign test of `sqrt`, and the branch conditions of R221. -/

namespace Sys2Proof.Machine

/-- The order of the non-NaN values as integers: the magnitude pattern with its sign, so that the zeros are equal and the
infinities lie outside every finite value (R144). -/
def F64.orderKey (v : Value) : Int :=
  if F64.sign v then -(F64.magnitude v : Int) else (F64.magnitude v : Int)

/-- `x < y`: the IEEE ordered comparison, false when either is a NaN (R144). -/
def F64.lt (x y : Value) : Bool :=
  !F64.isNaN x && !F64.isNaN y && decide (F64.orderKey x < F64.orderKey y)

/-- `x > y` (R144). -/
def F64.gt (x y : Value) : Bool := F64.lt y x

/-- The near-zero test of `div`: `abs(A) < EPS` (R144, R148), `EPS` a parameter (R6, log 1). -/
def nearZero (eps a : Value) : Bool := F64.lt (F64.abs a) eps

/-- The test of `sqrt`: `A < 0` (R149). -/
def negative (a : Value) : Bool := F64.lt a (F64.zero false)

/-- The condition of `jmpl`: `B < A`, where `a` is the top and `b` the entry under it (R221). -/
def lessTaken (a b : Value) : Bool := F64.lt b a

/-- The condition of `jmpg`: `B > A` (R221). -/
def greaterTaken (a b : Value) : Bool := F64.gt b a

end Sys2Proof.Machine
end

