-- ==== Sys2Proof/Syntax.lean ====
section
/-! DEFINITION. The instructions: one constructor per row of spec/opcode_table.json, the operands as the decoder gives them
(spec R2, R91, R96). -/

namespace Sys2Proof

/-- The 23 instructions of R96. An address operand is the signed integer of R95; operands stand in the order of the
bytecode fields (R93): `writeR rs ri`, `writeA rs addr`, `readR ri rd`, `readA addr rd`. -/
inductive Instr where
  | add
  | sub
  | mul
  | div
  | sqrt
  | writeR (rs ri : Reg)
  | writeA (rs : Reg) (addr : Int)
  | readR (ri rd : Reg)
  | readA (addr : Int) (rd : Reg)
  | pushV (d : Value)
  | pushR (r : Reg)
  | pop
  | popR (r : Reg)
  | input
  | inputR (r : Reg)
  | output
  | outputR (r : Reg)
  | jmp (t : Int)
  | jmpl (t : Int)
  | jmpg (t : Int)
  | call (t : Int)
  | ret
  | hlt
deriving DecidableEq, Repr

end Sys2Proof
end

