-- ==== Sys2Proof/WellFormed.lean ====
section
/-! DEFINITION. Which instruction terms an encoding can hold: an address operand is a 4-byte signed integer
(spec R91, R95). A register operand and an immediate are well formed by their types. -/

namespace Sys2Proof

/-- The range of a 4-byte signed address (R8, R95). -/
abbrev inAddrRange (a : Int) : Prop := -2 ^ 31 ≤ a ∧ a ≤ 2 ^ 31 - 1

/-- The address operand of an instruction, a code target or a data address (R95, R202, R220). -/
def Instr.address? : Instr → Option Int
  | .add => none
  | .sub => none
  | .mul => none
  | .div => none
  | .sqrt => none
  | .writeR _ _ => none
  | .writeA _ addr => some addr
  | .readR _ _ => none
  | .readA addr _ => some addr
  | .pushV _ => none
  | .pushR _ => none
  | .pop => none
  | .popR _ => none
  | .input => none
  | .inputR _ => none
  | .output => none
  | .outputR _ => none
  | .jmp t => some t
  | .jmpl t => some t
  | .jmpg t => some t
  | .call t => some t
  | .ret => none
  | .hlt => none

/-- An instruction is well formed when its address operand, if it has one, fits the 4-byte field. -/
def Instr.wf (i : Instr) : Bool :=
  match i.address? with
  | none => true
  | some a => decide (inAddrRange a)

end Sys2Proof
end

