-- ==== Sys2Proof/Decode.lean ====
section
/-! DEFINITION. The encoding tables (spec R92, R96 to R98), the decoder (R94, R95, R110), total on any bytes and rejecting by
fault cause, and the encoder written from the same tables (R121). Both take the encoding configuration as an argument. -/

namespace Sys2Proof

/-! ## Tables -/

/-- The format of each opcode: the `format` column of R96. -/
def Opcode.format : Opcode → Format
  | .add => .f0
  | .sub => .f0
  | .mul => .f0
  | .div => .f0
  | .sqrt => .f0
  | .writeR => .frr
  | .writeA => .fra
  | .readR => .frr
  | .readA => .far
  | .pushV => .fd
  | .pushR => .fr
  | .pop => .f0
  | .popR => .fr
  | .input => .f0
  | .inputR => .fr
  | .output => .f0
  | .outputR => .fr
  | .jmp => .fa
  | .jmpl => .fa
  | .jmpg => .fa
  | .call => .fa
  | .ret => .f0
  | .hlt => .f0

/-- The length in bytes of each format (R92). -/
def Format.length : Format → Nat
  | .f0 => 1
  | .fr => 2
  | .frr => 3
  | .fa => 5
  | .fra => 6
  | .far => 6
  | .fd => 9

/-- The length of an instruction, a function of its opcode alone (R101). -/
def Opcode.length (op : Opcode) : Nat := op.format.length

/-- Every opcode, in table order (R97). -/
def Opcode.all : List Opcode :=
  [.add, .sub, .mul, .div, .sqrt, .writeR, .writeA, .readR, .readA, .pushV, .pushR, .pop] ++
  [.popR, .input, .inputR, .output, .outputR, .jmp, .jmpl, .jmpg, .call, .ret, .hlt]

/-- The byte that `OPCODE_OF` gives an opcode (R97). -/
def OpcodeMap.byteOf (m : OpcodeMap) : Opcode → Byte
  | .add => m.add
  | .sub => m.sub
  | .mul => m.mul
  | .div => m.div
  | .sqrt => m.sqrt
  | .writeR => m.writeR
  | .writeA => m.writeA
  | .readR => m.readR
  | .readA => m.readA
  | .pushV => m.pushV
  | .pushR => m.pushR
  | .pop => m.pop
  | .popR => m.popR
  | .input => m.input
  | .inputR => m.inputR
  | .output => m.output
  | .outputR => m.outputR
  | .jmp => m.jmp
  | .jmpl => m.jmpl
  | .jmpg => m.jmpg
  | .call => m.call
  | .ret => m.ret
  | .hlt => m.hlt

/-- Every register. -/
def Reg.all : List Reg := [.rax, .rbx, .rcx]

/-- The byte that `REGID_OF` gives a register (R98). -/
def RegIdMap.byteOf (m : RegIdMap) : Reg → Byte
  | .rax => m.rax
  | .rbx => m.rbx
  | .rcx => m.rcx

/-- The reference numbering of the opcodes (R97, D1). -/
def OpcodeMap.default : OpcodeMap where
  add     := 0x01
  sub     := 0x02
  mul     := 0x03
  div     := 0x04
  sqrt    := 0x05
  writeR  := 0x06
  writeA  := 0x07
  readR   := 0x08
  readA   := 0x09
  pushV   := 0x0A
  pushR   := 0x0B
  pop     := 0x0C
  popR    := 0x0D
  input   := 0x0E
  inputR  := 0x0F
  output  := 0x10
  outputR := 0x11
  jmp     := 0x15
  jmpl    := 0x16
  jmpg    := 0x17
  call    := 0x18
  ret     := 0x19
  hlt     := 0x1A

/-- The reference numbering of the register ids (R98, D2). -/
def RegIdMap.default : RegIdMap where
  rax := 0x12
  rbx := 0x13
  rcx := 0x14

/-- The default encoding configuration (R6). -/
def Encoding.default : Encoding where
  opcodeOf  := .default
  regIdOf   := .default
  byteOrder := .little

/-- The default of `EPS`: the binary64 nearest to 1e-6 (R6, R144, D21). -/
def epsilon : Value := 0x3EB0C6F7A0B5ED8D

/-- The default parameters (R6). -/
def Params.default : Params where
  encoding        := .default
  eps             := epsilon
  outPops         := true
  indexConversion := .strict
  restartPolicy   := .staleResume
  opStackCap      := none
  callStackCap    := none
  inputConvert    := .nearest

/-- The bytes an encoding uses: the 23 opcode bytes and the three register ids. -/
def Encoding.usedBytes (e : Encoding) : List Byte :=
  Opcode.all.map e.opcodeOf.byteOf ++ Reg.all.map e.regIdOf.byteOf

/-- `OPCODE_OF` is injective and disjoint from the values of `REGID_OF`, which are distinct too (R97, R98). -/
abbrev Encoding.wf (e : Encoding) : Prop := e.usedBytes.Nodup

/-! ## Operand bytes -/

/-- The number of a list of bytes whose first byte is the least significant (R62). -/
def littleEndian : List Byte → Nat
  | [] => 0
  | b :: bs => b.toNat + 256 * littleEndian bs

/-- `CodeRead` on the bytes of an operand field, in the configured order (R62, R73; the order `big` is the model's, log 27). -/
def codeRead (order : ByteOrder) (bs : List Byte) : Nat :=
  match order with
  | .little => littleEndian bs
  | .big => littleEndian bs.reverse

/-- The `n` bytes of a number, least significant first. -/
def littleBytes : Nat → Nat → List Byte
  | 0, _ => []
  | n + 1, v => BitVec.ofNat 8 v :: littleBytes n (v / 256)

/-- The `n` bytes of an operand field that `codeRead` reads as `v`. -/
def codeBytes (order : ByteOrder) (n v : Nat) : List Byte :=
  match order with
  | .little => littleBytes n v
  | .big => (littleBytes n v).reverse

/-- `sext_32` (R8): a 32-bit pattern read as a two's-complement integer. -/
def sext32 (v : Nat) : Int := (BitVec.ofNat 32 v).toInt

/-- The 32-bit pattern that `sext32` reads as `a`. -/
def addrPattern (a : Int) : Nat := (BitVec.ofInt 32 a).toNat

/-- The byte at an offset from the opcode byte. The decoder asks only inside the instruction (R61, R110). -/
def byteAt (bs : List Byte) (off : Nat) : Byte := bs.getD off 0

/-- The `n` bytes at an offset from the opcode byte. -/
def fieldAt (bs : List Byte) (off n : Nat) : List Byte := (bs.drop off).take n

/-! ## The decoder -/

/-- The opcode a byte stands for, if any (R97, R99). -/
def Encoding.opcode? (e : Encoding) (b : Byte) : Option Opcode :=
  Opcode.all.find? fun op => e.opcodeOf.byteOf op == b

/-- `reg(b)`: the register a byte stands for, if any (R94, R98). -/
def Encoding.reg? (e : Encoding) (b : Byte) : Option Reg :=
  Reg.all.find? fun r => e.regIdOf.byteOf r == b

/-- A register field at an offset: check 4 of R110. -/
def regField (e : Encoding) (bs : List Byte) (off : Nat) : Except FaultCause Reg :=
  match e.reg? (byteAt bs off) with
  | some r => .ok r
  | none => .error .badRegister

/-- A 4-byte address field at an offset (R95). -/
def addrField (e : Encoding) (bs : List Byte) (off : Nat) : Int :=
  sext32 (codeRead e.byteOrder (fieldAt bs off 4))

/-- An 8-byte double field at an offset, its pattern taken as it is (R95). -/
def immField (e : Encoding) (bs : List Byte) (off : Nat) : Value :=
  BitVec.ofNat 64 (codeRead e.byteOrder (fieldAt bs off 8))

/-- The operands of an instruction whose bytes, opcode first, are `bs` (R92 to R95): registers are checked
lowest offset first (check 4 of R110). -/
def decodeOperands (e : Encoding) (op : Opcode) (bs : List Byte) : Except FaultCause Instr :=
  match op with
  | .add => .ok .add
  | .sub => .ok .sub
  | .mul => .ok .mul
  | .div => .ok .div
  | .sqrt => .ok .sqrt
  | .writeR => do
    let rs ← regField e bs 1
    let ri ← regField e bs 2
    .ok (.writeR rs ri)
  | .writeA => do
    let rs ← regField e bs 1
    .ok (.writeA rs (addrField e bs 2))
  | .readR => do
    let ri ← regField e bs 1
    let rd ← regField e bs 2
    .ok (.readR ri rd)
  | .readA => do
    let rd ← regField e bs 5
    .ok (.readA (addrField e bs 1) rd)
  | .pushV => .ok (.pushV (immField e bs 1))
  | .pushR => do
    let r ← regField e bs 1
    .ok (.pushR r)
  | .pop => .ok .pop
  | .popR => do
    let r ← regField e bs 1
    .ok (.popR r)
  | .input => .ok .input
  | .inputR => do
    let r ← regField e bs 1
    .ok (.inputR r)
  | .output => .ok .output
  | .outputR => do
    let r ← regField e bs 1
    .ok (.outputR r)
  | .jmp => .ok (.jmp (addrField e bs 1))
  | .jmpl => .ok (.jmpl (addrField e bs 1))
  | .jmpg => .ok (.jmpg (addrField e bs 1))
  | .call => .ok (.call (addrField e bs 1))
  | .ret => .ok .ret
  | .hlt => .ok .hlt

/-- Checks 1 to 4 of R110 on the code bytes from `ip` on: no byte, an unknown opcode, too few bytes, a bad register. -/
def decodeBytes (e : Encoding) (bs : List Byte) : Except FaultCause Instr :=
  match bs with
  | [] => .error .endOfStream
  | b :: rest =>
    match e.opcode? b with
    | none => .error .badOpcode
    | some op =>
      if rest.length + 1 < op.length then .error .truncatedOperand
      else decodeOperands e op (b :: rest)

/-- The code target of a control transfer (R220). A data address is none (R202). -/
def Instr.target? : Instr → Option Int
  | .add => none
  | .sub => none
  | .mul => none
  | .div => none
  | .sqrt => none
  | .writeR _ _ => none
  | .writeA _ _ => none
  | .readR _ _ => none
  | .readA _ _ => none
  | .pushV _ => none
  | .pushR _ => none
  | .pop => none
  | .popR _ => none
  | .input => none
  | .inputR _ => none
  | .output => none
  | .outputR _ => none
  | .jmp t => some t
  | .jmpl t => some t
  | .jmpg t => some t
  | .call t => some t
  | .ret => none
  | .hlt => none

/-- A target lies inside the code (check 5 of R110). -/
abbrev targetOk (codeLen : Nat) (t : Int) : Prop := 0 ≤ t ∧ t < codeLen

/-- Check 5 of R110, made whether or not a branch will be taken. -/
def checkTarget (codeLen : Nat) (i : Instr) : Except FaultCause Instr :=
  match i.target? with
  | none => .ok i
  | some t => if targetOk codeLen t then .ok i else .error .badTarget

/-- `decode()` of R110: the instruction at `ip` of the code, or the first check that fails. -/
def decodeAt (e : Encoding) (code : List Byte) (ip : Nat) : Except FaultCause Instr := do
  let i ← decodeBytes e (code.drop ip)
  checkTarget code.length i

/-! ## The encoder -/

/-- The opcode of an instruction. -/
def Instr.opcode : Instr → Opcode
  | .add => .add
  | .sub => .sub
  | .mul => .mul
  | .div => .div
  | .sqrt => .sqrt
  | .writeR _ _ => .writeR
  | .writeA _ _ => .writeA
  | .readR _ _ => .readR
  | .readA _ _ => .readA
  | .pushV _ => .pushV
  | .pushR _ => .pushR
  | .pop => .pop
  | .popR _ => .popR
  | .input => .input
  | .inputR _ => .inputR
  | .output => .output
  | .outputR _ => .outputR
  | .jmp _ => .jmp
  | .jmpl _ => .jmpl
  | .jmpg _ => .jmpg
  | .call _ => .call
  | .ret => .ret
  | .hlt => .hlt

/-- The length of an instruction in bytes (R96). -/
def Instr.length (i : Instr) : Nat := i.opcode.length

/-- The operand bytes of an instruction, after its opcode byte (R92, R93, R121). -/
def encodeOperands (e : Encoding) : Instr → List Byte
  | .add => []
  | .sub => []
  | .mul => []
  | .div => []
  | .sqrt => []
  | .writeR rs ri => [e.regIdOf.byteOf rs, e.regIdOf.byteOf ri]
  | .writeA rs addr => e.regIdOf.byteOf rs :: codeBytes e.byteOrder 4 (addrPattern addr)
  | .readR ri rd => [e.regIdOf.byteOf ri, e.regIdOf.byteOf rd]
  | .readA addr rd => codeBytes e.byteOrder 4 (addrPattern addr) ++ [e.regIdOf.byteOf rd]
  | .pushV d => codeBytes e.byteOrder 8 d.toNat
  | .pushR r => [e.regIdOf.byteOf r]
  | .pop => []
  | .popR r => [e.regIdOf.byteOf r]
  | .input => []
  | .inputR r => [e.regIdOf.byteOf r]
  | .output => []
  | .outputR r => [e.regIdOf.byteOf r]
  | .jmp t => codeBytes e.byteOrder 4 (addrPattern t)
  | .jmpl t => codeBytes e.byteOrder 4 (addrPattern t)
  | .jmpg t => codeBytes e.byteOrder 4 (addrPattern t)
  | .call t => codeBytes e.byteOrder 4 (addrPattern t)
  | .ret => []
  | .hlt => []

/-- The bytes of an instruction (R90, R121). -/
def encode (e : Encoding) (i : Instr) : List Byte :=
  e.opcodeOf.byteOf i.opcode :: encodeOperands e i

/-! ## The opcode table's numbering of bits -/

/-- The longest instruction, in bytes (R101). -/
def maxInstrLength : Nat := 9

/-- The bytes of an instruction given as one number, bit 0 the least significant bit of its first byte: `nbits` bits of
`w`, every bit above them zero, up to the longest instruction. -/
def tableBytes (nbits w : Nat) : List Byte := littleBytes maxInstrLength (w % 2 ^ nbits)

/-- The instruction the decoder reads from such bytes under the default encoding (checks 1 to 4 of R110: the target check
needs the code's length, which a table row does not give; log 23). -/
def decodeTableWord (nbits w : Nat) : Option Instr :=
  match decodeBytes .default (tableBytes nbits w) with
  | .ok i => some i
  | .error _ => none

end Sys2Proof
end

