-- ==== Sys2Proof/Machine/State.lean ====
section
/-! DEFINITION. The state as plain data: the CPU's own state (spec R20), what its ports reach (R40), the parameters (R6), the
free-value counter, the reasons a step can stop, and the state after reset (R42, R50). -/

namespace Sys2Proof.Machine

/-- The lifecycle state (R33). -/
inductive Mode where
  | off
  | on
  | wait
deriving DecidableEq, Repr

/-- The register file (R21). -/
structure Regs where
  rax : Value
  rbx : Value
  rcx : Value
deriving DecidableEq, Repr

/-- A bank of the memory subsystem (R64): its size in elements, and its content as MEM_INIT gave it and the writes changed
it (R66). `cells` lists (local offset, value) with rising offsets; every other element holds `fill`, and no listed
element does (log 13). -/
structure Bank where
  size  : Nat
  fill  : Value
  cells : List (Nat × Value)
deriving DecidableEq, Repr

/-- The memory subsystem: the banks in registration order (R64). -/
structure Memory where
  banks : List Bank
deriving DecidableEq, Repr

/-- The result of an `execute` transaction (R43). -/
inductive LaunchResult where
  | success
  | failure (c : FaultCause)
  | refused
deriving DecidableEq, Repr

/-- A transaction the host asks for (R23, R40 to R43, R64, R282). -/
inductive HostRequest where
  /-- `power_on` (R41). -/
  | powerOn
  /-- `reset` (R42). -/
  | reset
  /-- `execute` of a program on the memory subsystem attached (R43). -/
  | execute (code : List Byte)
  /-- The host writes a register (R23). -/
  | setReg (r : Reg) (v : Value)
  /-- A new memory subsystem, with no banks, takes the place of the one attached (R66, R282). -/
  | newMemory
  /-- A bank of a size is created with the contents given and registered after the others (R64): the first elements
  are those of `init`, the rest hold `fill`. `allocated` says whether the host's allocation succeeds (log 13). -/
  | createBank (size : Int) (fill : Value) (init : List Value) (allocated : Bool)
deriving DecidableEq, Repr

/-- Why a step stops with a fault. A fault of the CPU is none of these: it is a next state, in WAIT (R252). -/
inductive Fault where
  /-- Raised by an instruction that uses a stack where that stack is absent: no launch runs in such a state (R24, R48), so
  no run from reset reaches it. Safe: the model stops where the spec describes nothing (log 16). -/
  | stacksAbsent
deriving DecidableEq, Repr

/-- Why a step has no meaning. -/
inductive Refusal where
  /-- Raised by the dispatch for an instruction without a meaning. Safe. No arm of this model raises it. -/
  | notModelled (mnemonic : String)
deriving DecidableEq, Repr

/-- The whole state. -/
structure State where
  -- the CPU's state (R20)
  mode              : Mode
  regs              : Regs
  /-- The operand stack `S`, top first; `none` where it is absent (R24). -/
  opStack           : Option (List Value)
  /-- The call-return stack `C`, top first; `none` where it is absent (R26). -/
  callStack         : Option (List Nat)
  ip                : Nat
  faultCause        : FaultCause
  execActive        : Bool
  faultedSinceReset : Bool
  -- what the CPU reaches through its ports (R40)
  /-- The bytecode of the launch; its length is `CODE_LEN` (R61). -/
  code              : List Byte
  mem               : Memory
  /-- The console tokens still to come, each without white space (R180). -/
  inTokens          : List (List Char)
  /-- Whether the console input ends after `inTokens`; if not, a further read is never answered (R180, log 6). -/
  inClosed          : Bool
  /-- The host's answers to the next console writes, true for success; where none is listed, success (R181, log 10). -/
  outAnswers        : List Bool
  /-- The values handed to the console, oldest first (R181, R182). -/
  outValues         : List Value
  /-- The host's transactions to come, read only while no launch runs (R40, R45, log 4). -/
  hostQueue         : List HostRequest
  /-- The result of the last `execute` that has one (R43, log 11). -/
  lastResult        : Option LaunchResult
  /-- The parameters of R6; no step writes them (log 1). -/
  params            : Params
  /-- The model's own: how many free NaN patterns have been used (R143, log 8). -/
  draws             : Nat
deriving DecidableEq, Repr

/-- The CPU as constructed (R50, first column): OFF, no stacks, registers +0.0. The fields of the host are as in `reset`. -/
def State.constructed : State where
  mode              := .off
  regs              := { rax := 0, rbx := 0, rcx := 0 }
  opStack           := none
  callStack         := none
  ip                := 0
  faultCause        := .none
  execActive        := false
  faultedSinceReset := false
  code              := []
  mem               := { banks := [] }
  inTokens          := []
  inClosed          := false
  outAnswers        := []
  outValues         := []
  hostQueue         := []
  lastResult        := none
  params            := .default
  draws             := 0

/-- The machine right after the `reset` transaction (R42; R50, third column): ON, both stacks empty, registers +0.0. The
fields the spec gives no reset value are named in logs 3, 4, 6, 8, 10, 11 and 13. -/
def State.reset : State where
  mode              := .on
  regs              := { rax := 0, rbx := 0, rcx := 0 }
  opStack           := some []
  callStack         := some []
  ip                := 0
  faultCause        := .none
  execActive        := false
  faultedSinceReset := false
  code              := []
  mem               := { banks := [] }
  inTokens          := []
  inClosed          := false
  outAnswers        := []
  outValues         := []
  hostQueue         := []
  lastResult        := none
  params            := .default
  draws             := 0

end Sys2Proof.Machine
end

