-- ==== Sys2Proof/Machine/Ops.lean ====
section
/-! DEFINITION. The named operations over registers, stacks and memory, taking a fault (spec R252), and the host transactions
that leave WAIT, beside it (R41, R42, R258: the CPU has no return from a fault of its own). -/

namespace Sys2Proof.Machine

/-- The type of a meaning's answer. -/
abbrev Result := Host.Outcome State Fault Refusal

/-! ## Codes -/

/-- The code of a lifecycle state (R33). -/
def Mode.code : Mode → Nat
  | .off => 0
  | .on => 1
  | .wait => 2

/-- The code of a fault cause (R250). -/
def causeCode : FaultCause → Nat
  | .none => 0
  | .stackUnderflow => 1
  | .divNearZero => 2
  | .sqrtNegative => 3
  | .badRegister => 4
  | .badOpcode => 5
  | .truncatedOperand => 6
  | .retEmpty => 7
  | .memOutOfRange => 8
  | .endOfStream => 9
  | .badTarget => 10
  | .badIndex => 11
  | .ioError => 12
  | .resource => 13

/-- The exit code of the source's command-line entry point: 0 on success, 1 on failure; it never sees a refused launch (R47). -/
def LaunchResult.exitCode : LaunchResult → Option Nat
  | .success => some 0
  | .failure _ => some 1
  | .refused => none

/-! ## Registers (R21) -/

/-- `x[r]`. -/
def Regs.get (x : Regs) : Reg → Value
  | .rax => x.rax
  | .rbx => x.rbx
  | .rcx => x.rcx

/-- `x[r] <- v`. -/
def Regs.set (x : Regs) (r : Reg) (v : Value) : Regs :=
  match r with
  | .rax => { x with rax := v }
  | .rbx => { x with rbx := v }
  | .rcx => { x with rcx := v }

/-- Read a register of the state. -/
def State.reg (s : State) (r : Reg) : Value := s.regs.get r

/-- Write a register of the state. -/
def State.setReg (s : State) (r : Reg) (v : Value) : State := { s with regs := s.regs.set r v }

/-! ## The instruction pointer (R28, R29) -/

/-- `ip <- ip + n`. -/
def State.advance (s : State) (n : Nat) : State := { s with ip := s.ip + n }

/-- `ip <- t`. -/
def State.jumpTo (s : State) (t : Nat) : State := { s with ip := t }

/-- `CODE_LEN`. -/
def State.codeLen (s : State) : Nat := s.code.length

/-! ## Taking a fault -/

/-- Fault entry (R252): the mode becomes WAIT, the cause and the hidden bits are recorded, the launch ends with
`FAILURE(c)`; stacks, registers, `ip`, memory and console stay as they are (R251, R253). -/
def takeFault (c : FaultCause) (s : State) : State :=
  { s with
    mode := .wait
    faultCause := c
    faultedSinceReset := true
    execActive := false
    lastResult := some (.failure c) }

/-- `raise Fault(c)` (R10): the instruction ends at once in the fault's state. -/
def raiseFault (c : FaultCause) (s : State) : Result := .next (takeFault c s)

/-- `power_on` (R41): from OFF the stacks become empty and the hidden bit is cleared, from WAIT they are kept, from ON nothing
changes. It is not accepted while a launch runs. -/
def State.powerOn (s : State) : State :=
  if s.execActive then s
  else
    match s.mode with
    | .off =>
      { s with
        mode := .on
        opStack := some []
        callStack := some []
        faultCause := .none
        faultedSinceReset := false }
    | .on => s
    | .wait => { s with mode := .on, faultCause := .none }

/-- `reset` (R42): from any mode, stacks emptied, registers +0.0, fault record cleared; memory unchanged. It is not accepted
while a launch runs. -/
def State.doReset (s : State) : State :=
  if s.execActive then s
  else
    { s with
      mode := .on
      opStack := some []
      callStack := some []
      regs := { rax := 0, rbx := 0, rcx := 0 }
      faultCause := .none
      faultedSinceReset := false }

/-! ## The operand stack (R24, R25) -/

/-- A stack of this depth is full (R25, R27; log 17): no entry can be added. With no capacity it never is. -/
def atCapacity (cap : Option Nat) (depth : Nat) : Bool :=
  match cap with
  | none => false
  | some c => decide (c ≤ depth)

/-- Use the operand stack as it is; stop where it is absent. -/
def withStack (s : State) (k : List Value → Result) : Result :=
  match s.opStack with
  | none => .fault .stacksAbsent
  | some st => k st

/-- Use the top entry and what is under it; fewer than one entry is an underflow, before anything is popped (R25). -/
def withTop (s : State) (k : Value → List Value → Result) : Result :=
  withStack s fun st =>
    match st with
    | a :: rest => k a rest
    | [] => raiseFault .stackUnderflow s

/-- Use `A` (the top), `B` (the next) and what is under them; fewer than two entries is an underflow (R25). -/
def withTopTwo (s : State) (k : Value → Value → List Value → Result) : Result :=
  withStack s fun st =>
    match st with
    | a :: b :: rest => k a b rest
    | [_] => raiseFault .stackUnderflow s
    | [] => raiseFault .stackUnderflow s

/-- Make room for one entry more: use the stack, or fault where it is full (R25). -/
def withRoom (s : State) (k : List Value → Result) : Result :=
  withStack s fun st =>
    if atCapacity s.params.opStackCap st.length then raiseFault .resource s else k st

/-- The operand stack becomes `st`. -/
def State.setStack (s : State) (st : List Value) : State := { s with opStack := some st }

/-- Push the result of an arithmetic operation on `rest`: a NaN result is a free NaN pattern (R143). -/
def State.pushNumeric (s : State) (r : Option Value) (rest : List Value) : State :=
  match r with
  | some v => s.setStack (v :: rest)
  | none => { s with
      opStack := some (F64.nanOf (Config.freeNaN s.draws) :: rest)
      draws := s.draws + 1 }

/-! ## The call-return stack (R26, R27) -/

/-- Use the call-return stack as it is; stop where it is absent. -/
def withCallStack (s : State) (k : List Nat → Result) : Result :=
  match s.callStack with
  | none => .fault .stacksAbsent
  | some st => k st

/-- The call-return stack becomes `st`. -/
def State.setCallStack (s : State) (st : List Nat) : State := { s with callStack := some st }

/-! ## Memory (R64 to R71) -/

/-- The value listed for an offset, if any. -/
def cellsFind (cells : List (Nat × Value)) (o : Nat) : Option Value :=
  match cells with
  | [] => none
  | (b, w) :: rest => if b = o then some w else cellsFind rest o

/-- List `v` for an offset, keeping the offsets rising. -/
def cellsPut (cells : List (Nat × Value)) (o : Nat) (v : Value) : List (Nat × Value) :=
  match cells with
  | [] => [(o, v)]
  | (b, w) :: rest =>
    if o < b then (o, v) :: (b, w) :: rest
    else if o = b then (o, v) :: rest
    else (b, w) :: cellsPut rest o v

/-- List nothing for an offset. -/
def cellsErase (cells : List (Nat × Value)) (o : Nat) : List (Nat × Value) :=
  match cells with
  | [] => []
  | (b, w) :: rest => if b = o then rest else (b, w) :: cellsErase rest o

/-- The element at a local offset of a bank: what is listed there, else the bank's fill. -/
def Bank.get (b : Bank) (o : Nat) : Value := (cellsFind b.cells o).getD b.fill

/-- Store at a local offset of a bank; storing the fill removes the entry (the canonical form). -/
def Bank.put (b : Bank) (o : Nat) (v : Value) : Bank :=
  { b with cells := if v = b.fill then cellsErase b.cells o else cellsPut b.cells o v }

/-- The canonical form of a bank, and its size above 0 (R64): offsets rising and inside the bank, no entry equal to
what an unlisted element reads as. -/
abbrev Bank.wf (b : Bank) : Prop :=
  0 < b.size ∧ (b.cells.map Prod.fst).Pairwise (· < ·) ∧ ∀ c ∈ b.cells, c.1 < b.size ∧ c.2 ≠ b.fill

/-- Every bank is in canonical form. -/
abbrev Memory.wf (m : Memory) : Prop := ∀ b ∈ m.banks, b.wf

/-- `TOTAL`: the sum of the bank sizes (R65). -/
def Memory.total (m : Memory) : Nat := (m.banks.map Bank.size).sum

/-- The scan of R67 over the banks: the bank whose range holds the address, and the offset in it. -/
def translateIn (banks : List Bank) (a : Nat) : Option (Nat × Nat) :=
  match banks with
  | [] => none
  | b :: rest =>
    if a < b.size then some (0, a)
    else (translateIn rest (a - b.size)).map fun p => (p.1 + 1, p.2)

/-- Address translation (R67): a bank number and a local offset, or out of range; a negative address is in no bank's
range (R68). -/
def Memory.translate (m : Memory) (a : Int) : Option (Nat × Nat) :=
  if a < 0 then none else translateIn m.banks a.toNat

/-- `MemRead(a, 1)` (R70): the element, or `none` for the error of an address out of range. -/
def Memory.read (m : Memory) (a : Int) : Option Value :=
  match m.translate a with
  | none => none
  | some (j, o) => (m.banks[j]?).map fun b => b.get o

/-- `MemWrite(a, 1, v)` (R71): the memory with that one element changed, or `none` for the error of an address out
of range. -/
def Memory.write (m : Memory) (a : Int) (v : Value) : Option Memory :=
  match m.translate a with
  | none => none
  | some (j, o) => some { m with banks := m.banks.modify j fun b => b.put o v }

/-- The cells of a bank created with the first elements `init`, from offset `o` on, the others `fill`. -/
def initCells (fill : Value) (init : List Value) (o : Nat) : List (Nat × Value) :=
  match init with
  | [] => []
  | v :: rest => if v = fill then initCells fill rest (o + 1) else (o, v) :: initCells fill rest (o + 1)

/-- Creation of a bank (R64): an error, and no bank, for a size of 0 or less or where the allocation fails; else the bank is
registered after the others, its contents (MEM_INIT, R66) the elements of `init`, as far as they fit, and `fill` after
them. Whether the allocation succeeds is the host's to say (log 13). -/
def Memory.createBank (m : Memory) (size : Int) (fill : Value) (init : List Value) (allocated : Bool) : Option Memory :=
  if size ≤ 0 ∨ allocated = false then none
  else some
    { m with
      banks := m.banks ++
        [{ size := size.toNat, fill := fill, cells := initCells fill (init.take size.toNat) 0 }] }

end Sys2Proof.Machine
end

