-- ==== Sys2Proof/Machine/Operands.lean ====
section
/-! DEFINITION. The operand forms of the instructions: a register (spec R94, through `State.reg`), an immediate (R95, taken as
it is), the two address forms of the memory instructions (R201, R202), and a control-transfer target (R220). -/

namespace Sys2Proof.Machine

/-- `idx(v)` (R201): the memory address a register's double names. A NaN or an infinity names none; a value that is not an
integer names none under `strict` and is rounded toward zero under `truncate`. -/
def idx (conv : IndexConversion) (v : Value) : Option Int :=
  if F64.isFinite v then
    match conv with
    | .strict =>
      if F64.scaledMag v % F64.unit = 0 then some (F64.scaled v / (F64.unit : Int)) else none
    | .truncate => some (Int.tdiv (F64.scaled v) (F64.unit : Int))
  else none

/-- The address of a register-indexed access, or `BAD_INDEX` (R201). -/
def withIndex (s : State) (ri : Reg) (k : Int → Result) : Result :=
  match idx s.params.indexConversion (s.reg ri) with
  | some a => k a
  | none => raiseFault .badIndex s

/-- The target of a control transfer, checked against the code's length (R220). The decoder makes the same check before
the instruction is performed (R110), so in a launch it never fails here (log 18). -/
def withTarget (s : State) (t : Int) (k : Nat → Result) : Result :=
  if targetOk s.codeLen t then k t.toNat else raiseFault .badTarget s

end Sys2Proof.Machine
end

