-- ==== Sys2Proof/Machine/Arithmetic.lean ====
section
/-! DEFINITION. The arithmetic family: ADD, SUB, MUL, DIV, SQRT (spec R145 to R149). `A` is the top of the operand stack, `B` the
entry under it. -/

namespace Sys2Proof.Machine

/-- `ADD` (R145): `A + B`. -/
def execAdd (s : State) : Result :=
  withTopTwo s fun a b rest => .next ((s.pushNumeric (F64.add a b) rest).advance 1)

/-- `SUB` (R146): `B - A`. -/
def execSub (s : State) : Result :=
  withTopTwo s fun a b rest => .next ((s.pushNumeric (F64.sub b a) rest).advance 1)

/-- `MUL` (R147): `A * B`. -/
def execMul (s : State) : Result :=
  withTopTwo s fun a b rest => .next ((s.pushNumeric (F64.mul a b) rest).advance 1)

/-- `DIV` (R148): `B / A`, or a fault where the divisor is near zero, nothing popped. -/
def execDiv (s : State) : Result :=
  withTopTwo s fun a b rest =>
    if nearZero s.params.eps a then raiseFault .divNearZero s
    else .next ((s.pushNumeric (F64.div b a) rest).advance 1)

/-- `SQRT` (R149): the root of the top in its place, or a fault where it is negative, nothing popped. -/
def execSqrt (s : State) : Result :=
  withTop s fun a rest =>
    if negative a then raiseFault .sqrtNegative s
    else .next ((s.pushNumeric (F64.sqrt a) rest).advance 1)

end Sys2Proof.Machine
end

