-- ==== Sys2Proof/Machine/Text.lean ====
section
/-! DEFINITION. Numbers as text: the `strtod` grammar of double literals and console tokens (spec R123, R180), its conversion
to binary64, and the `%f` text of an output value (R182). Texts are lists of characters. -/

namespace Sys2Proof.Machine

/-! ## Characters -/

/-- The value of a decimal digit. -/
def decDigit (c : Char) : Option Nat :=
  if 48 ≤ c.toNat ∧ c.toNat ≤ 57 then some (c.toNat - 48) else none

/-- The value of a hexadecimal digit. -/
def hexDigit (c : Char) : Option Nat :=
  if 48 ≤ c.toNat ∧ c.toNat ≤ 57 then some (c.toNat - 48)
  else if 97 ≤ c.toNat ∧ c.toNat ≤ 102 then some (c.toNat - 87)
  else if 65 ≤ c.toNat ∧ c.toNat ≤ 70 then some (c.toNat - 55)
  else none

/-- An ASCII letter in lower case; any other character as it is. -/
def lowerChar (c : Char) : Char :=
  if 65 ≤ c.toNat ∧ c.toNat ≤ 90 then Char.ofNat (c.toNat + 32) else c

/-- The characters that may stand in the parentheses of a `nan(...)`. -/
def isNanChar (c : Char) : Bool :=
  (decDigit c).isSome || (97 ≤ (lowerChar c).toNat && (lowerChar c).toNat ≤ 122) || c == '_'

/-! ## The grammar -/

/-- A parsed literal: digits `num` (so many of them, leading zeros included) times a base to a power, or a special. -/
inductive Literal where
  | dec (neg : Bool) (num digits : Nat) (exp : Int)
  | hex (neg : Bool) (num digits : Nat) (exp : Int)
  | inf (neg : Bool)
  | nan (neg : Bool)
deriving DecidableEq, Repr

/-- The digits at the head of a text, read on after `acc`: their number, how many, and the text after them. -/
def takeDigits (digit : Char → Option Nat) (base acc count : Nat) : List Char → Nat × Nat × List Char
  | [] => (acc, count, [])
  | c :: cs =>
    match digit c with
    | some d => takeDigits digit base (acc * base + d) (count + 1) cs
    | none => (acc, count, c :: cs)

/-- A sign at the head of a text: whether it is a minus, and the text after it. -/
def takeSign : List Char → Bool × List Char
  | [] => (false, [])
  | c :: cs => if c = '-' then (true, cs) else if c = '+' then (false, cs) else (false, c :: cs)

/-- Digits with at most one point among them: their number, how many, how many after the point, and the text after. -/
def takeMantissa (digit : Char → Option Nat) (base : Nat) (cs : List Char) : Nat × Nat × Nat × List Char :=
  match takeDigits digit base 0 0 cs with
  | (n, k, '.' :: rest) =>
    match takeDigits digit base n k rest with
    | (n', k', rest') => (n', k', k' - k, rest')
  | (n, k, rest) => (n, k, 0, rest)

/-- An exponent that is the whole of a text: nothing (0), or the marker, a sign and one digit or more. -/
def wholeExponent (marker : Char) : List Char → Option Int
  | [] => some 0
  | c :: cs =>
    if lowerChar c = marker then
      match takeSign cs with
      | (neg, ds) =>
        match takeDigits decDigit 10 0 0 ds with
        | (n, k, []) => if k = 0 then none else some (if neg then -(n : Int) else (n : Int))
        | (_, _, _ :: _) => none
    else none

/-- A decimal literal that is the whole of a text. -/
def wholeDec (neg : Bool) (cs : List Char) : Option Literal :=
  match takeMantissa decDigit 10 cs with
  | (n, k, f, rest) =>
    if k = 0 then none
    else (wholeExponent 'e' rest).map fun e => .dec neg n k (e - f)

/-- A hexadecimal literal, after its `0x`, that is the whole of a text: each digit after the point is four binary places. -/
def wholeHex (neg : Bool) (cs : List Char) : Option Literal :=
  match takeMantissa hexDigit 16 cs with
  | (n, k, f, rest) =>
    if k = 0 then none
    else (wholeExponent 'p' rest).map fun e => .hex neg n k (e - 4 * f)

/-- What may follow `nan`: nothing, or letters, digits and underscores in parentheses. -/
def nanTail : List Char → Bool
  | [] => true
  | c :: cs => c == '(' && cs.getLast? == some ')' && (cs.dropLast).all isNanChar

/-- A literal of the `strtod` grammar that is the whole of a text (R123; log 14): an optional sign, then a special in any
case, a hexadecimal or a decimal literal. -/
def parseLiteral (text : List Char) : Option Literal :=
  match takeSign text with
  | (neg, cs) =>
    if cs.map lowerChar = ['i', 'n', 'f'] then some (.inf neg)
    else if cs.map lowerChar = ['i', 'n', 'f', 'i', 'n', 'i', 't', 'y'] then some (.inf neg)
    else if (cs.take 3).map lowerChar = ['n', 'a', 'n'] ∧ nanTail (cs.drop 3) then some (.nan neg)
    else if (cs.take 2).map lowerChar = ['0', 'x'] then wholeHex neg (cs.drop 2)
    else wholeDec neg cs

/-! ## Conversion -/

/-- A rounding of `num / den` to a value of a sign. -/
abbrev Rounding := Bool → Nat → Nat → Value

/-- The nearest binary64, ties to even (R123). -/
def roundNearest : Rounding := F64.round

/-- The nearest single-precision value, ties to even, and that value as a binary64 (log 21). -/
def roundViaSingle : Rounding := fun neg num den =>
  if num = 0 then F64.zero neg
  else
    let q := F64.lastPlace 24 (-149) num den
    let n := F64.roundAt num den q
    if 0 ≤ q then
      if 2 ^ 128 ≤ n * 2 ^ q.toNat then F64.inf neg else F64.round neg (n * 2 ^ q.toNat) 1
    else F64.round neg n (2 ^ (-q).toNat)

/-- The value of a literal. A magnitude of more than `10 ^ 400` or `2 ^ 1100` is past the greatest finite value of either
format, one of less than `10 ^ -400` or `2 ^ -1200` is below half of the least, so the powers need not be computed. -/
def Literal.value (rnd : Rounding) (text : List Char) : Literal → Value
  | .dec neg num digits exp =>
    if num = 0 then F64.zero neg
    else if 400 < exp then F64.inf neg
    else if digits + exp < -400 then F64.zero neg
    else if 0 ≤ exp then rnd neg (num * 10 ^ exp.toNat) 1
    else rnd neg num (10 ^ (-exp).toNat)
  | .hex neg num digits exp =>
    if num = 0 then F64.zero neg
    else if 1100 < exp then F64.inf neg
    else if 4 * digits + exp < -1200 then F64.zero neg
    else if 0 ≤ exp then rnd neg (num * 2 ^ exp.toNat) 1
    else rnd neg num (2 ^ (-exp).toNat)
  | .inf neg => F64.inf neg
  | .nan _ => F64.nanOf (Config.textNaN text)

/-- The binary64 of a text that is a literal (R123). A NaN's pattern is free (log 9). -/
def textValue (rnd : Rounding) (text : List Char) : Option Value :=
  (parseLiteral text).map (Literal.value rnd text)

/-- `INPUT_CONVERT` (R180): the value of a console token, or `none` where the token is not a number. -/
def convertToken (conv : InputConvert) (token : List Char) : Option Value :=
  match conv with
  | .nearest => textValue roundNearest token
  | .viaSingle => textValue roundViaSingle token
  | .other => Config.otherConvert token

/-! ## Output text (R182) -/

/-- The decimal digits of a number before the digits already found, as many steps as `fuel` allows. -/
def digitsOnto : Nat → Nat → List Char → List Char
  | 0, _, acc => acc
  | fuel + 1, n, acc =>
    if n < 10 then Char.ofNat (48 + n) :: acc
    else digitsOnto fuel (n / 10) (Char.ofNat (48 + n % 10) :: acc)

/-- The decimal digits of a number. -/
def decimalDigits (n : Nat) : List Char := digitsOnto (n.log2 + 1) n []

/-- The last `k` decimal digits of a number. -/
def lastDigits : Nat → Nat → List Char → List Char
  | 0, _, acc => acc
  | k + 1, n, acc => lastDigits k (n / 10) (Char.ofNat (48 + n % 10) :: acc)

/-- The magnitude of a finite value in millionths, rounded to the nearest; which way a tie goes is free (R182, log 15). -/
def millionths (v : Value) : Nat :=
  let q := F64.scaledMag v * 10 ^ 6 / F64.unit
  let r := F64.scaledMag v * 10 ^ 6 % F64.unit
  if 2 * r < F64.unit then q
  else if F64.unit < 2 * r then q + 1
  else match Config.outTieUp v with
    | true => q + 1
    | false => q

/-- The fixed-point text of a value, six digits after the point, a `-` before a negative one, `-0` included; the spelling of
an infinity or a NaN is the host's (R182). DESIGN CHOICE (log 26): a finite value has all its digits however large it is,
where U23 leaves the text of very large values to the host. -/
def fixedText (v : Value) : List Char :=
  if F64.isFinite v then
    (if F64.sign v then ['-'] else []) ++ decimalDigits (millionths v / 10 ^ 6) ++ ['.'] ++
      lastDigits 6 (millionths v) []
  else Config.specialText v

/-- The line the host writes for a value: its text and a newline (R181, R182). -/
def outputLine (v : Value) : List Char := fixedText v ++ ['\n']

end Sys2Proof.Machine
end

