-- ==== Sys2Proof/Machine/Console.lean ====
section
/-! DEFINITION. The console ports (spec R180 to R182, R187) and the I/O family: IN, IN_R, OUT, OUT_R (R183 to R186). -/

namespace Sys2Proof.Machine

/-! ## The ports -/

/-- `ConsoleIn()` (R180). A token the host still has is consumed, whatever it converts to; a token that is not a number and the
end of the input make `IO_ERROR`; a read the host never answers leaves the machine as it is, so that the next step
asks again: the launch blocks (log 6). -/
def consoleIn (s : State) (k : Value → State → Result) : Result :=
  match s.inTokens with
  | token :: rest =>
    match convertToken s.params.inputConvert token with
    | some v => k v { s with inTokens := rest }
    | none => raiseFault .ioError { s with inTokens := rest }
  | [] => if s.inClosed then raiseFault .ioError s else .next s

/-- The state after the host has answered a console write of `v` with success (R181). -/
def State.written (s : State) (v : Value) : State :=
  { s with outAnswers := s.outAnswers.drop 1, outValues := s.outValues ++ [v] }

/-- Whether the host's next answer to a console write is success; where none is listed, it is (log 10). -/
def State.outOk (s : State) : Bool := s.outAnswers.headD true

/-- `ConsoleOut(v)` (R181): the value is written before the instruction goes on, or the host reports a failure, its
answer used up, and the instruction raises `IO_ERROR`. -/
def consoleOut (s : State) (v : Value) (k : State → Result) : Result :=
  if s.outOk then k (s.written v)
  else raiseFault .ioError { s with outAnswers := s.outAnswers.drop 1 }

/-- The text on standard output (R181, R182). -/
def State.outText (s : State) : List Char := s.outValues.flatMap outputLine

/-! ## The instructions -/

/-- `IN` (R183): the capacity is checked before any input is read. -/
def execIn (s : State) : Result :=
  withRoom s fun st => consoleIn s fun v s1 => .next ((s1.setStack (v :: st)).advance 1)

/-- `IN_R` (R184). -/
def execInR (r : Reg) (s : State) : Result :=
  consoleIn s fun v s1 => .next ((s1.setReg r v).advance 2)

/-- `OUT` (R185): the top is written, and popped where `OUT_POPS` says so. -/
def execOut (s : State) : Result :=
  withTop s fun v rest =>
    consoleOut s v fun s1 =>
      .next ((if s1.params.outPops then s1.setStack rest else s1).advance 1)

/-- `OUT_R` (R186). -/
def execOutR (r : Reg) (s : State) : Result :=
  consoleOut s (s.reg r) fun s1 => .next (s1.advance 2)

end Sys2Proof.Machine
end

