-- ==== Sys2Proof/Machine/Control.lean ====
section
/-! DEFINITION. The control-flow family: JMP, JMPL, JMPG, CALL, RET, HLT (spec R220 to R231). -/

namespace Sys2Proof.Machine

/-- `JMP` (R222). -/
def execJmp (t : Int) (s : State) : Result :=
  withTarget s t fun n => .next (s.jumpTo n)

/-- A conditional branch (R221, R223, R224): both entries are consumed, taken or not. -/
def branchIf (cond : Value → Value → Bool) (t : Int) (s : State) : Result :=
  withTarget s t fun n =>
    withTopTwo s fun a b rest =>
      if cond a b then .next ((s.setStack rest).jumpTo n)
      else .next ((s.setStack rest).advance 5)

/-- `JMPL` (R223): taken when `B < A`. -/
def execJmpl (t : Int) (s : State) : Result := branchIf lessTaken t s

/-- `JMPG` (R224): taken when `B > A`. -/
def execJmpg (t : Int) (s : State) : Result := branchIf greaterTaken t s

/-- `CALL` (R226, R227): `ip + 5` is pushed, whatever stands there. -/
def execCall (t : Int) (s : State) : Result :=
  withTarget s t fun n =>
    withCallStack s fun st =>
      if atCapacity s.params.callStackCap st.length then raiseFault .resource s
      else .next ((s.setCallStack ((s.ip + 5) :: st)).jumpTo n)

/-- `RET` (R228): the popped address is not checked. -/
def execRet (s : State) : Result :=
  withCallStack s fun st =>
    match st with
    | a :: rest => .next ((s.setCallStack rest).jumpTo a)
    | [] => raiseFault .retEmpty s

/-- The launch's successful end (R231): OFF, both stacks released. -/
def State.halt (s : State) : State :=
  { s with
    mode := .off
    opStack := none
    callStack := none
    execActive := false
    lastResult := some .success }

/-- `HLT` (R231). -/
def execHlt (s : State) : Result := .next s.halt

end Sys2Proof.Machine
end

