-- ==== Sys2Proof/Machine/Memops.lean ====
section
/-! DEFINITION. The memory family: WRITE_R, WRITE_A, READ_R, READ_A (spec R200 to R206). -/

namespace Sys2Proof.Machine

/-- Store a value at a data address, or `MEM_OUT_OF_RANGE` (R71, R200). -/
def storeAt (s : State) (a : Int) (v : Value) (k : State → Result) : Result :=
  match s.mem.write a v with
  | some m => k { s with mem := m }
  | none => raiseFault .memOutOfRange s

/-- Load the value at a data address, or `MEM_OUT_OF_RANGE` (R70, R200). -/
def loadAt (s : State) (a : Int) (k : Value → Result) : Result :=
  match s.mem.read a with
  | some v => k v
  | none => raiseFault .memOutOfRange s

/-- `WRITE_R` (R203): register-indexed store. -/
def execWriteR (rs ri : Reg) (s : State) : Result :=
  withIndex s ri fun a => storeAt s a (s.reg rs) fun s1 => .next (s1.advance 3)

/-- `WRITE_A` (R204): literal-address store. -/
def execWriteA (rs : Reg) (addr : Int) (s : State) : Result :=
  storeAt s addr (s.reg rs) fun s1 => .next (s1.advance 6)

/-- `READ_R` (R205): register-indexed load; the address is computed before the destination is written. -/
def execReadR (ri rd : Reg) (s : State) : Result :=
  withIndex s ri fun a => loadAt s a fun v => .next ((s.setReg rd v).advance 3)

/-- `READ_A` (R206): literal-address load. -/
def execReadA (addr : Int) (rd : Reg) (s : State) : Result :=
  loadAt s addr fun v => .next ((s.setReg rd v).advance 6)

end Sys2Proof.Machine
end

