-- ==== Sys2Proof/Machine/Stack.lean ====
section
/-! DEFINITION. The stack and register transfer family: PUSH_V, PUSH_R, POP, POP_R (spec R160 to R163). -/

namespace Sys2Proof.Machine

/-- `PUSH_V` (R160): the immediate's pattern exactly. -/
def execPushV (d : Value) (s : State) : Result :=
  withRoom s fun st => .next ((s.setStack (d :: st)).advance 9)

/-- `PUSH_R` (R161): the register's pattern; the register is not cleared. -/
def execPushR (r : Reg) (s : State) : Result :=
  withRoom s fun st => .next ((s.setStack (s.reg r :: st)).advance 2)

/-- `POP` (R162): the top is discarded. -/
def execPop (s : State) : Result :=
  withTop s fun _ rest => .next ((s.setStack rest).advance 1)

/-- `POP_R` (R163): the top goes to the register. -/
def execPopR (r : Reg) (s : State) : Result :=
  withTop s fun v rest => .next (((s.setStack rest).setReg r v).advance 2)

end Sys2Proof.Machine
end

