-- ==== Sys2Proof/Machine/Dispatch.lean ====
section
/-! DEFINITION. The dispatch: one arm per constructor, each one call of the instruction's meaning. -/

namespace Sys2Proof.Machine

def exec (i : Instr) (s : State) : Host.Outcome State Fault Refusal :=
  match i with
  | .add => Sys2Proof.Machine.execAdd s
  | .sub => Sys2Proof.Machine.execSub s
  | .mul => Sys2Proof.Machine.execMul s
  | .div => Sys2Proof.Machine.execDiv s
  | .sqrt => Sys2Proof.Machine.execSqrt s
  | .writeR rs ri => Sys2Proof.Machine.execWriteR rs ri s
  | .writeA rs addr => Sys2Proof.Machine.execWriteA rs addr s
  | .readR ri rd => Sys2Proof.Machine.execReadR ri rd s
  | .readA addr rd => Sys2Proof.Machine.execReadA addr rd s
  | .pushV d => Sys2Proof.Machine.execPushV d s
  | .pushR r => Sys2Proof.Machine.execPushR r s
  | .pop => Sys2Proof.Machine.execPop s
  | .popR r => Sys2Proof.Machine.execPopR r s
  | .input => Sys2Proof.Machine.execIn s
  | .inputR r => Sys2Proof.Machine.execInR r s
  | .output => Sys2Proof.Machine.execOut s
  | .outputR r => Sys2Proof.Machine.execOutR r s
  | .jmp t => Sys2Proof.Machine.execJmp t s
  | .jmpl t => Sys2Proof.Machine.execJmpl t s
  | .jmpg t => Sys2Proof.Machine.execJmpg t s
  | .call t => Sys2Proof.Machine.execCall t s
  | .ret => Sys2Proof.Machine.execRet s
  | .hlt => Sys2Proof.Machine.execHlt s

end Sys2Proof.Machine
end

