-- ==== Sys2Proof/Machine/HostPort.lean ====
section
/-! DEFINITION. The host's transactions (spec R23, R40 to R48, R64, R282): what each does to the state, and that none is accepted
while a launch runs. `power_on` and `reset` themselves stand in Ops.lean. -/

namespace Sys2Proof.Machine

/-- Whether a launch of a code is refused (R43 (a)): the CPU is not ON, or it faulted and the policy asks for a reset. A code
longer than `CODE_LEN` may be is not admitted either (R6, U29; log 12). -/
def State.refuses (s : State) (code : List Byte) : Bool :=
  decide (s.mode ≠ .on) ||
  (decide (s.params.restartPolicy = .requireReset) && s.faultedSinceReset) ||
  decide (Config.maxCodeLen < code.length)

/-- The start of an accepted launch (R43 (b), R50): the loop runs from offset 0. -/
def State.launch (s : State) (code : List Byte) : State :=
  { s with code := code, ip := 0, execActive := true, lastResult := none }

/-- `execute(code, mem)` (R43), on the memory subsystem attached. It is not accepted while a launch runs (R45, R48). -/
def State.execute (s : State) (code : List Byte) : State :=
  if s.execActive then s
  else if s.refuses code then { s with lastResult := some .refused }
  else s.launch code

/-- A transaction of the host. While a launch runs none is accepted, and nothing changes (R23, R45, R48). -/
def hostStep (r : HostRequest) (s : State) : State :=
  if s.execActive then s
  else
    match r with
    | .powerOn => s.powerOn
    | .reset => s.doReset
    | .execute code => s.execute code
    | .setReg r v => s.setReg r v
    | .newMemory => { s with mem := { banks := [] } }
    | .createBank size fill init allocated =>
      match s.mem.createBank size fill init allocated with
      | some m => { s with mem := m }
      | none => s

/-- A step while no launch runs: the next pending transaction of the host, or nothing (log 4, log 5). -/
def idleStep (s : State) : State :=
  match s.hostQueue with
  | [] => s
  | r :: rest => hostStep r { s with hostQueue := rest }

end Sys2Proof.Machine
end

