-- ==== Sys2Proof/Machine/Fetch.lean ====
section
/-! DEFINITION. Fetching: the instruction at `ip` of the code (spec R61, R110), and a state in which given bytes stand where
the next step fetches. -/

namespace Sys2Proof.Machine

/-- `decode()` of R110 on the state: it reads the code and `ip` only (R112). -/
def fetchDecode (s : State) : Except FaultCause Instr :=
  decodeAt s.params.encoding s.code s.ip

/-- The code with bytes laid over it at an offset, padded with zero bytes where it is shorter. -/
def overlay (code : List Byte) (at' : Nat) (bytes : List Byte) : List Byte :=
  code.take at' ++ List.replicate (at' - code.length) 0 ++ bytes ++ code.drop (at' + bytes.length)

/-- The state in which the very next step fetches and runs the first instruction of the bytes: in a running launch they are
laid at `ip`; else the CPU is powered on and a launch of them starts at offset 0, which stands for the host's load
(R43, R282; log 4). -/
def placeCode (s : State) (bytes : List Byte) : State :=
  if s.execActive then { s with code := overlay s.code s.ip bytes }
  else s.powerOn.launch bytes

end Sys2Proof.Machine
end

