-- ==== Sys2Proof/Machine/Step.lean ====
section
/-! DEFINITION. One step of the machine: an instruction of the running launch (spec R111), or a transaction of the host. -/

namespace Sys2Proof.Machine

/-- One step. In a launch: decode, then perform; a check of the decoder that fails is a fault (R111, R252). Outside a
launch: the host's next transaction. -/
def step (s : State) : Host.Outcome State Fault Refusal :=
  match s.execActive with
  | true =>
    match fetchDecode s with
    | .error c => raiseFault c s
    | .ok i => exec i s
  | false => .next (idleStep s)

/-- The state in which the next step fetches and runs the instruction of a table word: `nbits` bits of `w`, bit 0 the least
significant bit of the first byte, zeros above them (log 25). -/
def State.withFetchWord (s : State) (nbits w : Nat) : State := placeCode s (tableBytes nbits w)

end Sys2Proof.Machine
end

