-- ==== Sys2Proof/Machine/Assembler.lean ====
section
/-! DEFINITION. The assembler as a function from text to bytes (spec R120 to R128): tokens, instruction forms, labels and literal
targets, the errors. Its internal tables are out of scope (R5 (d)); only the bytes and the errors are the spec's. Choices the
spec leaves open are named in log 19. -/

namespace Sys2Proof.Machine

/-- The fatal errors of R126, those that the spec adds among them (D31). -/
inductive AsmError where
  /-- A token that begins no instruction and defines no label. -/
  | unrecognizedCommand
  /-- A missing or invalid operand. -/
  | badOperand
  /-- A malformed numeric literal. -/
  | badLiteral
  /-- A control-flow mnemonic with no label or literal after it. -/
  | missingTarget
  /-- A `$` or address literal outside the signed 32-bit range. -/
  | outOfRange
  /-- A label defined twice. -/
  | duplicateLabel
  /-- A label referred to and never defined. -/
  | undefinedLabel
  /-- A label spelled like a mnemonic. -/
  | reservedLabel
  /-- A program longer than `2^31 - 1` bytes. -/
  | programTooLong
deriving DecidableEq, Repr

/-- The text of a token: characters without white space. -/
abbrev Token := List Char

/-- A token as it stands in the source: its text, and whether white space or the end of the input follows it (R121); what
follows it otherwise is the `#` of a comment. -/
structure Lexeme where
  text   : Token
  spaced : Bool
deriving DecidableEq, Repr

/-! ## Tokens (R120) -/

/-- White space: spaces, tabs, newlines. -/
def isWhite (c : Char) : Bool := c == ' ' || c == '\t' || c == '\n'

/-- The token read so far, if there is one, before others. -/
def flushToken (cur : Token) (spaced : Bool) (rest : List Lexeme) : List Lexeme :=
  match cur with
  | [] => rest
  | c :: cs => { text := c :: cs, spaced := spaced } :: rest

/-- The tokens of a text, `cur` the characters of the token being read, and whether a comment is left open at the end, which
is a warning and not an error. A comment runs from one `#` to the next and ends a token, but is no white space after it. -/
def scan (inComment : Bool) (cur : Token) : List Char → List Lexeme × Bool
  | [] => (flushToken cur true [], inComment)
  | c :: cs =>
    match inComment with
    | true => if c = '#' then scan false [] cs else scan true [] cs
    | false =>
      if c = '#' then (scan true [] cs).map (flushToken cur false) id
      else if isWhite c then (scan false [] cs).map (flushToken cur true) id
      else scan false (cur ++ [c]) cs

/-- The tokens of a source text. -/
def tokens (src : List Char) : List Lexeme := (scan false [] src).1

/-- Whether a source text draws the unterminated-comment warning (R120). -/
def commentLeftOpen (src : List Char) : Bool := (scan false [] src).2

/-! ## Operands (R121) -/

/-- A register name. -/
def regName (t : Token) : Option Reg :=
  if t = ['r', 'a', 'x'] then some .rax
  else if t = ['r', 'b', 'x'] then some .rbx
  else if t = ['r', 'c', 'x'] then some .rcx
  else none

/-- A decimal integer that is the whole of a text: an optional minus and one digit or more. -/
def wholeInt : List Char → Option Int
  | '-' :: cs =>
    match takeDigits decDigit 10 0 0 cs with
    | (n, k, []) => if k = 0 then none else some (-(n : Int))
    | (_, _, _ :: _) => none
  | cs =>
    match takeDigits decDigit 10 0 0 cs with
    | (n, k, []) => if k = 0 then none else some (n : Int)
    | (_, _, _ :: _) => none

/-- An integer literal in the signed 32-bit range (R121, R125). -/
def addrLiteral (t : Token) : Except AsmError Int :=
  match wholeInt t with
  | none => .error .badLiteral
  | some a => if inAddrRange a then .ok a else .error .outOfRange

/-- What stands between the brackets of a token. -/
def bracketed : Token → Option Token
  | '[' :: cs => if cs.getLast? = some ']' then some cs.dropLast else none
  | _ => none

/-- The bracketed operand of a memory instruction: an index register or a literal address. -/
inductive MemOperand where
  | index (r : Reg)
  | address (a : Int)
deriving DecidableEq, Repr

/-- Read a bracketed operand; the brackets are required. -/
def memOperand (t : Token) : Except AsmError MemOperand :=
  match bracketed t with
  | none => .error .badOperand
  | some inner =>
    match regName inner with
    | some r => .ok (.index r)
    | none => (addrLiteral inner).map .address

/-- A register operand. -/
def regOperand (t : Token) : Except AsmError Reg :=
  match regName t with
  | some r => .ok r
  | none => .error .badOperand

/-- A control-flow target: a label, or the integer of a `$` literal (R121, R125). -/
inductive Target where
  | label (name : Token)
  | literal (a : Int)
deriving DecidableEq, Repr

/-- Read a target. DESIGN CHOICE (log 19): the integer of a `$` literal is decimal, as R121 says of an address literal, where
R125 names no base. -/
def targetOperand : Token → Except AsmError Target
  | '$' :: cs => (addrLiteral cs).map .literal
  | t => .ok (.label t)

/-! ## Instructions -/

/-- The control-flow mnemonics that take a target. -/
inductive Transfer where
  | jmp
  | jmpl
  | jmpg
  | call
deriving DecidableEq, Repr

/-- The instruction of a transfer with its target. -/
def Transfer.instr : Transfer → Int → Instr
  | .jmp, t => .jmp t
  | .jmpl, t => .jmpl t
  | .jmpg, t => .jmpg t
  | .call, t => .call t

/-- What a source text is made of: instructions, transfers whose target may be a label, label definitions. -/
inductive AsmItem where
  | plain (i : Instr)
  | transfer (k : Transfer) (t : Target)
  | label (name : Token)
deriving DecidableEq, Repr

/-- The mnemonics that take no operand, ever (R121). -/
def zeroOperand (t : Token) : Option Instr :=
  if t = ['a', 'd', 'd'] then some .add
  else if t = ['s', 'u', 'b'] then some .sub
  else if t = ['m', 'u', 'l'] then some .mul
  else if t = ['d', 'i', 'v'] then some .div
  else if t = ['s', 'q', 'r', 't'] then some .sqrt
  else if t = ['r', 'e', 't'] then some .ret
  else if t = ['h', 'l', 't'] then some .hlt
  else none

/-- The mnemonics that take a target (R121). -/
def transferName (t : Token) : Option Transfer :=
  if t = ['j', 'm', 'p'] then some .jmp
  else if t = ['j', 'm', 'p', 'l'] then some .jmpl
  else if t = ['j', 'm', 'p', 'g'] then some .jmpg
  else if t = ['c', 'a', 'l', 'l'] then some .call
  else none

/-- The register-capable mnemonics and the memory mnemonics (R121, R122). -/
inductive OperandName where
  | push
  | pop
  | input
  | output
  | write
  | read
deriving DecidableEq, Repr

/-- Read such a mnemonic. -/
def operandName (t : Token) : Option OperandName :=
  if t = ['p', 'u', 's', 'h'] then some .push
  else if t = ['p', 'o', 'p'] then some .pop
  else if t = ['i', 'n'] then some .input
  else if t = ['o', 'u', 't'] then some .output
  else if t = ['w', 'r', 'i', 't', 'e'] then some .write
  else if t = ['r', 'e', 'a', 'd'] then some .read
  else none

/-- Every spelling that is a mnemonic. -/
def isMnemonic (t : Token) : Bool :=
  (zeroOperand t).isSome || (transferName t).isSome || (operandName t).isSome

/-- The zero-operand mnemonic that a token is, which it is only before white space or the end of the input (R121). -/
def zeroOperandAt (t : Lexeme) : Option Instr := if t.spaced then zeroOperand t.text else none

/-- The register form of a mnemonic if the next token is a register name, else its plain form (R122), which takes no operand
and so stands only before white space or the end of the input (R121, log 19). -/
def registerForm (withReg : Reg → Instr) (plain : Instr) (spaced : Bool) (ts : List Lexeme) :
    Except AsmError (AsmItem × List Lexeme) :=
  match ts.head?.bind fun t => regName t.text with
  | some r => .ok (.plain (withReg r), ts.tail)
  | none => if spaced then .ok (.plain plain, ts) else .error .unrecognizedCommand

/-- The operands of a register-capable or memory mnemonic, and the tokens after them. `spaced` is the mnemonic's own. -/
def parseOperands (n : OperandName) (spaced : Bool) (ts : List Lexeme) : Except AsmError (AsmItem × List Lexeme) :=
  match n with
  | .push =>
    match ts with
    | [] => .error .badOperand
    | t :: rest =>
      match regName t.text with
      | some r => .ok (.plain (.pushR r), rest)
      | none =>
        match textValue roundNearest t.text with
        | some v => .ok (.plain (.pushV v), rest)
        | none => .error .badLiteral
  | .pop => registerForm .popR .pop spaced ts
  | .input => registerForm .inputR .input spaced ts
  | .output => registerForm .outputR .output spaced ts
  | .write =>
    match ts with
    | t :: u :: rest =>
      match regOperand t.text, memOperand u.text with
      | .ok rs, .ok (.index ri) => .ok (.plain (.writeR rs ri), rest)
      | .ok rs, .ok (.address a) => .ok (.plain (.writeA rs a), rest)
      | .error e, _ => .error e
      | .ok _, .error e => .error e
    | [_] => .error .badOperand
    | [] => .error .badOperand
  | .read =>
    match ts with
    | t :: u :: rest =>
      match memOperand t.text, regOperand u.text with
      | .ok (.index ri), .ok rd => .ok (.plain (.readR ri rd), rest)
      | .ok (.address a), .ok rd => .ok (.plain (.readA a rd), rest)
      | .error e, _ => .error e
      | .ok _, .error e => .error e
    | [_] => .error .badOperand
    | [] => .error .badOperand

/-- A label definition: a token that ends in `:` (R124). A label spelled like a mnemonic is an error (D31). -/
def labelDefinition (t : Token) : Except AsmError AsmItem :=
  match t.getLast? with
  | some ':' =>
    if t.dropLast = [] then .error .unrecognizedCommand
    else if isMnemonic t.dropLast then .error .reservedLabel
    else .ok (.label t.dropLast)
  | _ => .error .unrecognizedCommand

/-- One instruction or label definition, from its first token and the tokens after it. -/
def parseItem (t : Lexeme) (ts : List Lexeme) : Except AsmError (AsmItem × List Lexeme) :=
  match zeroOperandAt t with
  | some i => .ok (.plain i, ts)
  | none =>
    match transferName t.text with
    | some k =>
      match ts with
      | [] => .error .missingTarget
      | u :: rest => (targetOperand u.text).map fun g => (.transfer k g, rest)
    | none =>
      match operandName t.text with
      | some n => parseOperands n t.spaced ts
      | none => (labelDefinition t.text).map fun l => (l, ts)

/-- The items of a token list: every item takes a token at least, so as many rounds as there are tokens do. -/
def parseItems : Nat → List Lexeme → Except AsmError (List AsmItem)
  | _, [] => .ok []
  | 0, _ :: _ => .error .unrecognizedCommand
  | fuel + 1, t :: ts =>
    match parseItem t ts with
    | .error e => .error e
    | .ok (item, rest) => (parseItems fuel rest).map (item :: ·)

/-! ## Labels (R124) -/

/-- How many bytes an item writes (R96, R127). -/
def AsmItem.length : AsmItem → Nat
  | .plain i => i.length
  | .transfer k _ => (k.instr 0).length
  | .label _ => 0

/-- The symbol table: each label with the output offset at its definition. -/
def symbols : List AsmItem → Nat → List (Token × Nat)
  | [], _ => []
  | .label name :: rest, off => (name, off) :: symbols rest off
  | .plain i :: rest, off => symbols rest (off + (AsmItem.plain i).length)
  | .transfer k t :: rest, off => symbols rest (off + (AsmItem.transfer k t).length)

/-- The instruction an item writes once every label has its address: a reference to a label holds the label's offset. -/
def resolve (table : List (Token × Nat)) : AsmItem → Except AsmError (List Instr)
  | .plain i => .ok [i]
  | .label _ => .ok []
  | .transfer k (.literal a) => .ok [k.instr a]
  | .transfer k (.label name) =>
    match table.lookup name with
    | some off => .ok [k.instr off]
    | none => .error .undefinedLabel

/-- The instructions of a list of items. -/
def resolveAll (table : List (Token × Nat)) : List AsmItem → Except AsmError (List Instr)
  | [] => .ok []
  | item :: rest =>
    match resolve table item, resolveAll table rest with
    | .ok is, .ok js => .ok (is ++ js)
    | .error e, _ => .error e
    | .ok _, .error e => .error e

/-- The instructions of a source text, in order (R120 to R126). -/
def assembleInstrs (src : List Char) : Except AsmError (List Instr) :=
  match parseItems (tokens src).length (tokens src) with
  | .error e => .error e
  | .ok items =>
    if ((symbols items 0).map Prod.fst).Nodup then
      if Config.maxCodeLen < (items.map AsmItem.length).sum then .error .programTooLong
      else resolveAll (symbols items 0) items
    else .error .duplicateLabel

/-- The bytes of a list of instructions, one after the other (R127). -/
def encodeAll (e : Encoding) (is : List Instr) : List Byte := is.flatMap (encode e)

/-- `translate`: the bytecode of a source text, or an error and no output (R126). -/
def assemble (e : Encoding) (src : List Char) : Except AsmError (List Byte) :=
  (assembleInstrs src).map (encodeAll e)

end Sys2Proof.Machine
end

