-- ==== Sys2Proof/Safety.lean ====
section
/-! DEFINITION. What the claims are stated in: the invariant of the machine's lifecycle (spec R24, R33 to R35, R48), what a launch
keeps (R26, R28), the words in which an instruction's effect is framed, and the real numbers that values stand for (R141). -/

namespace Sys2Proof

/-- The register an instruction writes, if any: the writers of R22. -/
def Instr.writes : Instr → Option Reg
  | .add => none
  | .sub => none
  | .mul => none
  | .div => none
  | .sqrt => none
  | .writeR _ _ => none
  | .writeA _ _ => none
  | .readR _ rd => some rd
  | .readA _ rd => some rd
  | .pushV _ => none
  | .pushR _ => none
  | .pop => none
  | .popR r => some r
  | .input => none
  | .inputR r => some r
  | .output => none
  | .outputR _ => none
  | .jmp _ => none
  | .jmpl _ => none
  | .jmpg _ => none
  | .call _ => none
  | .ret => none
  | .hlt => none

end Sys2Proof

namespace Sys2Proof.Machine

/-- Both stacks exist exactly outside OFF (R24, R26, R33). -/
abbrev State.StacksFollowMode (s : State) : Prop :=
  (s.opStack = none ↔ s.mode = .off) ∧ (s.callStack = none ↔ s.mode = .off)

/-- `fault_cause` is NONE exactly outside WAIT, and WAIT leaves its trace in the hidden bit (R34, R35). -/
abbrev State.CauseFollowsMode (s : State) : Prop :=
  (s.faultCause = .none ↔ s.mode ≠ .wait) ∧ (s.mode = .wait → s.faultedSinceReset = true)

/-- A launch runs only while ON (R33, R43, R48). -/
abbrev State.LaunchIsOn (s : State) : Prop := s.execActive = true → s.mode = .on

/-- A stack is within its capacity (R25, R27). -/
abbrev withinCap {α : Type} (cap : Option Nat) (st : Option (List α)) : Prop :=
  ∀ c ∈ cap, ∀ l ∈ st, l.length ≤ c

/-- The invariant of every run: lifecycle, memory in canonical form, the code no longer than it may be (R6), stacks within
their capacities, an injective encoding (R97). -/
abbrev State.Inv (s : State) : Prop :=
  s.StacksFollowMode ∧ s.CauseFollowsMode ∧ s.LaunchIsOn ∧ s.mem.wf ∧
    s.codeLen ≤ Config.maxCodeLen ∧
    withinCap s.params.opStackCap s.opStack ∧ withinCap s.params.callStackCap s.callStack ∧
    s.params.encoding.wf

/-- Inside a launch that started on an empty call-return stack, every return address and `ip` are at most `CODE_LEN`
(R26, R28). -/
abbrev State.NoStaleReturn (s : State) : Prop :=
  s.ip ≤ s.codeLen ∧ ∀ a ∈ s.callStack.getD [], a ≤ s.codeLen

/-- A launch is running and this instruction stands at `ip`: the decoder gives it. -/
abbrev State.AtInstr (s : State) (i : Instr) : Prop := s.execActive = true ∧ fetchDecode s = .ok i

end Sys2Proof.Machine

/-! ## The numbers that values stand for -/

namespace Sys2Proof.Claims

open Sys2Proof.Machine

/-- `v` is the binary64 that the non-zero real `x` rounds to, to nearest with ties to even: a finite value nearest to `x`, an
even pattern where two are nearest, a zero of the sign of `x` on underflow; from halfway between the greatest finite
value and 2^1024 on, an infinity of that sign (R141, R142). Values are compared in units of 2^-1074. -/
def RoundsTo (x : ℝ) (v : Value) : Prop :=
  (x < 0 → F64.sign v = true) ∧ (0 < x → F64.sign v = false) ∧
  ((|x| < 2 ^ 1024 - 2 ^ 970 ∧ F64.isFinite v = true ∧
      (∀ w : Value, F64.isFinite w = true →
        |(F64.scaled v : ℝ) - x * 2 ^ 1074| ≤ |(F64.scaled w : ℝ) - x * 2 ^ 1074|) ∧
      (∀ w : Value, F64.isFinite w = true → F64.scaled w ≠ F64.scaled v →
        |(F64.scaled v : ℝ) - x * 2 ^ 1074| = |(F64.scaled w : ℝ) - x * 2 ^ 1074| → v.toNat % 2 = 0)) ∨
    (2 ^ 1024 - 2 ^ 970 ≤ |x| ∧ F64.isInf v = true))

/-- `x` is the real number that a finite value stands for. -/
def Denotes (v : Value) (x : ℝ) : Prop := F64.isFinite v = true ∧ (F64.scaled v : ℝ) = x * 2 ^ 1074

/-- The IEEE sum of two values, `none` a NaN (R141). -/
def IsSum (a b : Value) (r : Option Value) : Prop :=
  ((F64.isNaN a = true ∨ F64.isNaN b = true) → r = none) ∧
  (F64.isInf a = true → F64.isInf b = true → r = if F64.sign a = F64.sign b then some a else none) ∧
  (F64.isInf a = true → F64.isFinite b = true → r = some a) ∧
  (F64.isFinite a = true → F64.isInf b = true → r = some b) ∧
  (∀ x y : ℝ, Denotes a x → Denotes b y →
    (x + y = 0 → r = some (F64.zero (F64.sign a && F64.sign b))) ∧
    (x + y ≠ 0 → ∃ v, r = some v ∧ RoundsTo (x + y) v))

/-- The IEEE difference `a - b`, `none` a NaN (R141). -/
def IsDifference (a b : Value) (r : Option Value) : Prop :=
  ((F64.isNaN a = true ∨ F64.isNaN b = true) → r = none) ∧
  (F64.isInf a = true → F64.isInf b = true → r = if F64.sign a = F64.sign b then none else some a) ∧
  (F64.isInf a = true → F64.isFinite b = true → r = some a) ∧
  (F64.isFinite a = true → F64.isInf b = true → r = some (F64.inf (!F64.sign b))) ∧
  (∀ x y : ℝ, Denotes a x → Denotes b y →
    (x - y = 0 → r = some (F64.zero (F64.sign a && !F64.sign b))) ∧
    (x - y ≠ 0 → ∃ v, r = some v ∧ RoundsTo (x - y) v))

/-- The IEEE product, `none` a NaN: the sign of a zero or infinite product is the exclusive-or of the operands' (R141, R147). -/
def IsProduct (a b : Value) (r : Option Value) : Prop :=
  ((F64.isNaN a = true ∨ F64.isNaN b = true) → r = none) ∧
  (F64.isInf a = true → F64.isZero b = true → r = none) ∧
  (F64.isZero a = true → F64.isInf b = true → r = none) ∧
  (F64.isInf a = true → F64.isNaN b = false → F64.isZero b = false →
    r = some (F64.inf (F64.sign a != F64.sign b))) ∧
  (F64.isNaN a = false → F64.isZero a = false → F64.isInf b = true →
    r = some (F64.inf (F64.sign a != F64.sign b))) ∧
  (∀ x y : ℝ, Denotes a x → Denotes b y →
    (x * y = 0 → r = some (F64.zero (F64.sign a != F64.sign b))) ∧
    (x * y ≠ 0 → ∃ v, r = some v ∧ RoundsTo (x * y) v))

/-- The IEEE quotient `a / b`, `none` a NaN (R141, R148). -/
def IsQuotient (a b : Value) (r : Option Value) : Prop :=
  ((F64.isNaN a = true ∨ F64.isNaN b = true) → r = none) ∧
  (F64.isInf a = true → F64.isInf b = true → r = none) ∧
  (F64.isInf a = true → F64.isFinite b = true → r = some (F64.inf (F64.sign a != F64.sign b))) ∧
  (F64.isFinite a = true → F64.isInf b = true → r = some (F64.zero (F64.sign a != F64.sign b))) ∧
  (∀ x y : ℝ, Denotes a x → Denotes b y → y ≠ 0 →
    (x = 0 → r = some (F64.zero (F64.sign a != F64.sign b))) ∧
    (x ≠ 0 → ∃ v, r = some v ∧ RoundsTo (x / y) v)) ∧
  (F64.isZero a = true → F64.isZero b = true → r = none) ∧
  (F64.isFinite a = true → F64.isZero a = false → F64.isZero b = true →
    r = some (F64.inf (F64.sign a != F64.sign b)))

/-- The IEEE square root of a value that is not below zero, `none` a NaN (R141, R149). -/
def IsRoot (a : Value) (r : Option Value) : Prop :=
  (F64.isNaN a = true → r = none) ∧
  (F64.isZero a = true → r = some a) ∧
  (F64.isInf a = true → F64.sign a = false → r = some a) ∧
  (∀ x : ℝ, Denotes a x → 0 < x → ∃ v, r = some v ∧ RoundsTo (Real.sqrt x) v)

end Sys2Proof.Claims
end

