-- ==== Sys2Proof/Certificates/Slice0/Obligations.lean ====
section
/-! DEFINITION. The statements for the provers, from the numbered rules of the spec, and the words they are written in. -/

/-! ## Words -/

namespace Sys2Proof.Claims

open Sys2Proof.Machine

/-- The answer of an instruction that raises a fault: the fault entry of R252, everything else as it was: the spec's own
decisions D12 and D16. The field that keeps the result `FAILURE(c)` is the model's (log 11). -/
def faulted (c : FaultCause) (s : State) : Result :=
  .next
    { s with
      mode := .wait
      faultCause := c
      faultedSinceReset := true
      execActive := false
      lastResult := some (.failure c) }

/-- The format, the length and the default opcode byte of an instruction (R96, R97; the byte is the spec's decision D1). -/
def Shape (op : Opcode) (fmt : Format) (len : Nat) (byte : Byte) : Prop :=
  op.format = fmt ∧ op.length = len ∧ Encoding.default.opcodeOf.byteOf op = byte

/-- Too few bytes after the opcode byte: `TRUNCATED_OPERAND` at decode. -/
def Truncates (op : Opcode) : Prop :=
  ∀ (e : Encoding) (b : Byte) (rest : List Byte), e.opcode? b = some op → rest.length + 1 < op.length →
    decodeBytes e (b :: rest) = .error .truncatedOperand

/-- All bytes there, but no register id at an offset: `BAD_REGISTER` at decode. -/
def ChecksRegister (op : Opcode) (off : Nat) : Prop :=
  ∀ (e : Encoding) (b : Byte) (rest : List Byte), e.opcode? b = some op → op.length ≤ rest.length + 1 →
    e.reg? (byteAt (b :: rest) off) = none → decodeBytes e (b :: rest) = .error .badRegister

/-- A target outside the code: `BAD_TARGET` at decode, the stack not looked at (`decode` reads none). The spec's own decision
D9. -/
def ChecksTarget (instr : Int → Instr) : Prop :=
  ∀ (e : Encoding) (code : List Byte) (ip : Nat) (t : Int), decodeBytes e (code.drop ip) = .ok (instr t) →
    (t < 0 ∨ (code.length : Int) ≤ t) → decodeAt e code ip = .error .badTarget

/-- The offsets of the register fields of a format (R92). -/
def registerFields : Format → List Nat
  | .f0 => []
  | .fr => [1]
  | .frr => [1, 2]
  | .fa => []
  | .fra => [1]
  | .far => [5]
  | .fd => []

/-- The signed integer of the four bytes of an address field, lowest offset first (R62, R95; D3); the order `big` is the
model's choice (log 27). -/
def addressOf (order : ByteOrder) (b0 b1 b2 b3 : Byte) : Int :=
  match order with
  | .little => (b3 ++ b2 ++ b1 ++ b0).toInt
  | .big => (b0 ++ b1 ++ b2 ++ b3).toInt

/-- The pattern of the eight bytes of a double field, lowest offset first (R62, R95; D3); the order `big` is the model's
choice (log 27). -/
def patternOf (order : ByteOrder) (d0 d1 d2 d3 d4 d5 d6 d7 : Byte) : Value :=
  match order with
  | .little => d7 ++ d6 ++ d5 ++ d4 ++ d3 ++ d2 ++ d1 ++ d0
  | .big => d0 ++ d1 ++ d2 ++ d3 ++ d4 ++ d5 ++ d6 ++ d7

/-- The opcode byte alone, whatever follows, decodes to the instruction (`F0`). -/
def DecodesAlone (i : Instr) : Prop :=
  ∀ (e : Encoding) (b : Byte) (rest : List Byte), e.opcode? b = some i.opcode →
    decodeBytes e (b :: rest) = .ok i

/-- The byte at offset 1 names the register (`FR`). -/
def DecodesRegister (op : Opcode) (instr : Reg → Instr) : Prop :=
  ∀ (e : Encoding) (b b1 : Byte) (r : Reg) (rest : List Byte), e.opcode? b = some op → e.reg? b1 = some r →
    decodeBytes e (b :: b1 :: rest) = .ok (instr r)

/-- The bytes at offsets 1 and 2 name the registers, in that order (`FRR`). -/
def DecodesRegisters (op : Opcode) (instr : Reg → Reg → Instr) : Prop :=
  ∀ (e : Encoding) (b b1 b2 : Byte) (r1 r2 : Reg) (rest : List Byte), e.opcode? b = some op →
    e.reg? b1 = some r1 → e.reg? b2 = some r2 → decodeBytes e (b :: b1 :: b2 :: rest) = .ok (instr r1 r2)

/-- The bytes at offsets 1 to 4 hold the address (`FA`). -/
def DecodesAddress (op : Opcode) (instr : Int → Instr) : Prop :=
  ∀ (e : Encoding) (b a0 a1 a2 a3 : Byte) (rest : List Byte), e.opcode? b = some op →
    decodeBytes e (b :: a0 :: a1 :: a2 :: a3 :: rest) = .ok (instr (addressOf e.byteOrder a0 a1 a2 a3))

/-- The byte at offset 1 names the register, the bytes at 2 to 5 hold the address (`FRA`). -/
def DecodesRegisterAddress (op : Opcode) (instr : Reg → Int → Instr) : Prop :=
  ∀ (e : Encoding) (b b1 a0 a1 a2 a3 : Byte) (r : Reg) (rest : List Byte), e.opcode? b = some op →
    e.reg? b1 = some r →
    decodeBytes e (b :: b1 :: a0 :: a1 :: a2 :: a3 :: rest) = .ok (instr r (addressOf e.byteOrder a0 a1 a2 a3))

/-- The bytes at offsets 1 to 4 hold the address, the byte at 5 names the register (`FAR`). -/
def DecodesAddressRegister (op : Opcode) (instr : Int → Reg → Instr) : Prop :=
  ∀ (e : Encoding) (b a0 a1 a2 a3 b5 : Byte) (r : Reg) (rest : List Byte), e.opcode? b = some op →
    e.reg? b5 = some r →
    decodeBytes e (b :: a0 :: a1 :: a2 :: a3 :: b5 :: rest) = .ok (instr (addressOf e.byteOrder a0 a1 a2 a3) r)

/-- The bytes at offsets 1 to 8 hold the pattern of the double (`FD`). -/
def DecodesDouble (op : Opcode) (instr : Value → Instr) : Prop :=
  ∀ (e : Encoding) (b d0 d1 d2 d3 d4 d5 d6 d7 : Byte) (rest : List Byte), e.opcode? b = some op →
    decodeBytes e (b :: d0 :: d1 :: d2 :: d3 :: d4 :: d5 :: d6 :: d7 :: rest) =
      .ok (instr (patternOf e.byteOrder d0 d1 d2 d3 d4 d5 d6 d7))

/-! ### Answers -/

/-- The instruction answers with `r` pushed on `rest` and `ip` past its one byte, all else unchanged. A NaN
result is some NaN, which one is not said (R143); `draws`, the model's own counter of such free patterns (log 8), may change
with it. -/
def Pushes (out : Result) (s : State) (rest : List Value) (r : Option Value) : Prop :=
  match r with
  | some v => out = .next { s with opStack := some (v :: rest), ip := s.ip + 1 }
  | none => ∃ v n, F64.isNaN v = true ∧
      out = .next { s with opStack := some (v :: rest), ip := s.ip + 1, draws := n }

/-- In this state, with the given entries on top, an arithmetic instruction leaves this value in their place. -/
def LeavesIn (s : State) (i : Instr) (entries : List Value) (v : Value) : Prop :=
  ∀ rest : List Value, s.opStack = some (entries ++ rest) →
    exec i s = .next { s with opStack := some (v :: rest), ip := s.ip + 1 }

/-- A one-operand or two-operand arithmetic instruction on the given entries leaves this value in their place. -/
def Leaves (i : Instr) (entries : List Value) (v : Value) : Prop := ∀ s : State, LeavesIn s i entries v

/-- On the given entries it leaves some NaN. -/
def LeavesNaN (i : Instr) (entries : List Value) : Prop :=
  ∀ (s : State) (rest : List Value), s.opStack = some (entries ++ rest) →
    Pushes (exec i s) s rest none

/-- In this state, with these entries on top, it faults, the stack as it was. -/
def FaultsIn (s : State) (i : Instr) (entries : List Value) (c : FaultCause) : Prop :=
  ∀ rest : List Value, s.opStack = some (entries ++ rest) → exec i s = faulted c s

/-- With these entries on the stack it faults, the stack as it was. -/
def FaultsOn (i : Instr) (entries : List Value) (c : FaultCause) : Prop := ∀ s : State, FaultsIn s i entries c

/-- With fewer than `k` entries it underflows, whatever they are, and nothing is popped (R25). -/
def Underflows (i : Instr) (k : Nat) : Prop :=
  ∀ (s : State) (st : List Value), s.opStack = some st → st.length < k → exec i s = faulted .stackUnderflow s

/-- A stack of this depth has room under a capacity. -/
def HasRoom (cap : Option Nat) (depth : Nat) : Prop := ∀ c, cap = some c → depth < c

end Sys2Proof.Claims

open Sys2Proof Sys2Proof.Machine Sys2Proof.Claims

/-! ## Encoding and decoding -/

/-- Decoding the encoding of any well-formed instruction, under any injective encoding configuration and whatever bytes
follow, gives it back, and its length is the decoder's (R96, R101). -/
def Obligations.DecodeInvertsEncode : Prop :=
  ∀ (e : Encoding) (i : Instr) (rest : List Byte), e.wf → i.wf = true →
    decodeBytes e (encode e i ++ rest) = .ok i ∧ (encode e i).length = i.opcode.length

/-- What the decoder accepts is the encoding of the instruction it answers, which is well formed: no two spellings, no bit
dropped (R92 to R95, R101). -/
def Obligations.DecodedBytesAreItsEncoding : Prop :=
  ∀ (e : Encoding) (bs : List Byte) (i : Instr), decodeBytes e bs = .ok i →
    i.wf = true ∧ i.length ≤ bs.length ∧ bs.take i.length = encode e i

/-- The table of R96: format and length of the 23 instructions, and the lengths of R92. -/
def Obligations.FormatsAndLengthsAreTheTables : Prop :=
  Opcode.all.map (fun op => (op.format, op.length)) =
    [(.f0, 1), (.f0, 1), (.f0, 1), (.f0, 1), (.f0, 1), (.frr, 3), (.fra, 6), (.frr, 3)] ++
    [(.far, 6), (.fd, 9), (.fr, 2), (.f0, 1), (.fr, 2), (.f0, 1), (.fr, 2), (.f0, 1)] ++
    [(.fr, 2), (.fa, 5), (.fa, 5), (.fa, 5), (.fa, 5), (.f0, 1), (.f0, 1)] ∧
  Opcode.all.Nodup ∧ ∀ op : Opcode, op ∈ Opcode.all

/-- R99: with the default numbering an opcode byte is illegal exactly when it is 0x00, 0x12, 0x13, 0x14 or 0x1B and above.
Rests on the spec's own decisions D1 and D5. -/
def Obligations.IllegalOpcodeBytes : Prop :=
  ∀ (b : Byte) (rest : List Byte),
    decodeBytes .default (b :: rest) = .error .badOpcode ↔
      b = 0x00 ∨ b = 0x12 ∨ b = 0x13 ∨ b = 0x14 ∨ 0x1B ≤ b

/-- R98, R94: under the default numbering a register field names a register exactly for the bytes 0x12, 0x13, 0x14, and any
other byte in a register field of an instruction that is all there makes `BAD_REGISTER`.
Rests on the spec's own decision D2. -/
def Obligations.RegisterFieldBytes : Prop :=
  (∀ (b : Byte) (r : Reg), Encoding.default.reg? b = some r ↔
    (b = 0x12 ∧ r = .rax) ∨ (b = 0x13 ∧ r = .rbx) ∨ (b = 0x14 ∧ r = .rcx)) ∧
  ChecksRegister .pushR 1 ∧ ChecksRegister .popR 1 ∧ ChecksRegister .inputR 1 ∧ ChecksRegister .outputR 1 ∧
  ChecksRegister .writeR 1 ∧ ChecksRegister .writeR 2 ∧ ChecksRegister .readR 1 ∧ ChecksRegister .readR 2 ∧
  ChecksRegister .writeA 1 ∧ ChecksRegister .readA 5

/-- R110: the decoder's five checks in their order, and the instruction it answers when all pass: the one of that opcode whose
encoding the bytes are. Rests on the spec's own decisions D8, D9 and D13. -/
def Obligations.DecodeChecksInOrder : Prop :=
  ∀ (e : Encoding) (code : List Byte) (ip : Nat),
    (code.length ≤ ip → decodeAt e code ip = .error .endOfStream) ∧
    ∀ (h : ip < code.length),
      (e.opcode? code[ip] = none → decodeAt e code ip = .error .badOpcode) ∧
      ∀ op, e.opcode? code[ip] = some op →
        (code.length < ip + op.length → decodeAt e code ip = .error .truncatedOperand) ∧
        (ip + op.length ≤ code.length →
          ((∃ off ∈ registerFields op.format, e.reg? (code.getD (ip + off) 0) = none) →
            decodeAt e code ip = .error .badRegister) ∧
          ((∀ off ∈ registerFields op.format, e.reg? (code.getD (ip + off) 0) ≠ none) →
            ∃ i : Instr, i.opcode = op ∧ i.wf = true ∧ encode e i = (code.drop ip).take op.length ∧
              (i.target?.isSome = true ↔ op ∈ [Opcode.jmp, .jmpl, .jmpg, .call]) ∧
              (∀ t, i.target? = some t → (t < 0 ∨ (code.length : Int) ≤ t) → decodeAt e code ip = .error .badTarget) ∧
              ((∀ t, i.target? = some t → 0 ≤ t ∧ t < code.length) → decodeAt e code ip = .ok i)))

/-- R112: decoding reads only the bytes of the instruction (and `CODE_LEN`). -/
def Obligations.DecodeReadsOnlyItsOwnBytes : Prop :=
  ∀ (e : Encoding) (code code' : List Byte) (ip : Nat) (i : Instr),
    decodeAt e code ip = .ok i → code'.length = code.length →
    (∀ k, k < i.length → code'[ip + k]? = code[ip + k]?) → decodeAt e code' ip = .ok i

/-- Bytes written out from R92 to R97 decode to the instructions they stand for, one and more of each family.
Rests on the spec's own decisions D1, D2 and D3. -/
def Obligations.SampleWordsDecode : Prop :=
  decodeBytes .default [0x01] = .ok .add ∧
  decodeBytes .default [0x0A, 0x00, 0x00, 0x00, 0x00, 0x00, 0x00, 0x08, 0x40] = .ok (.pushV 0x4008000000000000) ∧
  decodeBytes .default [0x0D, 0x13] = .ok (.popR .rbx) ∧
  decodeBytes .default [0x0F, 0x14] = .ok (.inputR .rcx) ∧
  decodeBytes .default [0x06, 0x12, 0x13] = .ok (.writeR .rax .rbx) ∧
  decodeBytes .default [0x07, 0x14, 0xFF, 0xFF, 0xFF, 0xFF] = .ok (.writeA .rcx (-1)) ∧
  decodeBytes .default [0x09, 0x0C, 0x00, 0x00, 0x00, 0x12] = .ok (.readA 12 .rax) ∧
  decodeBytes .default [0x15, 0x0A, 0x00, 0x00, 0x00] = .ok (.jmp 10) ∧
  decodeBytes .default [0x1A] = .ok .hlt

/-! ## The step -/

/-- A step of a running launch performs the instruction that the decoder gives at `ip` of the code, which is what `fetchDecode`
is; where a check of the decoder fails, the step is that fault's entry (R111); with no launch running it is the first
transaction in the host's queue, which leaves the queue, or nothing where there is none (the model's own choice, logs 4
and 5). -/
def Obligations.StepRunsTheDecodedInstruction : Prop :=
  ∀ s : State,
    (∀ i, s.execActive = true → decodeAt s.params.encoding s.code s.ip = .ok i → step s = exec i s) ∧
    (∀ c, s.execActive = true → decodeAt s.params.encoding s.code s.ip = .error c → step s = faulted c s) ∧
    fetchDecode s = decodeAt s.params.encoding s.code s.ip ∧
    (s.execActive = false → s.hostQueue = [] → step s = .next s) ∧
    (∀ r rest, s.execActive = false → s.hostQueue = r :: rest →
      step s = .next (hostStep r { s with hostQueue := rest }))

/-- R31: a fetch at or past the end of the code is `END_OF_STREAM`; an instruction that does not fit is
`TRUNCATED_OPERAND`; a transfer to a target outside the code is `BAD_TARGET`.
Rests on the spec's own decisions D8 and D9. -/
def Obligations.NoWrapAround : Prop :=
  ∀ s : State, s.execActive = true →
    (s.codeLen ≤ s.ip → step s = faulted .endOfStream s) ∧
    (∀ (h : s.ip < s.code.length) (op : Opcode), s.params.encoding.opcode? s.code[s.ip] = some op →
      s.codeLen < s.ip + op.length → step s = faulted .truncatedOperand s) ∧
    (∀ i t, decodeBytes s.params.encoding (s.code.drop s.ip) = .ok i → i.target? = some t →
      (t < 0 ∨ (s.codeLen : Int) ≤ t) → step s = faulted .badTarget s)

/-- R253: a step that ends in WAIT changes nothing but what fault entry changes and the console tokens and answers the
instruction used up: a token only with `IO_ERROR`. Rests on the spec's own decision D12.
The result field and the list of
answers are the model's (logs 11, 10). -/
def Obligations.FaultsArePrecise : Prop :=
  ∀ s t : State, s.execActive = true → s.mode = .on → step s = .next t → t.mode = .wait →
    t.faultCause ≠ .none ∧
    t = { s with
          mode := .wait
          faultCause := t.faultCause
          faultedSinceReset := true
          execActive := false
          lastResult := some (.failure t.faultCause)
          inTokens := t.inTokens
          outAnswers := t.outAnswers } ∧
    (t.inTokens = s.inTokens ∨ (t.faultCause = .ioError ∧ t.inTokens = s.inTokens.tail)) ∧
    (t.outAnswers = s.outAnswers ∨ (t.faultCause = .ioError ∧ s.outAnswers = false :: t.outAnswers))

/-- R36, R262: while a launch runs, `mode` changes only by `hlt`, to OFF, and by a fault, to WAIT; the launch ends exactly
then (R111, R43). The result field is the model's (log 11). -/
def Obligations.ModeChangesOnlyByHaltOrFault : Prop :=
  ∀ s t : State, s.execActive = true → s.mode = .on → step s = .next t →
    (t.mode = .on ∧ t.execActive = true ∧ t.faultCause = s.faultCause) ∨
    (t.mode = .off ∧ t.execActive = false ∧ fetchDecode s = .ok .hlt ∧ t.lastResult = some .success) ∨
    (t.mode = .wait ∧ t.execActive = false ∧ t.faultCause ≠ .none ∧ t.lastResult = some (.failure t.faultCause))

/-- R250: the codes of the fault causes, and R33: the codes of the modes. Rests on the spec's own decision D14. -/
def Obligations.CodesAreTheTables : Prop :=
  [FaultCause.none, .stackUnderflow, .divNearZero, .sqrtNegative, .badRegister, .badOpcode, .truncatedOperand,
    .retEmpty, .memOutOfRange, .endOfStream, .badTarget, .badIndex, .ioError, .resource].map causeCode =
    List.range 14 ∧
  [Mode.off, .on, .wait].map Mode.code = [0, 1, 2] ∧
  ∀ c d : FaultCause, causeCode c = causeCode d → c = d

/-! ## Host transactions -/

/-- R41: `power_on` from each mode, and that it is not accepted in a launch. That `ip`, unspecified after `power_on` from OFF
(R50), keeps its last value is the model's choice (log 3).
Rests on the spec's own decisions D16 and D17. -/
def Obligations.PowerOnByMode : Prop :=
  ∀ s : State,
    (s.execActive = true → s.powerOn = s) ∧
    (s.execActive = false → s.mode = .off → s.powerOn =
      { s with mode := .on, opStack := some [], callStack := some [], faultCause := .none, faultedSinceReset := false }) ∧
    (s.execActive = false → s.mode = .on → s.powerOn = s) ∧
    (s.execActive = false → s.mode = .wait → s.powerOn = { s with mode := .on, faultCause := .none })

/-- R42: `reset` from any mode, memory unchanged. That `ip`, unspecified after `reset` (R50), keeps its last value is the
model's choice (log 3).
Rests on the spec's own decision D16. -/
def Obligations.ResetClearsStacksAndRegisters : Prop :=
  (∀ s : State, s.execActive = false → s.doReset =
    { s with
      mode := .on
      opStack := some []
      callStack := some []
      regs := { rax := 0, rbx := 0, rcx := 0 }
      faultCause := .none
      faultedSinceReset := false }) ∧
  (∀ s : State, s.execActive = true → s.doReset = s)

/-- R43 (a), (b), R45, R48: `execute` is not accepted in a launch; when a launch is refused and
that nothing of the CPU changes then; else where it starts. That a code longer than `CODE_LEN` may
be is refused too is the model's choice (log 12).
Rests on the spec's own decisions D16, D25, D27 and D30. The result field is the model's (log 11). -/
def Obligations.ExecuteStartsOrRefuses : Prop :=
  ∀ (s : State) (code : List Byte),
    (s.execActive = true → s.execute code = s) ∧
    (s.execActive = false →
      (s.mode ≠ .on ∨ (s.params.restartPolicy = .requireReset ∧ s.faultedSinceReset = true) ∨
        2 ^ 31 - 1 < code.length) →
      s.execute code = { s with lastResult := some .refused }) ∧
    (s.execActive = false → s.mode = .on → (s.params.restartPolicy = .staleResume ∨ s.faultedSinceReset = false) →
      code.length ≤ 2 ^ 31 - 1 →
      s.execute code = { s with code := code, ip := 0, execActive := true, lastResult := none })

/-- R23, R45, R48: while a launch runs no transaction of the host is accepted; outside a launch the host writes one register,
and no other changes, and its other transactions do what `powerOn`, `doReset`, `execute` and `createBank` are stated to do; a
new memory subsystem has no banks (log 13). Rests on the spec's own decisions D17 and D30.
That `ip` keeps its value at a register write is the model's choice (log 3). -/
def Obligations.HostActsOnlyBetweenLaunches : Prop :=
  (∀ (q : HostRequest) (s : State), s.execActive = true → hostStep q s = s) ∧
  (∀ (r r' : Reg) (v : Value) (s : State), s.execActive = false →
    (hostStep (.setReg r v) s).reg r = v ∧ (r' ≠ r → (hostStep (.setReg r v) s).reg r' = s.reg r') ∧
    hostStep (.setReg r v) s = { s with regs := (hostStep (.setReg r v) s).regs }) ∧
  (∀ s : State, s.execActive = false →
    hostStep .powerOn s = s.powerOn ∧ hostStep .reset s = s.doReset ∧
    (∀ code, hostStep (.execute code) s = s.execute code) ∧
    hostStep .newMemory s = { s with mem := { banks := [] } } ∧
    ∀ size fill init allocated,
      (s.mem.createBank size fill init allocated = none → hostStep (.createBank size fill init allocated) s = s) ∧
      (∀ m, s.mem.createBank size fill init allocated = some m →
        hostStep (.createBank size fill init allocated) s = { s with mem := m }))

/-- R64, R66: a bank of size 0 or less, or whose allocation fails, is not created; else the address space grows by the size,
the new elements hold what they were given, and every element there before reads as it did. Rests on the spec's own
decision D18. That the host's request says whether the allocation succeeds, so that every size above 0 is created where
it does, and the form of the contents are the model's choices (log 13). -/
def Obligations.BankCreation : Prop :=
  ∀ (m : Memory) (size : Int) (fill : Value) (init : List Value),
    (∀ allocated, size ≤ 0 → m.createBank size fill init allocated = none) ∧
    (m.createBank size fill init false = none) ∧
    (0 < size → ∃ m', m.createBank size fill init true = some m' ∧
      (m'.total : Int) = m.total + size ∧
      (∀ a : Int, a < m.total → m'.read a = m.read a) ∧
      (∀ k : Nat, (k : Int) < size → m'.read (m.total + k) = some (init.getD k fill)))

/-! ## Invariants and whole-machine rules -/

/-- The model's reset state is the constructed CPU after `reset` (log 2), its `ip` 0 in both (log 3), and both satisfy the
invariant. -/
def Obligations.ResetSatisfiesTheInvariant : Prop :=
  State.reset.Inv ∧ State.constructed.Inv ∧ State.constructed.doReset = State.reset

/-- Every step keeps the invariant: lifecycle, canonical memory, capacities, code length.
That the host's transactions, and waiting for one, are steps is the model's choice (logs 4, 5). -/
def Obligations.EveryStepKeepsTheInvariant : Prop :=
  ∀ s t : State, s.Inv → step s = .next t → t.Inv

/-- A state that satisfies the invariant always has a next state: the machine never stops by a fault or a refusal of the
model.
That an idle CPU with no request, and a read the host never answers (U21), have a next state, the same one, is the model's
choice (logs 5, 6). -/
def Obligations.InvariantStatesNeverStop : Prop :=
  ∀ s : State, s.Inv → ∃ t, step s = .next t

/-- R26, R28: in a launch whose return addresses and `ip` are at most `CODE_LEN`, they stay so; and a launch that starts on
an empty call-return stack is one. -/
def Obligations.ReturnAddressesStayInTheCode : Prop :=
  (∀ s t : State, s.execActive = true → s.NoStaleReturn → step s = .next t → t.NoStaleReturn) ∧
  (∀ (s : State) (code : List Byte), s.callStack = some [] → (s.launch code).NoStaleReturn)

/-- R22: while a launch runs a step changes no register but the one its instruction names as a destination. -/
def Obligations.OnlyTheNamedRegisterIsWritten : Prop :=
  ∀ (s t : State) (i : Instr) (r : Reg), s.AtInstr i → step s = .next t → i.writes ≠ some r → t.reg r = s.reg r

/-- R36, R45, R63: no instruction changes the code, the parameters or the host's queue; memory changes only by `write`, and
its banks keep their number and sizes (R64). The queue is the model's (log 4). -/
def Obligations.LaunchKeepsCodeAndMemoryLayout : Prop :=
  ∀ s t : State, s.execActive = true → step s = .next t →
    t.code = s.code ∧ t.params = s.params ∧ t.hostQueue = s.hostQueue ∧
    t.mem.banks.map Bank.size = s.mem.banks.map Bank.size ∧
    (t.mem ≠ s.mem → ∃ rs, (∃ ri, fetchDecode s = .ok (.writeR rs ri)) ∨ (∃ a, fetchDecode s = .ok (.writeA rs a)))

/-- R44, R187: a step reads at most one console token and writes at most one value, in order, and only `in` reads and only
`out` writes. The lists are the model's form of the console (logs 6, 10). -/
def Obligations.ConsoleMovesOneValueAtATime : Prop :=
  ∀ s t : State, s.execActive = true → step s = .next t →
    (t.inTokens = s.inTokens ∨
      (t.inTokens = s.inTokens.tail ∧ (fetchDecode s = .ok .input ∨ ∃ r, fetchDecode s = .ok (.inputR r)))) ∧
    (t.outValues = s.outValues ∨
      ∃ v, t.outValues = s.outValues ++ [v] ∧ (fetchDecode s = .ok .output ∨ ∃ r, fetchDecode s = .ok (.outputR r)))

/-! ## Arithmetic -/

/-- R145: `add`, the sum rounded as R141 says, a NaN of any pattern (R143, log 8).
Rests on the spec's own decisions D1 and D20. -/
def Obligations.AddPushesTheRoundedSum : Prop :=
  Shape .add .f0 1 0x01 ∧ DecodesAlone .add ∧ Underflows .add 2 ∧
  (∀ (s : State) (a b : Value) (rest : List Value), s.opStack = some (a :: b :: rest) →
    ∃ r, IsSum a b r ∧ Pushes (exec .add s) s rest r) ∧
  -- +inf + -inf, +0 + -0, -0 + -0, 1e308 + 1e308, 3 + 4
  LeavesNaN .add [0xFFF0000000000000, 0x7FF0000000000000] ∧
  Leaves .add [0x8000000000000000, 0x0000000000000000] 0x0000000000000000 ∧
  Leaves .add [0x8000000000000000, 0x8000000000000000] 0x8000000000000000 ∧
  Leaves .add [0x7FE1CCF385EBC8A0, 0x7FE1CCF385EBC8A0] 0x7FF0000000000000 ∧
  Leaves .add [0x4010000000000000, 0x4008000000000000] 0x401C000000000000

/-- R146: `sub`, the entry under the top minus the top, rounded as R141 says, a NaN of any pattern (R143, log 8).
Rests on the spec's own decisions D1 and D20. -/
def Obligations.SubPushesTheRoundedDifference : Prop :=
  Shape .sub .f0 1 0x02 ∧ DecodesAlone .sub ∧ Underflows .sub 2 ∧
  (∀ (s : State) (a b : Value) (rest : List Value), s.opStack = some (a :: b :: rest) →
    ∃ r, IsDifference b a r ∧ Pushes (exec .sub s) s rest r) ∧
  -- x - x for finite x, inf - inf, -0 - +0, 5 - 3, 3 - 5
  (∀ x : Value, F64.isFinite x = true → Leaves .sub [x, x] 0x0000000000000000) ∧
  LeavesNaN .sub [0x7FF0000000000000, 0x7FF0000000000000] ∧
  Leaves .sub [0x0000000000000000, 0x8000000000000000] 0x8000000000000000 ∧
  Leaves .sub [0x4008000000000000, 0x4014000000000000] 0x4000000000000000 ∧
  Leaves .sub [0x4014000000000000, 0x4008000000000000] 0xC000000000000000

/-- R147: `mul`, the product rounded as R141 says, a NaN of any pattern (R143, log 8).
Rests on the spec's own decisions D1 and D20. -/
def Obligations.MulPushesTheRoundedProduct : Prop :=
  Shape .mul .f0 1 0x03 ∧ DecodesAlone .mul ∧ Underflows .mul 2 ∧
  (∀ (s : State) (a b : Value) (rest : List Value), s.opStack = some (a :: b :: rest) →
    ∃ r, IsProduct a b r ∧ Pushes (exec .mul s) s rest r) ∧
  -- 0 * inf, -0 * 5, 1e200 * 1e200, 1e-200 * 1e-200, 2.5 * 4
  LeavesNaN .mul [0x7FF0000000000000, 0x0000000000000000] ∧
  Leaves .mul [0x4014000000000000, 0x8000000000000000] 0x8000000000000000 ∧
  Leaves .mul [0x6974E718D7D7625A, 0x6974E718D7D7625A] 0x7FF0000000000000 ∧
  Leaves .mul [0x16687E92154EF7AC, 0x16687E92154EF7AC] 0x0000000000000000 ∧
  Leaves .mul [0x4010000000000000, 0x4004000000000000] 0x4024000000000000

/-- R148: `div`, the entry under the top divided by the top; a divisor below `EPS` faults, for every value of that parameter
(log 1), and the corner cases of the rule with its default.
Rests on the spec's own decisions D12, D20 and D21. -/
def Obligations.DivPushesTheRoundedQuotient : Prop :=
  Shape .div .f0 1 0x04 ∧ DecodesAlone .div ∧ Underflows .div 2 ∧
  (∀ (s : State) (a b : Value) (rest : List Value), s.opStack = some (a :: b :: rest) →
    (nearZero s.params.eps a = true → exec .div s = faulted .divNearZero s) ∧
    (nearZero s.params.eps a = false → ∃ r, IsQuotient b a r ∧ Pushes (exec .div s) s rest r)) ∧
  -- NaN divisor, finite / +inf, inf / inf
  (∀ a b : Value, F64.isNaN a = true → LeavesNaN .div [a, b]) ∧
  (∀ b : Value, F64.isFinite b = true → Leaves .div [0x7FF0000000000000, b] (F64.zero (F64.sign b))) ∧
  LeavesNaN .div [0x7FF0000000000000, 0x7FF0000000000000] ∧
  ∀ s : State, s.params.eps = epsilon →
    -- divisors +0, -0, 1e-7, -1e-7
    (∀ b : Value,
      FaultsIn s .div [0x0000000000000000, b] .divNearZero ∧ FaultsIn s .div [0x8000000000000000, b] .divNearZero ∧
      FaultsIn s .div [0x3E7AD7F29ABCAF48, b] .divNearZero ∧ FaultsIn s .div [0xBE7AD7F29ABCAF48, b] .divNearZero) ∧
    -- 1 / EPS, 1e308 / 1e-5, 0 / 3, 6 / 3
    LeavesIn s .div [0x3EB0C6F7A0B5ED8D, 0x3FF0000000000000] 0x412E848000000000 ∧
    LeavesIn s .div [0x3EE4F8B588E368F1, 0x7FE1CCF385EBC8A0] 0x7FF0000000000000 ∧
    LeavesIn s .div [0x4008000000000000, 0x0000000000000000] 0x0000000000000000 ∧
    LeavesIn s .div [0x4008000000000000, 0x4018000000000000] 0x4000000000000000

/-- R149: `sqrt`, the root in the place of the top; a top below zero faults, which is the ordered comparison of R144.
Rests on the spec's own decisions D12 and D20. -/
def Obligations.SqrtReplacesTheTop : Prop :=
  Shape .sqrt .f0 1 0x05 ∧ DecodesAlone .sqrt ∧ Underflows .sqrt 1 ∧
  -- `A < 0`
  (∀ (a : Value) (x : ℝ), Denotes a x → (negative a = true ↔ x < 0)) ∧
  (∀ a : Value, F64.isNaN a = true → negative a = false) ∧
  (∀ a : Value, F64.isInf a = true → (negative a = true ↔ F64.sign a = true)) ∧
  (∀ a : Value, negative a = true → FaultsOn .sqrt [a] .sqrtNegative) ∧
  (∀ (s : State) (a : Value) (rest : List Value), s.opStack = some (a :: rest) → negative a = false →
    ∃ r, IsRoot a r ∧ Pushes (exec .sqrt s) s rest r) ∧
  -- -0, NaN, -inf, +inf, -1e-300, 4, -4
  Leaves .sqrt [0x8000000000000000] 0x8000000000000000 ∧
  (∀ a : Value, F64.isNaN a = true → LeavesNaN .sqrt [a]) ∧
  FaultsOn .sqrt [0xFFF0000000000000] .sqrtNegative ∧
  Leaves .sqrt [0x7FF0000000000000] 0x7FF0000000000000 ∧
  FaultsOn .sqrt [0x81A56E1FC2F8F359] .sqrtNegative ∧
  Leaves .sqrt [0x4010000000000000] 0x4000000000000000 ∧
  FaultsOn .sqrt [0xC010000000000000] .sqrtNegative

/-- R144: the comparisons of values and the near-zero test, for every value of the parameter `EPS` (log 1), and its default.
Rests on the spec's own decisions D21 and D22. -/
def Obligations.OrderedComparisons : Prop :=
  (∀ a b : Value, F64.gt a b = F64.lt b a) ∧
  (∀ a b : Value, F64.isNaN a = true ∨ F64.isNaN b = true → F64.lt a b = false) ∧
  (∀ (a b : Value) (x y : ℝ), Denotes a x → Denotes b y → (F64.lt a b = true ↔ x < y)) ∧
  (∀ a b : Value, F64.isNaN b = false → F64.isInf a = true → F64.sign a = true →
    (F64.lt a b = true ↔ ¬(F64.isInf b = true ∧ F64.sign b = true)) ∧ F64.lt b a = false) ∧
  (∀ a b : Value, F64.isNaN b = false → F64.isInf a = true → F64.sign a = false →
    (F64.lt b a = true ↔ ¬(F64.isInf b = true ∧ F64.sign b = false)) ∧ F64.lt a b = false) ∧
  (∀ (eps a : Value) (e x : ℝ), Denotes eps e → Denotes a x → (nearZero eps a = true ↔ |x| < e)) ∧
  (∀ eps a : Value, F64.isFinite a = false → nearZero eps a = false) ∧
  (∀ a : Value, F64.abs a = a &&& 0x7FFFFFFFFFFFFFFF) ∧
  epsilon = 0x3EB0C6F7A0B5ED8D ∧ RoundsTo (1 / 10 ^ 6) epsilon ∧
  (∀ eps : ℝ, Denotes epsilon eps → |eps - 9.99999999999999954748 / 10 ^ 7| < 1 / 10 ^ 27)

/-! ## Stack and register transfer -/

/-- R160: `push <double>`. Rests on the spec's own decisions D3 and D19.
The byte order `big` of the double is the model's choice (log 27). That a depth above the capacity is full too is
the model's reading (log 17). -/
def Obligations.PushImmediate : Prop :=
  Shape .pushV .fd 9 0x0A ∧ DecodesDouble .pushV .pushV ∧ Truncates .pushV ∧
  (∀ (s : State) (d : Value) (st : List Value), s.opStack = some st →
    (HasRoom s.params.opStackCap st.length →
      exec (.pushV d) s = .next { s with opStack := some (d :: st), ip := s.ip + 9 }) ∧
    (∀ c, s.params.opStackCap = some c → c ≤ st.length → exec (.pushV d) s = faulted .resource s)) ∧
  decodeBytes .default [0x0A, 0x00, 0x00, 0x00, 0x00, 0x00, 0x00, 0x08, 0x40] = .ok (.pushV 0x4008000000000000)

/-- R161: `push <r>`.
Rests on the spec's own decisions D1, D2 and D19. That a depth above the capacity is full too is the model's reading
(log 17). -/
def Obligations.PushRegister : Prop :=
  Shape .pushR .fr 2 0x0B ∧ DecodesRegister .pushR .pushR ∧ Truncates .pushR ∧ ChecksRegister .pushR 1 ∧
  (∀ (s : State) (r : Reg) (st : List Value), s.opStack = some st →
    (HasRoom s.params.opStackCap st.length →
      exec (.pushR r) s = .next { s with opStack := some (s.reg r :: st), ip := s.ip + 2 }) ∧
    (∀ c, s.params.opStackCap = some c → c ≤ st.length → exec (.pushR r) s = faulted .resource s)) ∧
  decodeBytes .default [0x0B, 0x13] = .ok (.pushR .rbx)

/-- R162: `pop` discards the top. Rests on the spec's own decision D6. -/
def Obligations.PopDiscards : Prop :=
  Shape .pop .f0 1 0x0C ∧ DecodesAlone .pop ∧ Underflows .pop 1 ∧
  ∀ (s : State) (v : Value) (st : List Value), s.opStack = some (v :: st) →
    exec .pop s = .next { s with opStack := some st, ip := s.ip + 1 }

/-- R163: `pop <r>`: the register gets the popped pattern, no other register changes.
Rests on the spec's own decisions D1, D2, D3, D12 and D16. The result field of the fault is the model's (log 11). -/
def Obligations.PopToRegister : Prop :=
  Shape .popR .fr 2 0x0D ∧ DecodesRegister .popR .popR ∧ Truncates .popR ∧ ChecksRegister .popR 1 ∧
  (∀ r, Underflows (.popR r) 1) ∧
  (∀ (s : State) (r : Reg) (v : Value) (st : List Value), s.opStack = some (v :: st) →
    ∃ x : Regs, x.get r = v ∧ (∀ r', r' ≠ r → x.get r' = s.reg r') ∧
      exec (.popR r) s = .next { s with opStack := some st, regs := x, ip := s.ip + 2 }) ∧
  (∀ s : State, s.opStack = some [0x4008000000000000] →
    exec (.popR .rax) s = .next { s with
      opStack := some []
      regs := { s.regs with rax := 0x4008000000000000 }
      ip := s.ip + 2 }) ∧
  decodeBytes .default [0x0A, 0x00, 0x00, 0x00, 0x00, 0x00, 0x00, 0x08, 0x40, 0x0D, 0x12] = .ok (.pushV 0x4008000000000000) ∧
  decodeBytes .default [0x0D, 0x12] = .ok (.popR .rax)

/-! ## Console -/

/-- R183: `in`: the capacity is checked before any input is read, then a token is read and pushed, or `IO_ERROR`.
Rests on the spec's own decisions D19 and D23. The list of tokens is the model's (log 6).
That a depth above the capacity is full too is the model's reading (log 17). -/
def Obligations.InPushesTheToken : Prop :=
  Shape .input .f0 1 0x0E ∧ DecodesAlone .input ∧
  (∀ (s : State) (st : List Value), s.opStack = some st →
    (∀ c, s.params.opStackCap = some c → c ≤ st.length → exec .input s = faulted .resource s) ∧
    (HasRoom s.params.opStackCap st.length →
      (∀ token rest v, s.inTokens = token :: rest → convertToken s.params.inputConvert token = some v →
        exec .input s = .next { s with inTokens := rest, opStack := some (v :: st), ip := s.ip + 1 }) ∧
      (∀ token rest, s.inTokens = token :: rest → convertToken s.params.inputConvert token = none →
        exec .input s = faulted .ioError { s with inTokens := rest }) ∧
      (s.inTokens = [] → s.inClosed = true → exec .input s = faulted .ioError s))) ∧
  convertToken .nearest ['2', '.', '5'] = some 0x4004000000000000 ∧
  convertToken .nearest ['-', '0'] = some 0x8000000000000000

/-- R184: `in <r>`, which touches no stack. Rests on the spec's own decision D23.
The list of tokens is the model's (log 6). -/
def Obligations.InRegisterTakesTheToken : Prop :=
  Shape .inputR .fr 2 0x0F ∧ DecodesRegister .inputR .inputR ∧ Truncates .inputR ∧ ChecksRegister .inputR 1 ∧
  (∀ (s : State) (r : Reg),
    (∀ token rest v, s.inTokens = token :: rest → convertToken s.params.inputConvert token = some v →
      ∃ x : Regs, x.get r = v ∧ (∀ r', r' ≠ r → x.get r' = s.reg r') ∧
        exec (.inputR r) s = .next { s with inTokens := rest, regs := x, ip := s.ip + 2 }) ∧
    (∀ token rest, s.inTokens = token :: rest → convertToken s.params.inputConvert token = none →
      exec (.inputR r) s = faulted .ioError { s with inTokens := rest }) ∧
    (s.inTokens = [] → s.inClosed = true → exec (.inputR r) s = faulted .ioError s)) ∧
  decodeBytes .default [0x0F, 0x14] = .ok (.inputR .rcx) ∧
  convertToken .nearest ['4'] = some 0x4010000000000000

/-- R180, R288 (U21): a console read that the host never answers blocks: the step leaves the machine as it is. That a
blocked read is a step to the same state is the model's choice (log 6). -/
def Obligations.UnansweredReadBlocks : Prop :=
  ∀ (s : State) (st : List Value), s.inTokens = [] → s.inClosed = false →
    (∀ r, exec (.inputR r) s = .next s) ∧
    (s.opStack = some st → HasRoom s.params.opStackCap st.length → exec .input s = .next s)

/-- R185: `out`: the top is written, and popped where `OUT_POPS` says so; a write failure is `IO_ERROR`, the stack unchanged.
The list of the host's answers, success where none is listed, is the model's (log 10).
Rests on the spec's own decisions D7, D23 and D24. -/
def Obligations.OutWritesTheTop : Prop :=
  Shape .output .f0 1 0x10 ∧ DecodesAlone .output ∧ Underflows .output 1 ∧
  (∀ (s : State) (v : Value) (st : List Value), s.opStack = some (v :: st) →
    (s.outAnswers.head? ≠ some false →
      exec .output s = .next { s with
        outAnswers := s.outAnswers.tail
        outValues := s.outValues ++ [v]
        opStack := some (if s.params.outPops = true then st else v :: st)
        ip := s.ip + 1 }) ∧
    (s.outAnswers.head? = some false →
      exec .output s = faulted .ioError { s with outAnswers := s.outAnswers.tail })) ∧
  outputLine 0x401C000000000000 = ['7', '.', '0', '0', '0', '0', '0', '0', '\n']

/-- R186: `out <r>`; the register and the stack stay. Rests on the spec's own decisions D23 and D24.
The list of answers is the model's (log 10). -/
def Obligations.OutRegisterWritesIt : Prop :=
  Shape .outputR .fr 2 0x11 ∧ DecodesRegister .outputR .outputR ∧ Truncates .outputR ∧ ChecksRegister .outputR 1 ∧
  (∀ (s : State) (r : Reg),
    (s.outAnswers.head? ≠ some false →
      exec (.outputR r) s = .next { s with
        outAnswers := s.outAnswers.tail
        outValues := s.outValues ++ [s.reg r]
        ip := s.ip + 2 }) ∧
    (s.outAnswers.head? = some false →
      exec (.outputR r) s = faulted .ioError { s with outAnswers := s.outAnswers.tail })) ∧
  decodeBytes .default [0x11, 0x12] = .ok (.outputR .rax) ∧
  outputLine 0xBFF8000000000000 = ['-', '1', '.', '5', '0', '0', '0', '0', '0', '\n']

/-- R123: a decimal literal is converted to the nearest binary64, ties to even, whatever its exponent.
Rests on the spec's own decision D31. That the whole text is the literal is the model's reading (log 14). -/
def Obligations.DecimalLiteralsRoundToNearest : Prop :=
  ∀ (text : List Char) (neg : Bool) (num digits : Nat) (exp : Int),
    parseLiteral text = some (.dec neg num digits exp) →
    (num = 0 → textValue roundNearest text = some (F64.zero neg)) ∧
    (num ≠ 0 → ∃ v, textValue roundNearest text = some v ∧
      RoundsTo ((if neg then -1 else 1) * num * (10 : ℝ) ^ exp) v)

/-! ## Memory -/

/-- R67, R65: translation gives the unique bank whose prefix-sum range holds the address, and the offset in it, exactly for the
addresses in `[0, TOTAL)`. -/
def Obligations.TranslationPicksTheBank : Prop :=
  ∀ (m : Memory) (a : Int), m.wf →
    (∀ j o, m.translate a = some (j, o) ↔
      j < m.banks.length ∧ a = ((m.banks.take j).map Bank.size).sum + o ∧
        a < ((m.banks.take (j + 1)).map Bank.size).sum) ∧
    (m.translate a = none ↔ a < 0 ∨ (m.total : Int) ≤ a)

/-- R68, R70, R71, R78: an access out of range is an error; in range, a write changes the one element and a read gives what the
last write left. No delay is modelled (log 20). -/
def Obligations.ReadAfterWrite : Prop :=
  ∀ (m : Memory) (a : Int) (v : Value), m.wf →
    (m.read a = none ↔ a < 0 ∨ (m.total : Int) ≤ a) ∧
    (m.write a v = none ↔ a < 0 ∨ (m.total : Int) ≤ a) ∧
    (∀ m', m.write a v = some m' →
      m'.read a = some v ∧ (∀ a', a' ≠ a → m'.read a' = m.read a') ∧ m'.total = m.total)

/-- R69: the source's example, banks of 10 and 5. -/
def Obligations.BankExample : Prop :=
  ∀ b0 b1 : Bank, b0.size = 10 → b1.size = 5 →
    (Memory.mk [b0, b1]).total = 15 ∧ (Memory.mk [b0, b1]).translate 12 = some (1, 2) ∧
    ∀ a : Int, 15 ≤ a → (Memory.mk [b0, b1]).translate a = none

/-- R201: the address a register's double names, under both conversions, the fault where it names none, and the range check
that follows. Rests on the spec's own decision D10. -/
def Obligations.IndexConversions : Prop :=
  (∀ (conv : IndexConversion) (v : Value), F64.isFinite v = false → idx conv v = none) ∧
  (∀ (v : Value) (x : ℝ), Denotes v x →
    (∀ n : Int, idx .strict v = some n ↔ x = n) ∧
    (idx .strict v = none ↔ ¬∃ n : Int, x = n) ∧
    (∃ n : Int, idx .truncate v = some n ∧ |(n : ℝ)| ≤ |x| ∧ |x| < |(n : ℝ)| + 1 ∧ 0 ≤ (n : ℝ) * x)) ∧
  (∀ (s : State) (rs ri rd : Reg),
    (idx s.params.indexConversion (s.reg ri) = none →
      exec (.writeR rs ri) s = faulted .badIndex s ∧ exec (.readR ri rd) s = faulted .badIndex s) ∧
    (∀ a, idx s.params.indexConversion (s.reg ri) = some a → (a < 0 ∨ (s.mem.total : Int) ≤ a) →
      exec (.writeR rs ri) s = faulted .memOutOfRange s ∧ exec (.readR ri rd) s = faulted .memOutOfRange s)) ∧
  idx .strict 0x8000000000000000 = some 0 ∧ idx .strict 0x4008000000000000 = some 3 ∧
  idx .strict 0xBFF0000000000000 = some (-1) ∧
  idx .truncate 0x4007333333333333 = some 2 ∧ idx .truncate 0xBFE0000000000000 = some 0

/-- R203, R200: `write <rs> [<ri>]`: the element at the address the index register names gets the value, every other element
reads as before; a bad index and an address out of range fault, nothing stored.
Rests on the spec's own decisions D10 and D11. No delay is modelled (log 20). -/
def Obligations.WriteIndexed : Prop :=
  Shape .writeR .frr 3 0x06 ∧ DecodesRegisters .writeR .writeR ∧ Truncates .writeR ∧
  ChecksRegister .writeR 1 ∧ ChecksRegister .writeR 2 ∧
  (∀ (s : State) (rs ri : Reg), s.mem.wf →
    (idx s.params.indexConversion (s.reg ri) = none → exec (.writeR rs ri) s = faulted .badIndex s) ∧
    (∀ a, idx s.params.indexConversion (s.reg ri) = some a →
      (a < 0 ∨ (s.mem.total : Int) ≤ a → exec (.writeR rs ri) s = faulted .memOutOfRange s) ∧
      (0 ≤ a → a < s.mem.total → ∃ m : Memory,
        m.read a = some (s.reg rs) ∧ (∀ a', a' ≠ a → m.read a' = s.mem.read a') ∧
        exec (.writeR rs ri) s = .next { s with mem := m, ip := s.ip + 3 }))) ∧
  decodeBytes .default [0x06, 0x12, 0x13] = .ok (.writeR .rax .rbx)

/-- R204, R202: `write <rs> [<addr>]`. Rests on the spec's own decisions D3, D4 and D11.
The byte order `big` of the address is the model's choice (log 27). No delay is modelled (log 20). -/
def Obligations.WriteLiteral : Prop :=
  Shape .writeA .fra 6 0x07 ∧ DecodesRegisterAddress .writeA .writeA ∧ Truncates .writeA ∧ ChecksRegister .writeA 1 ∧
  (∀ (s : State) (rs : Reg) (a : Int), s.mem.wf →
    (a < 0 ∨ (s.mem.total : Int) ≤ a → exec (.writeA rs a) s = faulted .memOutOfRange s) ∧
    (0 ≤ a → a < s.mem.total → ∃ m : Memory,
      m.read a = some (s.reg rs) ∧ (∀ a', a' ≠ a → m.read a' = s.mem.read a') ∧
      exec (.writeA rs a) s = .next { s with mem := m, ip := s.ip + 6 })) ∧
  decodeBytes .default [0x07, 0x14, 0xFF, 0xFF, 0xFF, 0xFF] = .ok (.writeA .rcx (-1)) ∧
  decodeBytes .default [0x07, 0x14, 0x00, 0x00, 0x00, 0x00] = .ok (.writeA .rcx 0)

/-- R205: `read [<ri>] <rd>`; the address comes from the register's old value, `ri = rd` included; memory is unchanged.
Rests on the spec's own decisions D10 and D11. No delay is modelled (log 20). -/
def Obligations.ReadIndexed : Prop :=
  Shape .readR .frr 3 0x08 ∧ DecodesRegisters .readR .readR ∧ Truncates .readR ∧
  ChecksRegister .readR 1 ∧ ChecksRegister .readR 2 ∧
  (∀ (s : State) (ri rd : Reg), s.mem.wf →
    (idx s.params.indexConversion (s.reg ri) = none → exec (.readR ri rd) s = faulted .badIndex s) ∧
    (∀ a, idx s.params.indexConversion (s.reg ri) = some a →
      (a < 0 ∨ (s.mem.total : Int) ≤ a → exec (.readR ri rd) s = faulted .memOutOfRange s) ∧
      (0 ≤ a → a < s.mem.total → ∃ x : Regs,
        s.mem.read a = some (x.get rd) ∧ (∀ r', r' ≠ rd → x.get r' = s.reg r') ∧
        exec (.readR ri rd) s = .next { s with regs := x, ip := s.ip + 3 }))) ∧
  decodeBytes .default [0x08, 0x13, 0x14] = .ok (.readR .rbx .rcx)

/-- R206: `read [<addr>] <rd>`. Rests on the spec's own decisions D3, D4 and D11.
The byte order `big` of the address is the model's choice (log 27). No delay is modelled (log 20). -/
def Obligations.ReadLiteral : Prop :=
  Shape .readA .far 6 0x09 ∧ DecodesAddressRegister .readA .readA ∧ Truncates .readA ∧ ChecksRegister .readA 5 ∧
  (∀ (s : State) (a : Int) (rd : Reg), s.mem.wf →
    (a < 0 ∨ (s.mem.total : Int) ≤ a → exec (.readA a rd) s = faulted .memOutOfRange s) ∧
    (0 ≤ a → a < s.mem.total → ∃ x : Regs,
      s.mem.read a = some (x.get rd) ∧ (∀ r', r' ≠ rd → x.get r' = s.reg r') ∧
      exec (.readA a rd) s = .next { s with regs := x, ip := s.ip + 6 })) ∧
  decodeBytes .default [0x09, 0x0C, 0x00, 0x00, 0x00, 0x12] = .ok (.readA 12 .rax) ∧
  decodeBytes .default [0x09, 0x0F, 0x00, 0x00, 0x00, 0x12] = .ok (.readA 15 .rax)

/-! ## Control flow -/

/-- R222, R220: `jmp`. A jump to itself, which the rule says loops for ever, is one `exec` that leaves `ip` as it is.
Rests on the spec's own decisions D1, D3 and D9. The byte order `big` of the target is the model's choice (log 27). -/
def Obligations.JumpSetsIp : Prop :=
  Shape .jmp .fa 5 0x15 ∧ DecodesAddress .jmp .jmp ∧ Truncates .jmp ∧ ChecksTarget .jmp ∧
  (∀ (s : State) (t : Nat), t < s.codeLen → exec (.jmp t) s = .next { s with ip := t }) ∧
  decodeBytes .default [0x15, 0x0A, 0x00, 0x00, 0x00] = .ok (.jmp 10)

/-- R223, R221: `jmpl`: both entries go, the branch is taken when `B < A`.
Rests on the spec's own decisions D9, D12 and D22. The byte order `big` of the target is the model's choice (log 27). -/
def Obligations.JumpIfLess : Prop :=
  Shape .jmpl .fa 5 0x16 ∧ DecodesAddress .jmpl .jmpl ∧ Truncates .jmpl ∧ ChecksTarget .jmpl ∧
  (∀ (s : State) (t : Nat), t < s.codeLen →
    (∀ st, s.opStack = some st → st.length < 2 → exec (.jmpl t) s = faulted .stackUnderflow s) ∧
    (∀ a b st, s.opStack = some (a :: b :: st) →
      exec (.jmpl t) s = .next { s with opStack := some st, ip := if F64.lt b a = true then t else s.ip + 5 } ∧
      ((F64.isNaN a = true ∨ F64.isNaN b = true ∨ (F64.isZero a = true ∧ F64.isZero b = true) ∨ a = b) →
        exec (.jmpl t) s = .next { s with opStack := some st, ip := s.ip + 5 }))) ∧
  F64.lt 0x3FF0000000000000 0x4000000000000000 = true ∧ F64.lt 0x4000000000000000 0x3FF0000000000000 = false

/-- R224, R221, R225: `jmpg`: both entries go, the branch is taken when `B > A`.
Rests on the spec's own decisions D1, D9, D12 and D22. The byte order `big` of the target is the model's choice (log 27). -/
def Obligations.JumpIfGreater : Prop :=
  Shape .jmpg .fa 5 0x17 ∧ DecodesAddress .jmpg .jmpg ∧ Truncates .jmpg ∧ ChecksTarget .jmpg ∧
  (∀ (s : State) (t : Nat), t < s.codeLen →
    (∀ st, s.opStack = some st → st.length < 2 → exec (.jmpg t) s = faulted .stackUnderflow s) ∧
    (∀ a b st, s.opStack = some (a :: b :: st) →
      exec (.jmpg t) s = .next { s with opStack := some st, ip := if F64.gt b a = true then t else s.ip + 5 } ∧
      ((F64.isNaN a = true ∨ F64.isNaN b = true ∨ (F64.isZero a = true ∧ F64.isZero b = true) ∨ a = b) →
        exec (.jmpg t) s = .next { s with opStack := some st, ip := s.ip + 5 }))) ∧
  F64.gt 0x7FF0000000000000 0x7FE1CCF385EBC8A0 = true ∧ F64.gt 0x8000000000000000 0x0000000000000000 = false ∧
  F64.gt 0x4008000000000000 0x0000000000000000 = true

/-- R226, R227, R27: `call` pushes the offset after its operand and goes to its target; a full call-return stack faults.
Rests on the spec's own decisions D9 and D19. The byte order `big` of the target is the model's choice (log 27).
That a depth above the capacity is full too is the model's reading (log 17). -/
def Obligations.CallPushesTheReturnAddress : Prop :=
  Shape .call .fa 5 0x18 ∧ DecodesAddress .call .call ∧ Truncates .call ∧ ChecksTarget .call ∧
  (∀ (s : State) (t : Nat) (st : List Nat), t < s.codeLen → s.callStack = some st →
    (HasRoom s.params.callStackCap st.length →
      exec (.call t) s = .next { s with callStack := some ((s.ip + 5) :: st), ip := t }) ∧
    (∀ c, s.params.callStackCap = some c → c ≤ st.length → exec (.call t) s = faulted .resource s)) ∧
  (∀ s : State, s.execActive = true → s.codeLen ≤ s.ip → step s = faulted .endOfStream s)

/-- R228, R27: `ret` takes the address from the call-return stack, unchecked; an empty one faults.
Rests on the spec's own decisions D8 and D16. -/
def Obligations.ReturnTakesTheLastAddress : Prop :=
  Shape .ret .f0 1 0x19 ∧ DecodesAlone .ret ∧
  (∀ s : State, s.callStack = some [] → exec .ret s = faulted .retEmpty s) ∧
  (∀ (s : State) (a : Nat) (st : List Nat), s.callStack = some (a :: st) →
    exec .ret s = .next { s with callStack := some st, ip := a }) ∧
  (∀ s : State, s.execActive = true → s.codeLen ≤ s.ip → step s = faulted .endOfStream s)

/-- R231: `hlt` ends the launch with success, OFF, both stacks released; registers, `ip`, memory and console stay; a later
`execute` is refused until the CPU is powered on or reset (R43). Rests on the spec's own decisions D25 and D26.
The result field is the model's (log 11). -/
def Obligations.HaltEndsTheLaunch : Prop :=
  Shape .hlt .f0 1 0x1A ∧ DecodesAlone .hlt ∧
  (∀ s : State, exec .hlt s = .next { s with
    mode := .off
    opStack := none
    callStack := none
    execActive := false
    lastResult := some .success }) ∧
  (∀ (s t : State) (code : List Byte), exec .hlt s = .next t →
    t.execute code = { t with lastResult := some .refused })

/-- E6, R226 and R228 together: a `ret` on the state a `call` left goes to the byte after the call's operand and leaves the
call-return stack as it was before the call (R229). -/
def Obligations.ReturnUndoesCall : Prop :=
  ∀ (s t : State) (n : Int), exec (.call n) s = .next t → t.mode ≠ .wait →
    exec .ret t = .next { s with ip := s.ip + 5 }

/-! ## Assembly -/

/-- R121, R124, R127: the bytes of a source text are the encodings of well-formed instructions one after the other, and
wherever one of them starts the decoder reads it back. Rests on the spec's own decisions D27 and D31.
Choices about texts: log 19. -/
def Obligations.AssembledCodeDecodes : Prop :=
  ∀ (e : Encoding) (src : List Char) (bytes : List Byte), e.wf → assemble e src = .ok bytes →
    ∃ is : List Instr, assembleInstrs src = .ok is ∧ (∀ i ∈ is, i.wf = true) ∧
      bytes.length = (is.map Instr.length).sum ∧ bytes.length ≤ 2 ^ 31 - 1 ∧
      ∀ before i after, is = before ++ i :: after →
        decodeBytes e (bytes.drop (before.map Instr.length).sum) = .ok i

/-- R124: a label's address is the output offset at its definition, the sum of the lengths of what stands before it, for
references before it and after it alike. -/
def Obligations.LabelsHoldTheirOffset : Prop :=
  ∀ (before after : List AsmItem) (name : Token) (k : Transfer),
    ((symbols (before ++ .label name :: after) 0).map Prod.fst).Nodup →
    resolve (symbols (before ++ .label name :: after) 0) (.transfer k (.label name)) =
      .ok [k.instr ((before.map AsmItem.length).sum : Nat)]

/-- R128: the source's example of a forward reference. Rests on the spec's own decisions D1 and D3. -/
def Obligations.ForwardReferenceExample : Prop :=
  assemble .default
    (['j', 'm', 'p', ' ', 'L', '\n', 'p', 'u', 's', 'h', ' ', 'r', 'a', 'x', '\n', 'p', 'o', 'p', ' ', 'r', 'b', 'x'] ++
      ['\n', 'a', 'd', 'd', '\n', 'L', ':', ' ', 'h', 'l', 't']) =
    .ok [0x15, 0x0A, 0x00, 0x00, 0x00, 0x0B, 0x12, 0x0D, 0x13, 0x01, 0x1A]
end

