-- ==== Sys2Proof/Laws/Binary64.lean ====
section
/-! SUPPORT. The parts of the binary64 arithmetic: the layout, exact values by magnitude pattern, the rounding to an integer, the
binary exponent, the integer root. -/

namespace Sys2Proof.Machine

/-! ## Layout -/

theorem F64.magnitude_lt (v : Value) : F64.magnitude v < 2 ^ 63 := Nat.mod_lt _ (by norm_num)

/-- A pattern is its sign bit over its magnitude. -/
theorem F64.toNat_eq (v : Value) : v.toNat = (if F64.sign v then 2 ^ 63 else 0) + F64.magnitude v := by
  have := v.isLt
  unfold F64.sign F64.magnitude
  split <;> rename_i h <;> simp only [decide_eq_true_eq] at h <;> omega

theorem F64.withSign_toNat (neg : Bool) {mag : Nat} (h : mag < 2 ^ 63) :
    (F64.withSign neg mag).toNat = (if neg then 2 ^ 63 else 0) + mag := by
  unfold F64.withSign
  cases neg <;> (simp only [BitVec.toNat_ofNat, if_true, Bool.false_eq_true, if_false]; omega)

theorem F64.sign_withSign (neg : Bool) {mag : Nat} (h : mag < 2 ^ 63) : F64.sign (F64.withSign neg mag) = neg := by
  unfold F64.sign
  rw [F64.withSign_toNat neg h]
  cases neg <;> simp <;> omega

theorem F64.magnitude_withSign (neg : Bool) {mag : Nat} (h : mag < 2 ^ 63) :
    F64.magnitude (F64.withSign neg mag) = mag := by
  unfold F64.magnitude
  rw [F64.withSign_toNat neg h]
  cases neg <;> simp <;> omega

/-- A value is decided by its sign and its magnitude. -/
theorem F64.withSign_sign_magnitude (v : Value) : F64.withSign (F64.sign v) (F64.magnitude v) = v := by
  apply BitVec.eq_of_toNat_eq
  rw [F64.withSign_toNat _ (F64.magnitude_lt v), ← F64.toNat_eq]

theorem F64.fraction_eq (v : Value) : F64.fraction v = F64.magnitude v % 2 ^ 52 := by
  unfold F64.fraction F64.magnitude
  omega

/-- The finite values are those whose magnitude is below the infinity's. -/
theorem F64.isFinite_iff (v : Value) : F64.isFinite v = true ↔ F64.magnitude v < F64.infMagnitude := by
  have := F64.magnitude_lt v
  unfold F64.isFinite F64.expField F64.infMagnitude
  simp only [bne_iff_ne, ne_eq]
  omega

theorem F64.isInf_iff (v : Value) : F64.isInf v = true ↔ F64.magnitude v = F64.infMagnitude := by
  have := F64.magnitude_lt v
  unfold F64.isInf F64.expField F64.infMagnitude
  rw [F64.fraction_eq]
  simp only [Bool.and_eq_true, beq_iff_eq]
  omega

theorem F64.isNaN_iff (v : Value) : F64.isNaN v = true ↔ F64.infMagnitude < F64.magnitude v := by
  have := F64.magnitude_lt v
  unfold F64.isNaN F64.expField F64.infMagnitude
  rw [F64.fraction_eq]
  simp only [Bool.and_eq_true, beq_iff_eq, bne_iff_ne, ne_eq]
  omega

theorem F64.isZero_iff (v : Value) : F64.isZero v = true ↔ F64.magnitude v = 0 := by
  simp [F64.isZero]

/-- A free NaN is a NaN, whatever the free pattern (R143). -/
theorem F64.isNaN_nanOf (free : BitVec 64) : F64.isNaN (F64.nanOf free) = true := by
  have hf : F64.fraction free < 2 ^ 52 := Nat.mod_lt _ (by norm_num)
  have hlt : F64.infMagnitude + (if F64.fraction free = 0 then 1 else F64.fraction free) < 2 ^ 63 := by
    unfold F64.infMagnitude
    split <;> omega
  rw [F64.isNaN_iff, F64.nanOf, F64.magnitude_withSign _ hlt]
  split <;> omega

/-- Every NaN is the free NaN of some pattern, so nothing is left out (R143). -/
theorem F64.nanOf_surjective (v : Value) (h : F64.isNaN v = true) : F64.nanOf v = v := by
  have hm := (F64.isNaN_iff v).1 h
  have hlt := F64.magnitude_lt v
  have hf := F64.fraction_eq v
  have hne : F64.fraction v ≠ 0 := by
    unfold F64.infMagnitude at hm
    omega
  have : F64.infMagnitude + F64.fraction v = F64.magnitude v := by
    unfold F64.infMagnitude at hm ⊢
    omega
  rw [F64.nanOf, if_neg hne, this, F64.withSign_sign_magnitude]

/-! ## Exact values -/

/-- The exact magnitude, in units of 2^-1074, of a magnitude pattern. -/
def F64.unitsOf (mag : Nat) : Nat :=
  if mag / 2 ^ 52 = 0 then mag % 2 ^ 52 else (2 ^ 52 + mag % 2 ^ 52) * 2 ^ (mag / 2 ^ 52 - 1)

theorem F64.scaledMag_eq (v : Value) : F64.scaledMag v = F64.unitsOf (F64.magnitude v) := by
  unfold F64.scaledMag F64.unitsOf F64.expField
  rw [F64.fraction_eq]

/-- A significand of at most 53 bits (2^53 included) over `k` places: the pattern `k * 2^52 + n` stands for `n * 2^k`. -/
theorem F64.unitsOf_pack {k n : Nat} (hn : n ≤ 2 ^ 53) (hk : k = 0 ∨ 2 ^ 52 ≤ n) :
    F64.unitsOf (k * 2 ^ 52 + n) = n * 2 ^ k := by
  have hdiv : (k * 2 ^ 52 + n) / 2 ^ 52 = k + n / 2 ^ 52 := by omega
  have hmod : (k * 2 ^ 52 + n) % 2 ^ 52 = n % 2 ^ 52 := by omega
  unfold F64.unitsOf
  rw [hdiv, hmod]
  rcases Nat.lt_or_ge n (2 ^ 52) with h | h
  · have hk0 : k = 0 := by omega
    subst hk0
    rw [if_pos (by omega), Nat.mod_eq_of_lt h, Nat.pow_zero, Nat.mul_one]
  · rcases Nat.lt_or_ge n (2 ^ 53) with h2 | h2
    · have h1 : n / 2 ^ 52 = 1 := by omega
      have h3 : 2 ^ 52 + n % 2 ^ 52 = n := by omega
      rw [h1, h3, if_neg (by omega)]
      simp
    · have h4 : n = 2 ^ 53 := by omega
      subst h4
      norm_num
      ring

/-- Magnitude patterns stand for growing magnitudes: the next pattern for a greater one. -/
theorem F64.unitsOf_lt_succ (mag : Nat) : F64.unitsOf mag < F64.unitsOf (mag + 1) := by
  rcases Nat.lt_or_ge mag (2 ^ 52) with h | h
  · have h1 := F64.unitsOf_pack (k := 0) (n := mag) (by omega) (.inl rfl)
    have h2 := F64.unitsOf_pack (k := 0) (n := mag + 1) (by omega) (.inl rfl)
    simp only [Nat.zero_mul, Nat.zero_add, Nat.pow_zero, Nat.mul_one] at h1 h2
    omega
  · obtain ⟨k, n, hk, h1, h2⟩ : ∃ k n, mag = k * 2 ^ 52 + n ∧ 2 ^ 52 ≤ n ∧ n < 2 ^ 53 :=
      ⟨mag / 2 ^ 52 - 1, mag % 2 ^ 52 + 2 ^ 52, by omega, by omega, by omega⟩
    have e1 := F64.unitsOf_pack (k := k) (n := n) (by omega) (.inr h1)
    have e2 := F64.unitsOf_pack (k := k) (n := n + 1) (by omega) (.inr (by omega))
    rw [hk, Nat.add_assoc, e1, e2]
    exact Nat.mul_lt_mul_of_pos_right (Nat.lt_succ_self n) (Nat.pos_of_ne_zero (by positivity))

theorem F64.unitsOf_strictMono : StrictMono F64.unitsOf := strictMono_nat_of_lt_succ F64.unitsOf_lt_succ

@[simp] theorem F64.unitsOf_zero : F64.unitsOf 0 = 0 := by norm_num [F64.unitsOf]

/-- Above the subnormals of a binade, every exact magnitude is a multiple of the binade's last place. -/
theorem F64.dvd_unitsOf {mag k : Nat} (h : 2 ^ 52 * 2 ^ k ≤ F64.unitsOf mag) : 2 ^ k ∣ F64.unitsOf mag := by
  rcases Nat.eq_zero_or_pos k with rfl | hk
  · simp
  · have e1 := F64.unitsOf_pack (k := k) (n := 2 ^ 52) (by norm_num) (.inr (Nat.le_refl _))
    have h2 : k * 2 ^ 52 + 2 ^ 52 ≤ mag := by
      by_contra hc
      have := F64.unitsOf_strictMono (Nat.lt_of_not_le hc)
      omega
    have h3 : k ≤ mag / 2 ^ 52 - 1 := by omega
    unfold F64.unitsOf
    rw [if_neg (by omega)]
    exact Dvd.dvd.mul_left (Nat.pow_dvd_pow 2 h3) _

/-! ## Rounding to an integer -/

/-- `divRoundEven` is within half a divisor of the exact quotient. -/
theorem F64.divRoundEven_near (n : Nat) {d : Nat} (hd : 0 < d) :
    2 * n ≤ 2 * (F64.divRoundEven n d * d) + d ∧ 2 * (F64.divRoundEven n d * d) ≤ 2 * n + d := by
  have h1 := Nat.div_add_mod n d
  have h2 := Nat.mod_lt n hd
  have h3 : d * (n / d) = n / d * d := Nat.mul_comm _ _
  have h4 : (n / d + 1) * d = n / d * d + d := by ring
  unfold F64.divRoundEven
  split
  · omega
  · split
    · omega
    · split <;> omega

/-- Where it is half a divisor away, the result is even. -/
theorem F64.divRoundEven_tie {n d : Nat} (hd : 0 < d)
    (h : 2 * n = 2 * (F64.divRoundEven n d * d) + d ∨ 2 * (F64.divRoundEven n d * d) = 2 * n + d) :
    F64.divRoundEven n d % 2 = 0 := by
  have h1 := Nat.div_add_mod n d
  have h2 := Nat.mod_lt n hd
  have h3 : d * (n / d) = n / d * d := Nat.mul_comm _ _
  have h4 : (n / d + 1) * d = n / d * d + d := by ring
  unfold F64.divRoundEven at h ⊢
  split at h
  · rename_i hc
    rw [if_pos hc]
    omega
  · rename_i hc
    rw [if_neg hc]
    split at h
    · rename_i hc2
      rw [if_pos hc2]
      omega
    · rename_i hc2
      rw [if_neg hc2]
      split <;> omega

/-! ## The binary exponent -/

/-- `floorLog2` is the exponent of the binade that holds the quotient. -/
theorem F64.floorLog2_spec {num den : Nat} (hn : 0 < num) (hd : 0 < den) :
    (2 : ℝ) ^ F64.floorLog2 num den ≤ num / den ∧ (num : ℝ) / den < 2 ^ (F64.floorLog2 num den + 1) := by
  have hdr : (0 : ℝ) < den := by exact_mod_cast hd
  have n1 : 2 ^ num.log2 ≤ num := Nat.log2_self_le hn.ne'
  have n2 : num < 2 ^ (num.log2 + 1) := Nat.lt_log2_self
  have d1 : 2 ^ den.log2 ≤ den := Nat.log2_self_le hd.ne'
  have d2 : den < 2 ^ (den.log2 + 1) := Nat.lt_log2_self
  rw [le_div_iff₀ hdr, div_lt_iff₀ hdr]
  unfold F64.floorLog2
  split
  · rename_i hle
    obtain ⟨k, hk⟩ := Nat.exists_eq_add_of_le hle
    have hk' : num.log2 - den.log2 = k := by omega
    have up : num < 2 ^ (k + 1) * den := by
      calc num < 2 ^ (den.log2 + k + 1) := by rw [← hk]; exact n2
        _ = 2 ^ (k + 1) * 2 ^ den.log2 := by ring
        _ ≤ _ := Nat.mul_le_mul_left _ d1
    rw [hk']
    split
    · rename_i hc
      constructor
      · rw [zpow_natCast]
        exact_mod_cast (by linarith [Nat.mul_comm den (2 ^ k)] : 2 ^ k * den ≤ num)
      · rw [show ((k : ℕ) : ℤ) + 1 = ((k + 1 : ℕ) : ℤ) by push_cast; ring, zpow_natCast]
        exact_mod_cast up
    · rename_i hc
      constructor
      · have low : 2 ^ k * den ≤ 2 * num := by
          calc 2 ^ k * den ≤ 2 ^ k * 2 ^ (den.log2 + 1) := Nat.mul_le_mul_left _ d2.le
            _ = 2 * 2 ^ num.log2 := by rw [hk]; ring
            _ ≤ _ := Nat.mul_le_mul_left _ n1
        rw [zpow_sub_one₀ two_ne_zero, zpow_natCast]
        have : (2 : ℝ) ^ k * den ≤ 2 * num := by exact_mod_cast low
        linarith
      · rw [sub_add_cancel, zpow_natCast]
        exact_mod_cast (by linarith [Nat.mul_comm den (2 ^ k)] : num < 2 ^ k * den)
  · rename_i hlt
    obtain ⟨k, hk⟩ := Nat.exists_eq_add_of_lt (Nat.lt_of_not_le hlt)
    have hk' : den.log2 - num.log2 = k + 1 := by omega
    rw [hk']
    have inv : ∀ j : ℕ, (2 : ℝ) ^ (-(j : ℤ)) * 2 ^ j = 1 := fun j => by
      rw [zpow_neg, zpow_natCast]
      exact inv_mul_cancel₀ (by positivity)
    have pos : ∀ j : ℤ, (0 : ℝ) < 2 ^ j := fun j => zpow_pos (by norm_num) j
    split
    · rename_i hc
      have hc' : (den : ℝ) ≤ num * 2 ^ (k + 1) := by exact_mod_cast hc
      have hup : (num : ℝ) * 2 ^ k < den := by
        have : num * 2 ^ k < den := by
          calc num * 2 ^ k < 2 ^ (num.log2 + 1) * 2 ^ k := Nat.mul_lt_mul_of_pos_right n2 (by positivity)
            _ = 2 ^ den.log2 := by rw [hk]; ring
            _ ≤ _ := d1
        exact_mod_cast this
      constructor
      · have := mul_le_mul_of_nonneg_left hc' (pos (-((k + 1 : ℕ) : ℤ))).le
        have e := inv (k + 1)
        nlinarith
      · rw [show -((k + 1 : ℕ) : ℤ) + 1 = -(k : ℤ) by push_cast; ring]
        have := mul_lt_mul_of_pos_left hup (pos (-(k : ℤ)))
        have e := inv k
        nlinarith
    · rename_i hc
      have hc' : (num : ℝ) * 2 ^ (k + 1) < den := by exact_mod_cast Nat.lt_of_not_le hc
      have hlow : (den : ℝ) ≤ num * 2 ^ (k + 2) := by
        have : den ≤ num * 2 ^ (k + 2) := by
          calc den ≤ 2 ^ (den.log2 + 1) := d2.le
            _ = 2 ^ num.log2 * 2 ^ (k + 2) := by rw [hk]; ring
            _ ≤ _ := Nat.mul_le_mul_right _ n1
        exact_mod_cast this
      constructor
      · rw [show -((k + 1 : ℕ) : ℤ) - 1 = -((k + 2 : ℕ) : ℤ) by push_cast; ring]
        have := mul_le_mul_of_nonneg_left hlow (pos (-((k + 2 : ℕ) : ℤ))).le
        have e := inv (k + 2)
        nlinarith
      · rw [sub_add_cancel]
        have := mul_lt_mul_of_pos_left hc' (pos (-((k + 1 : ℕ) : ℤ)))
        have e := inv (k + 1)
        nlinarith

/-! ## The integer root -/

theorem F64.isqrtDigits_spec (n k r : Nat) (h1 : r * r ≤ n) (h2 : n < (r + 2 ^ k) * (r + 2 ^ k)) :
    F64.isqrtDigits n k r * F64.isqrtDigits n k r ≤ n ∧
      n < (F64.isqrtDigits n k r + 1) * (F64.isqrtDigits n k r + 1) := by
  induction k generalizing r with
  | zero => exact ⟨h1, by simpa [F64.isqrtDigits] using h2⟩
  | succ k ih =>
    unfold F64.isqrtDigits
    split
    · rename_i hc
      refine ih _ (Nat.le_of_ble_eq_true hc) ?_
      rwa [show r + 2 ^ k + 2 ^ k = r + 2 ^ (k + 1) by ring]
    · rename_i hc
      refine ih _ h1 ?_
      by_contra hge
      rw [Nat.ble_eq_true_of_le (Nat.le_of_not_lt hge)] at hc
      cases hc

/-- `isqrt` is the integer square root. -/
theorem F64.isqrt_spec (n : Nat) : F64.isqrt n * F64.isqrt n ≤ n ∧ n < (F64.isqrt n + 1) * (F64.isqrt n + 1) := by
  refine F64.isqrtDigits_spec n _ 0 (by simp) ?_
  have h : n < 2 ^ (n.log2 + 1) := Nat.lt_log2_self
  have h2 : 2 ^ (n.log2 + 1) ≤ 2 ^ (2 * (n.log2 / 2 + 1)) := Nat.pow_le_pow_right (by norm_num) (by omega)
  calc n < 2 ^ (2 * (n.log2 / 2 + 1)) := by omega
    _ = _ := by rw [Nat.zero_add, ← Nat.pow_add]; congr 1; ring

end Sys2Proof.Machine
end

