-- ==== Sys2Proof/Laws/Encoding.lean ====
section
/-! SUPPORT. The decoder's parts: opcode and register bytes, operand bytes, and how a number survives its bytes. -/

namespace Sys2Proof

/-! ## Opcode and register bytes -/

theorem Opcode.mem_all (op : Opcode) : op ∈ Opcode.all := by cases op <;> decide

theorem Reg.mem_all (r : Reg) : r ∈ Reg.all := by cases r <;> decide

/-- A byte that stands for an opcode is that opcode's byte. -/
theorem Encoding.byteOf_of_opcode? {e : Encoding} {b : Byte} {op : Opcode} (h : e.opcode? b = some op) :
    e.opcodeOf.byteOf op = b := by
  simpa using List.find?_some h

/-- A byte that stands for a register is that register's byte. -/
theorem Encoding.byteOf_of_reg? {e : Encoding} {b : Byte} {r : Reg} (h : e.reg? b = some r) :
    e.regIdOf.byteOf r = b := by
  simpa using List.find?_some h

/-- In a list whose images are distinct, the search for an image finds its element. -/
theorem find?_byteOf {α : Type} (f : α → Byte) {l : List α} (hl : (l.map f).Nodup) {x : α} (hx : x ∈ l) :
    (l.find? fun y => f y == f x) = some x := by
  induction l with
  | nil => cases hx
  | cons y rest ih =>
    simp only [List.map_cons, List.nodup_cons, List.mem_map, not_exists, not_and] at hl
    rcases List.mem_cons.1 hx with rfl | hx
    · simp
    · rw [List.find?_cons_of_neg]
      · exact ih hl.2 hx
      · simpa using fun h => hl.1 x hx h.symm

/-- With an injective encoding an opcode's byte stands for it. -/
theorem Encoding.opcode?_byteOf {e : Encoding} (h : e.wf) (op : Opcode) :
    e.opcode? (e.opcodeOf.byteOf op) = some op :=
  find?_byteOf _ (List.nodup_append.1 h).1 op.mem_all

/-- With an injective encoding a register's byte stands for it. -/
theorem Encoding.reg?_byteOf {e : Encoding} (h : e.wf) (r : Reg) : e.reg? (e.regIdOf.byteOf r) = some r :=
  find?_byteOf _ (List.nodup_append.1 h).2.1 r.mem_all

/-! ## Numbers as bytes -/

@[simp] theorem littleBytes_length (n v : Nat) : (littleBytes n v).length = n := by
  induction n generalizing v with
  | zero => rfl
  | succ n ih => simp [littleBytes, ih]

@[simp] theorem codeBytes_length (order : ByteOrder) (n v : Nat) : (codeBytes order n v).length = n := by
  cases order <;> simp [codeBytes]

theorem littleEndian_littleBytes (n v : Nat) : littleEndian (littleBytes n v) = v % 256 ^ n := by
  induction n generalizing v with
  | zero => simp [littleBytes, littleEndian, Nat.mod_one]
  | succ n ih =>
    have := Nat.mod_mul (x := v) (a := 256) (b := 256 ^ n)
    simp only [littleBytes, littleEndian, ih, BitVec.toNat_ofNat, Nat.pow_succ, Nat.mul_comm (256 ^ n) 256, this]

/-- Reading the bytes of a number that fits gives the number. -/
theorem codeRead_codeBytes (order : ByteOrder) {n v : Nat} (h : v < 256 ^ n) :
    codeRead order (codeBytes order n v) = v := by
  cases order <;> simp [codeRead, codeBytes, littleEndian_littleBytes, Nat.mod_eq_of_lt h]

theorem littleEndian_lt (bs : List Byte) : littleEndian bs < 256 ^ bs.length := by
  induction bs with
  | nil => simp [littleEndian]
  | cons b bs ih =>
    have hb : b.toNat < 256 := b.isLt
    simp only [littleEndian, List.length_cons, Nat.pow_succ]
    omega

theorem littleBytes_littleEndian (bs : List Byte) : littleBytes bs.length (littleEndian bs) = bs := by
  induction bs with
  | nil => rfl
  | cons b bs ih =>
    have hb : b.toNat < 256 := b.isLt
    have h1 : (b.toNat + 256 * littleEndian bs) / 256 = littleEndian bs := by omega
    have h2 : BitVec.ofNat 8 (b.toNat + 256 * littleEndian bs) = b := by
      apply BitVec.eq_of_toNat_eq
      simp only [BitVec.toNat_ofNat]
      omega
    simp only [List.length_cons, littleEndian, littleBytes, h1, h2, ih]

theorem codeRead_lt (order : ByteOrder) (bs : List Byte) : codeRead order bs < 256 ^ bs.length := by
  cases order with
  | little => exact littleEndian_lt bs
  | big => simpa [codeRead] using littleEndian_lt bs.reverse

/-- The bytes of the number that bytes are read as are those bytes. -/
theorem codeBytes_codeRead (order : ByteOrder) (bs : List Byte) :
    codeBytes order bs.length (codeRead order bs) = bs := by
  cases order with
  | little => exact littleBytes_littleEndian bs
  | big =>
    have := littleBytes_littleEndian bs.reverse
    rw [List.length_reverse] at this
    simp [codeBytes, codeRead, this]

/-! ## Addresses -/

/-- An address that fits its field is what its pattern is read as (R95). -/
theorem sext32_addrPattern {a : Int} (h : inAddrRange a) : sext32 (addrPattern a) = a := by
  simp only [sext32, addrPattern, BitVec.ofNat_toNat, BitVec.setWidth_eq, BitVec.toInt_ofInt]
  obtain ⟨h1, h2⟩ := h
  rw [Int.bmod_eq_of_le] <;> norm_num <;> omega

theorem addrPattern_lt (a : Int) : addrPattern a < 256 ^ 4 := by
  have := (BitVec.ofInt 32 a).isLt
  simpa [addrPattern] using this

/-- A 4-byte field is the pattern of the address it is read as. -/
theorem addrPattern_sext32 {v : Nat} (h : v < 256 ^ 4) : addrPattern (sext32 v) = v := by
  simp only [sext32, addrPattern, BitVec.ofInt_toInt, BitVec.toNat_ofNat]
  exact Nat.mod_eq_of_lt h

/-- Every 4-byte field is read as an address in range. -/
theorem sext32_inAddrRange (v : Nat) : inAddrRange (sext32 v) := by
  have h1 := BitVec.le_toInt (x := BitVec.ofNat 32 v)
  have h2 := BitVec.toInt_lt (x := BitVec.ofNat 32 v)
  unfold inAddrRange sext32
  norm_num at h1 h2 ⊢
  omega

/-! ## The instruction's length -/

/-- A transfer's target is its address operand. -/
theorem Instr.address?_of_target? {i : Instr} {t : Int} (h : i.target? = some t) : i.address? = some t := by
  cases i <;> first | exact h | cases h

/-- The decoder's answer has the opcode of its first byte. -/
theorem opcode_of_decodeOperands {e : Encoding} {op : Opcode} {bs : List Byte} {i : Instr}
    (h : decodeOperands e op bs = .ok i) : i.opcode = op := by
  cases op <;> simp only [decodeOperands, bind, Except.bind] at h <;>
    (repeat' split at h) <;> first | (injection h with h; subst h; rfl) | cases h

/-- What the decoder has checked when it accepts (R110). -/
theorem decodeBytes_ok {e : Encoding} {bs : List Byte} {i : Instr} (h : decodeBytes e bs = .ok i) :
    ∃ b rest, bs = b :: rest ∧ e.opcode? b = some i.opcode ∧ i.length ≤ rest.length + 1 ∧
      decodeOperands e i.opcode bs = .ok i := by
  match bs, h with
  | b :: rest, h =>
    simp only [decodeBytes] at h
    split at h
    · cases h
    · rename_i op hop
      split at h
      · cases h
      · have := opcode_of_decodeOperands h
        subst this
        exact ⟨b, rest, rfl, hop, by unfold Instr.length; omega, h⟩

/-- What the decoder has checked when it accepts at an offset: the target too. -/
theorem decodeAt_ok {e : Encoding} {code : List Byte} {ip : Nat} {i : Instr} (h : decodeAt e code ip = .ok i) :
    decodeBytes e (code.drop ip) = .ok i ∧ ∀ t, i.target? = some t → targetOk code.length t := by
  simp only [decodeAt, bind, Except.bind] at h
  split at h
  · cases h
  · rename_i j hj
    unfold checkTarget at h
    split at h
    · rename_i hn
      injection h with h
      subst h
      exact ⟨hj, fun t ht => by rw [hn] at ht; cases ht⟩
    · rename_i t hsome
      split at h
      · rename_i ht
        injection h with h
        subst h
        refine ⟨hj, fun t' ht' => ?_⟩
        rw [hsome] at ht'
        injection ht' with ht'
        exact ht' ▸ ht
      · cases h

/-- An accepted instruction lies inside the code. -/
theorem decodeAt_length {e : Encoding} {code : List Byte} {ip : Nat} {i : Instr} (h : decodeAt e code ip = .ok i) :
    ip + i.length ≤ code.length := by
  obtain ⟨b, rest, hbs, _, hlen, _⟩ := decodeBytes_ok (decodeAt_ok h).1
  have := congrArg List.length hbs
  simp only [List.length_drop, List.length_cons] at this
  omega

/-- The lengths the encoding uses (R101): an instruction's bytes are as many as its opcode's length. -/
theorem encode_length (e : Encoding) (i : Instr) : (encode e i).length = i.length := by
  cases i <;> simp [encode, encodeOperands, Instr.length, Instr.opcode, Opcode.length, Opcode.format, Format.length]

/-- With all its bytes there, an instruction is decoded from its operand fields. -/
theorem decodeBytes_of_opcode? {e : Encoding} {b : Byte} {op : Opcode} {rest : List Byte} (h : e.opcode? b = some op)
    (hl : op.length ≤ rest.length + 1) : decodeBytes e (b :: rest) = decodeOperands e op (b :: rest) := by
  simp only [decodeBytes, h, if_neg (Nat.not_lt.2 hl)]

/-! ## Fields as bytes joined -/

theorem toNat_join {n m : Nat} (x : BitVec n) (y : BitVec m) : (x ++ y).toNat = x.toNat * 2 ^ m + y.toNat := by
  rw [BitVec.toNat_append, ← Nat.shiftLeft_add_eq_or_of_lt y.isLt, Nat.shiftLeft_eq]

theorem littleEndian_four (b0 b1 b2 b3 : Byte) :
    BitVec.ofNat 32 (littleEndian [b0, b1, b2, b3]) = (b3 ++ b2 ++ b1 ++ b0 : BitVec 32) := by
  apply BitVec.eq_of_toNat_eq
  rw [toNat_join, toNat_join, toNat_join, BitVec.toNat_ofNat]
  have := b0.isLt; have := b1.isLt; have := b2.isLt; have := b3.isLt
  simp only [littleEndian]; omega

theorem littleEndian_eight (b0 b1 b2 b3 b4 b5 b6 b7 : Byte) :
    BitVec.ofNat 64 (littleEndian [b0, b1, b2, b3, b4, b5, b6, b7]) =
      (b7 ++ b6 ++ b5 ++ b4 ++ b3 ++ b2 ++ b1 ++ b0 : BitVec 64) := by
  apply BitVec.eq_of_toNat_eq
  rw [toNat_join, toNat_join, toNat_join, toNat_join, toNat_join, toNat_join, toNat_join, BitVec.toNat_ofNat]
  have := b0.isLt; have := b1.isLt; have := b2.isLt; have := b3.isLt
  have := b4.isLt; have := b5.isLt; have := b6.isLt; have := b7.isLt
  simp only [littleEndian]; omega

end Sys2Proof
end

