-- ==== Sys2Proof/Laws/State.lean ====
section
/-! SUPPORT. What each update of the state does to each field: one lemma per field per update, true by unfolding, so that
no proof unfolds a record update again. -/

namespace Sys2Proof.Machine

/-! ## `State.advance` -/

@[simp] theorem State.advance_mode (s : State) (n : Nat) : (s.advance n).mode = s.mode := rfl
@[simp] theorem State.advance_regs (s : State) (n : Nat) : (s.advance n).regs = s.regs := rfl
@[simp] theorem State.advance_opStack (s : State) (n : Nat) : (s.advance n).opStack = s.opStack := rfl
@[simp] theorem State.advance_callStack (s : State) (n : Nat) : (s.advance n).callStack = s.callStack := rfl
@[simp] theorem State.advance_ip (s : State) (n : Nat) : (s.advance n).ip = s.ip + n := rfl
@[simp] theorem State.advance_faultCause (s : State) (n : Nat) : (s.advance n).faultCause = s.faultCause := rfl
@[simp] theorem State.advance_execActive (s : State) (n : Nat) : (s.advance n).execActive = s.execActive := rfl
@[simp] theorem State.advance_faultedSinceReset (s : State) (n : Nat) : (s.advance n).faultedSinceReset = s.faultedSinceReset := rfl
@[simp] theorem State.advance_code (s : State) (n : Nat) : (s.advance n).code = s.code := rfl
@[simp] theorem State.advance_mem (s : State) (n : Nat) : (s.advance n).mem = s.mem := rfl
@[simp] theorem State.advance_inTokens (s : State) (n : Nat) : (s.advance n).inTokens = s.inTokens := rfl
@[simp] theorem State.advance_inClosed (s : State) (n : Nat) : (s.advance n).inClosed = s.inClosed := rfl
@[simp] theorem State.advance_outAnswers (s : State) (n : Nat) : (s.advance n).outAnswers = s.outAnswers := rfl
@[simp] theorem State.advance_outValues (s : State) (n : Nat) : (s.advance n).outValues = s.outValues := rfl
@[simp] theorem State.advance_hostQueue (s : State) (n : Nat) : (s.advance n).hostQueue = s.hostQueue := rfl
@[simp] theorem State.advance_lastResult (s : State) (n : Nat) : (s.advance n).lastResult = s.lastResult := rfl
@[simp] theorem State.advance_params (s : State) (n : Nat) : (s.advance n).params = s.params := rfl
@[simp] theorem State.advance_draws (s : State) (n : Nat) : (s.advance n).draws = s.draws := rfl

/-! ## `State.jumpTo` -/

@[simp] theorem State.jumpTo_mode (s : State) (n : Nat) : (s.jumpTo n).mode = s.mode := rfl
@[simp] theorem State.jumpTo_regs (s : State) (n : Nat) : (s.jumpTo n).regs = s.regs := rfl
@[simp] theorem State.jumpTo_opStack (s : State) (n : Nat) : (s.jumpTo n).opStack = s.opStack := rfl
@[simp] theorem State.jumpTo_callStack (s : State) (n : Nat) : (s.jumpTo n).callStack = s.callStack := rfl
@[simp] theorem State.jumpTo_ip (s : State) (n : Nat) : (s.jumpTo n).ip = n := rfl
@[simp] theorem State.jumpTo_faultCause (s : State) (n : Nat) : (s.jumpTo n).faultCause = s.faultCause := rfl
@[simp] theorem State.jumpTo_execActive (s : State) (n : Nat) : (s.jumpTo n).execActive = s.execActive := rfl
@[simp] theorem State.jumpTo_faultedSinceReset (s : State) (n : Nat) : (s.jumpTo n).faultedSinceReset = s.faultedSinceReset := rfl
@[simp] theorem State.jumpTo_code (s : State) (n : Nat) : (s.jumpTo n).code = s.code := rfl
@[simp] theorem State.jumpTo_mem (s : State) (n : Nat) : (s.jumpTo n).mem = s.mem := rfl
@[simp] theorem State.jumpTo_inTokens (s : State) (n : Nat) : (s.jumpTo n).inTokens = s.inTokens := rfl
@[simp] theorem State.jumpTo_inClosed (s : State) (n : Nat) : (s.jumpTo n).inClosed = s.inClosed := rfl
@[simp] theorem State.jumpTo_outAnswers (s : State) (n : Nat) : (s.jumpTo n).outAnswers = s.outAnswers := rfl
@[simp] theorem State.jumpTo_outValues (s : State) (n : Nat) : (s.jumpTo n).outValues = s.outValues := rfl
@[simp] theorem State.jumpTo_hostQueue (s : State) (n : Nat) : (s.jumpTo n).hostQueue = s.hostQueue := rfl
@[simp] theorem State.jumpTo_lastResult (s : State) (n : Nat) : (s.jumpTo n).lastResult = s.lastResult := rfl
@[simp] theorem State.jumpTo_params (s : State) (n : Nat) : (s.jumpTo n).params = s.params := rfl
@[simp] theorem State.jumpTo_draws (s : State) (n : Nat) : (s.jumpTo n).draws = s.draws := rfl

/-! ## `State.setReg` -/

@[simp] theorem State.setReg_mode (s : State) (r : Reg) (v : Value) : (s.setReg r v).mode = s.mode := rfl
@[simp] theorem State.setReg_regs (s : State) (r : Reg) (v : Value) : (s.setReg r v).regs = s.regs.set r v := rfl
@[simp] theorem State.setReg_opStack (s : State) (r : Reg) (v : Value) : (s.setReg r v).opStack = s.opStack := rfl
@[simp] theorem State.setReg_callStack (s : State) (r : Reg) (v : Value) : (s.setReg r v).callStack = s.callStack := rfl
@[simp] theorem State.setReg_ip (s : State) (r : Reg) (v : Value) : (s.setReg r v).ip = s.ip := rfl
@[simp] theorem State.setReg_faultCause (s : State) (r : Reg) (v : Value) : (s.setReg r v).faultCause = s.faultCause := rfl
@[simp] theorem State.setReg_execActive (s : State) (r : Reg) (v : Value) : (s.setReg r v).execActive = s.execActive := rfl
@[simp] theorem State.setReg_faultedSinceReset (s : State) (r : Reg) (v : Value) : (s.setReg r v).faultedSinceReset = s.faultedSinceReset := rfl
@[simp] theorem State.setReg_code (s : State) (r : Reg) (v : Value) : (s.setReg r v).code = s.code := rfl
@[simp] theorem State.setReg_mem (s : State) (r : Reg) (v : Value) : (s.setReg r v).mem = s.mem := rfl
@[simp] theorem State.setReg_inTokens (s : State) (r : Reg) (v : Value) : (s.setReg r v).inTokens = s.inTokens := rfl
@[simp] theorem State.setReg_inClosed (s : State) (r : Reg) (v : Value) : (s.setReg r v).inClosed = s.inClosed := rfl
@[simp] theorem State.setReg_outAnswers (s : State) (r : Reg) (v : Value) : (s.setReg r v).outAnswers = s.outAnswers := rfl
@[simp] theorem State.setReg_outValues (s : State) (r : Reg) (v : Value) : (s.setReg r v).outValues = s.outValues := rfl
@[simp] theorem State.setReg_hostQueue (s : State) (r : Reg) (v : Value) : (s.setReg r v).hostQueue = s.hostQueue := rfl
@[simp] theorem State.setReg_lastResult (s : State) (r : Reg) (v : Value) : (s.setReg r v).lastResult = s.lastResult := rfl
@[simp] theorem State.setReg_params (s : State) (r : Reg) (v : Value) : (s.setReg r v).params = s.params := rfl
@[simp] theorem State.setReg_draws (s : State) (r : Reg) (v : Value) : (s.setReg r v).draws = s.draws := rfl

/-! ## `State.setStack` -/

@[simp] theorem State.setStack_mode (s : State) (st : List Value) : (s.setStack st).mode = s.mode := rfl
@[simp] theorem State.setStack_regs (s : State) (st : List Value) : (s.setStack st).regs = s.regs := rfl
@[simp] theorem State.setStack_opStack (s : State) (st : List Value) : (s.setStack st).opStack = some st := rfl
@[simp] theorem State.setStack_callStack (s : State) (st : List Value) : (s.setStack st).callStack = s.callStack := rfl
@[simp] theorem State.setStack_ip (s : State) (st : List Value) : (s.setStack st).ip = s.ip := rfl
@[simp] theorem State.setStack_faultCause (s : State) (st : List Value) : (s.setStack st).faultCause = s.faultCause := rfl
@[simp] theorem State.setStack_execActive (s : State) (st : List Value) : (s.setStack st).execActive = s.execActive := rfl
@[simp] theorem State.setStack_faultedSinceReset (s : State) (st : List Value) : (s.setStack st).faultedSinceReset = s.faultedSinceReset := rfl
@[simp] theorem State.setStack_code (s : State) (st : List Value) : (s.setStack st).code = s.code := rfl
@[simp] theorem State.setStack_mem (s : State) (st : List Value) : (s.setStack st).mem = s.mem := rfl
@[simp] theorem State.setStack_inTokens (s : State) (st : List Value) : (s.setStack st).inTokens = s.inTokens := rfl
@[simp] theorem State.setStack_inClosed (s : State) (st : List Value) : (s.setStack st).inClosed = s.inClosed := rfl
@[simp] theorem State.setStack_outAnswers (s : State) (st : List Value) : (s.setStack st).outAnswers = s.outAnswers := rfl
@[simp] theorem State.setStack_outValues (s : State) (st : List Value) : (s.setStack st).outValues = s.outValues := rfl
@[simp] theorem State.setStack_hostQueue (s : State) (st : List Value) : (s.setStack st).hostQueue = s.hostQueue := rfl
@[simp] theorem State.setStack_lastResult (s : State) (st : List Value) : (s.setStack st).lastResult = s.lastResult := rfl
@[simp] theorem State.setStack_params (s : State) (st : List Value) : (s.setStack st).params = s.params := rfl
@[simp] theorem State.setStack_draws (s : State) (st : List Value) : (s.setStack st).draws = s.draws := rfl

/-! ## `State.setCallStack` -/

@[simp] theorem State.setCallStack_mode (s : State) (st : List Nat) : (s.setCallStack st).mode = s.mode := rfl
@[simp] theorem State.setCallStack_regs (s : State) (st : List Nat) : (s.setCallStack st).regs = s.regs := rfl
@[simp] theorem State.setCallStack_opStack (s : State) (st : List Nat) : (s.setCallStack st).opStack = s.opStack := rfl
@[simp] theorem State.setCallStack_callStack (s : State) (st : List Nat) : (s.setCallStack st).callStack = some st := rfl
@[simp] theorem State.setCallStack_ip (s : State) (st : List Nat) : (s.setCallStack st).ip = s.ip := rfl
@[simp] theorem State.setCallStack_faultCause (s : State) (st : List Nat) : (s.setCallStack st).faultCause = s.faultCause := rfl
@[simp] theorem State.setCallStack_execActive (s : State) (st : List Nat) : (s.setCallStack st).execActive = s.execActive := rfl
@[simp] theorem State.setCallStack_faultedSinceReset (s : State) (st : List Nat) : (s.setCallStack st).faultedSinceReset = s.faultedSinceReset := rfl
@[simp] theorem State.setCallStack_code (s : State) (st : List Nat) : (s.setCallStack st).code = s.code := rfl
@[simp] theorem State.setCallStack_mem (s : State) (st : List Nat) : (s.setCallStack st).mem = s.mem := rfl
@[simp] theorem State.setCallStack_inTokens (s : State) (st : List Nat) : (s.setCallStack st).inTokens = s.inTokens := rfl
@[simp] theorem State.setCallStack_inClosed (s : State) (st : List Nat) : (s.setCallStack st).inClosed = s.inClosed := rfl
@[simp] theorem State.setCallStack_outAnswers (s : State) (st : List Nat) : (s.setCallStack st).outAnswers = s.outAnswers := rfl
@[simp] theorem State.setCallStack_outValues (s : State) (st : List Nat) : (s.setCallStack st).outValues = s.outValues := rfl
@[simp] theorem State.setCallStack_hostQueue (s : State) (st : List Nat) : (s.setCallStack st).hostQueue = s.hostQueue := rfl
@[simp] theorem State.setCallStack_lastResult (s : State) (st : List Nat) : (s.setCallStack st).lastResult = s.lastResult := rfl
@[simp] theorem State.setCallStack_params (s : State) (st : List Nat) : (s.setCallStack st).params = s.params := rfl
@[simp] theorem State.setCallStack_draws (s : State) (st : List Nat) : (s.setCallStack st).draws = s.draws := rfl

/-! ## `State.written` -/

@[simp] theorem State.written_mode (s : State) (v : Value) : (s.written v).mode = s.mode := rfl
@[simp] theorem State.written_regs (s : State) (v : Value) : (s.written v).regs = s.regs := rfl
@[simp] theorem State.written_opStack (s : State) (v : Value) : (s.written v).opStack = s.opStack := rfl
@[simp] theorem State.written_callStack (s : State) (v : Value) : (s.written v).callStack = s.callStack := rfl
@[simp] theorem State.written_ip (s : State) (v : Value) : (s.written v).ip = s.ip := rfl
@[simp] theorem State.written_faultCause (s : State) (v : Value) : (s.written v).faultCause = s.faultCause := rfl
@[simp] theorem State.written_execActive (s : State) (v : Value) : (s.written v).execActive = s.execActive := rfl
@[simp] theorem State.written_faultedSinceReset (s : State) (v : Value) : (s.written v).faultedSinceReset = s.faultedSinceReset := rfl
@[simp] theorem State.written_code (s : State) (v : Value) : (s.written v).code = s.code := rfl
@[simp] theorem State.written_mem (s : State) (v : Value) : (s.written v).mem = s.mem := rfl
@[simp] theorem State.written_inTokens (s : State) (v : Value) : (s.written v).inTokens = s.inTokens := rfl
@[simp] theorem State.written_inClosed (s : State) (v : Value) : (s.written v).inClosed = s.inClosed := rfl
@[simp] theorem State.written_outAnswers (s : State) (v : Value) : (s.written v).outAnswers = s.outAnswers.drop 1 := rfl
@[simp] theorem State.written_outValues (s : State) (v : Value) : (s.written v).outValues = s.outValues ++ [v] := rfl
@[simp] theorem State.written_hostQueue (s : State) (v : Value) : (s.written v).hostQueue = s.hostQueue := rfl
@[simp] theorem State.written_lastResult (s : State) (v : Value) : (s.written v).lastResult = s.lastResult := rfl
@[simp] theorem State.written_params (s : State) (v : Value) : (s.written v).params = s.params := rfl
@[simp] theorem State.written_draws (s : State) (v : Value) : (s.written v).draws = s.draws := rfl

/-! ## `State.halt` -/

@[simp] theorem State.halt_mode (s : State) : (s.halt).mode = .off := rfl
@[simp] theorem State.halt_regs (s : State) : (s.halt).regs = s.regs := rfl
@[simp] theorem State.halt_opStack (s : State) : (s.halt).opStack = none := rfl
@[simp] theorem State.halt_callStack (s : State) : (s.halt).callStack = none := rfl
@[simp] theorem State.halt_ip (s : State) : (s.halt).ip = s.ip := rfl
@[simp] theorem State.halt_faultCause (s : State) : (s.halt).faultCause = s.faultCause := rfl
@[simp] theorem State.halt_execActive (s : State) : (s.halt).execActive = false := rfl
@[simp] theorem State.halt_faultedSinceReset (s : State) : (s.halt).faultedSinceReset = s.faultedSinceReset := rfl
@[simp] theorem State.halt_code (s : State) : (s.halt).code = s.code := rfl
@[simp] theorem State.halt_mem (s : State) : (s.halt).mem = s.mem := rfl
@[simp] theorem State.halt_inTokens (s : State) : (s.halt).inTokens = s.inTokens := rfl
@[simp] theorem State.halt_inClosed (s : State) : (s.halt).inClosed = s.inClosed := rfl
@[simp] theorem State.halt_outAnswers (s : State) : (s.halt).outAnswers = s.outAnswers := rfl
@[simp] theorem State.halt_outValues (s : State) : (s.halt).outValues = s.outValues := rfl
@[simp] theorem State.halt_hostQueue (s : State) : (s.halt).hostQueue = s.hostQueue := rfl
@[simp] theorem State.halt_lastResult (s : State) : (s.halt).lastResult = some .success := rfl
@[simp] theorem State.halt_params (s : State) : (s.halt).params = s.params := rfl
@[simp] theorem State.halt_draws (s : State) : (s.halt).draws = s.draws := rfl

/-! ## `State.launch` -/

@[simp] theorem State.launch_mode (s : State) (code : List Byte) : (s.launch code).mode = s.mode := rfl
@[simp] theorem State.launch_regs (s : State) (code : List Byte) : (s.launch code).regs = s.regs := rfl
@[simp] theorem State.launch_opStack (s : State) (code : List Byte) : (s.launch code).opStack = s.opStack := rfl
@[simp] theorem State.launch_callStack (s : State) (code : List Byte) : (s.launch code).callStack = s.callStack := rfl
@[simp] theorem State.launch_ip (s : State) (code : List Byte) : (s.launch code).ip = 0 := rfl
@[simp] theorem State.launch_faultCause (s : State) (code : List Byte) : (s.launch code).faultCause = s.faultCause := rfl
@[simp] theorem State.launch_execActive (s : State) (code : List Byte) : (s.launch code).execActive = true := rfl
@[simp] theorem State.launch_faultedSinceReset (s : State) (code : List Byte) : (s.launch code).faultedSinceReset = s.faultedSinceReset := rfl
@[simp] theorem State.launch_code (s : State) (code : List Byte) : (s.launch code).code = code := rfl
@[simp] theorem State.launch_mem (s : State) (code : List Byte) : (s.launch code).mem = s.mem := rfl
@[simp] theorem State.launch_inTokens (s : State) (code : List Byte) : (s.launch code).inTokens = s.inTokens := rfl
@[simp] theorem State.launch_inClosed (s : State) (code : List Byte) : (s.launch code).inClosed = s.inClosed := rfl
@[simp] theorem State.launch_outAnswers (s : State) (code : List Byte) : (s.launch code).outAnswers = s.outAnswers := rfl
@[simp] theorem State.launch_outValues (s : State) (code : List Byte) : (s.launch code).outValues = s.outValues := rfl
@[simp] theorem State.launch_hostQueue (s : State) (code : List Byte) : (s.launch code).hostQueue = s.hostQueue := rfl
@[simp] theorem State.launch_lastResult (s : State) (code : List Byte) : (s.launch code).lastResult = none := rfl
@[simp] theorem State.launch_params (s : State) (code : List Byte) : (s.launch code).params = s.params := rfl
@[simp] theorem State.launch_draws (s : State) (code : List Byte) : (s.launch code).draws = s.draws := rfl

/-! ## `takeFault` (R252) -/

@[simp] theorem takeFault_mode (c : FaultCause) (s : State) : (takeFault c s).mode = .wait := rfl
@[simp] theorem takeFault_regs (c : FaultCause) (s : State) : (takeFault c s).regs = s.regs := rfl
@[simp] theorem takeFault_opStack (c : FaultCause) (s : State) : (takeFault c s).opStack = s.opStack := rfl
@[simp] theorem takeFault_callStack (c : FaultCause) (s : State) : (takeFault c s).callStack = s.callStack := rfl
@[simp] theorem takeFault_ip (c : FaultCause) (s : State) : (takeFault c s).ip = s.ip := rfl
@[simp] theorem takeFault_faultCause (c : FaultCause) (s : State) : (takeFault c s).faultCause = c := rfl
@[simp] theorem takeFault_execActive (c : FaultCause) (s : State) : (takeFault c s).execActive = false := rfl
@[simp] theorem takeFault_faultedSinceReset (c : FaultCause) (s : State) : (takeFault c s).faultedSinceReset = true := rfl
@[simp] theorem takeFault_code (c : FaultCause) (s : State) : (takeFault c s).code = s.code := rfl
@[simp] theorem takeFault_mem (c : FaultCause) (s : State) : (takeFault c s).mem = s.mem := rfl
@[simp] theorem takeFault_inTokens (c : FaultCause) (s : State) : (takeFault c s).inTokens = s.inTokens := rfl
@[simp] theorem takeFault_inClosed (c : FaultCause) (s : State) : (takeFault c s).inClosed = s.inClosed := rfl
@[simp] theorem takeFault_outAnswers (c : FaultCause) (s : State) : (takeFault c s).outAnswers = s.outAnswers := rfl
@[simp] theorem takeFault_outValues (c : FaultCause) (s : State) : (takeFault c s).outValues = s.outValues := rfl
@[simp] theorem takeFault_hostQueue (c : FaultCause) (s : State) : (takeFault c s).hostQueue = s.hostQueue := rfl
@[simp] theorem takeFault_lastResult (c : FaultCause) (s : State) : (takeFault c s).lastResult = some (.failure c) := rfl
@[simp] theorem takeFault_params (c : FaultCause) (s : State) : (takeFault c s).params = s.params := rfl
@[simp] theorem takeFault_draws (c : FaultCause) (s : State) : (takeFault c s).draws = s.draws := rfl

/-! ## `State.pushNumeric` (R143) -/

@[simp] theorem State.pushNumeric_mode (s : State) (r : Option Value) (rest : List Value) :
    (s.pushNumeric r rest).mode = s.mode := by cases r <;> rfl
@[simp] theorem State.pushNumeric_regs (s : State) (r : Option Value) (rest : List Value) :
    (s.pushNumeric r rest).regs = s.regs := by cases r <;> rfl
@[simp] theorem State.pushNumeric_callStack (s : State) (r : Option Value) (rest : List Value) :
    (s.pushNumeric r rest).callStack = s.callStack := by cases r <;> rfl
@[simp] theorem State.pushNumeric_ip (s : State) (r : Option Value) (rest : List Value) :
    (s.pushNumeric r rest).ip = s.ip := by cases r <;> rfl
@[simp] theorem State.pushNumeric_faultCause (s : State) (r : Option Value) (rest : List Value) :
    (s.pushNumeric r rest).faultCause = s.faultCause := by cases r <;> rfl
@[simp] theorem State.pushNumeric_execActive (s : State) (r : Option Value) (rest : List Value) :
    (s.pushNumeric r rest).execActive = s.execActive := by cases r <;> rfl
@[simp] theorem State.pushNumeric_faultedSinceReset (s : State) (r : Option Value) (rest : List Value) :
    (s.pushNumeric r rest).faultedSinceReset = s.faultedSinceReset := by cases r <;> rfl
@[simp] theorem State.pushNumeric_code (s : State) (r : Option Value) (rest : List Value) :
    (s.pushNumeric r rest).code = s.code := by cases r <;> rfl
@[simp] theorem State.pushNumeric_mem (s : State) (r : Option Value) (rest : List Value) :
    (s.pushNumeric r rest).mem = s.mem := by cases r <;> rfl
@[simp] theorem State.pushNumeric_inTokens (s : State) (r : Option Value) (rest : List Value) :
    (s.pushNumeric r rest).inTokens = s.inTokens := by cases r <;> rfl
@[simp] theorem State.pushNumeric_inClosed (s : State) (r : Option Value) (rest : List Value) :
    (s.pushNumeric r rest).inClosed = s.inClosed := by cases r <;> rfl
@[simp] theorem State.pushNumeric_outAnswers (s : State) (r : Option Value) (rest : List Value) :
    (s.pushNumeric r rest).outAnswers = s.outAnswers := by cases r <;> rfl
@[simp] theorem State.pushNumeric_outValues (s : State) (r : Option Value) (rest : List Value) :
    (s.pushNumeric r rest).outValues = s.outValues := by cases r <;> rfl
@[simp] theorem State.pushNumeric_hostQueue (s : State) (r : Option Value) (rest : List Value) :
    (s.pushNumeric r rest).hostQueue = s.hostQueue := by cases r <;> rfl
@[simp] theorem State.pushNumeric_lastResult (s : State) (r : Option Value) (rest : List Value) :
    (s.pushNumeric r rest).lastResult = s.lastResult := by cases r <;> rfl
@[simp] theorem State.pushNumeric_params (s : State) (r : Option Value) (rest : List Value) :
    (s.pushNumeric r rest).params = s.params := by cases r <;> rfl

theorem State.pushNumeric_some (s : State) (v : Value) (rest : List Value) :
    s.pushNumeric (some v) rest = s.setStack (v :: rest) := rfl

theorem State.pushNumeric_none (s : State) (rest : List Value) :
    s.pushNumeric none rest =
      { s with opStack := some (F64.nanOf (Config.freeNaN s.draws) :: rest), draws := s.draws + 1 } := rfl

/-- Whatever is pushed, the stack is the rest with one entry on it. -/
theorem State.pushNumeric_opStack (s : State) (r : Option Value) (rest : List Value) :
    ∃ v, (s.pushNumeric r rest).opStack = some (v :: rest) := by cases r <;> exact ⟨_, rfl⟩

/-! ## Registers (R21) -/

@[simp] theorem Regs.get_set_same (x : Regs) (r : Reg) (v : Value) : (x.set r v).get r = v := by cases r <;> rfl

theorem Regs.get_set_other (x : Regs) (r r' : Reg) (v : Value) (h : r' ≠ r) : (x.set r v).get r' = x.get r' := by
  cases r <;> cases r' <;> first | rfl | exact absurd rfl h

@[simp] theorem State.setReg_reg_same (s : State) (r : Reg) (v : Value) : (s.setReg r v).reg r = v :=
  Regs.get_set_same _ _ _

theorem State.setReg_reg_other (s : State) (r r' : Reg) (v : Value) (h : r' ≠ r) :
    (s.setReg r v).reg r' = s.reg r' := Regs.get_set_other _ _ _ _ h

/-- The registers decide what every register reads. -/
theorem State.reg_congr (s t : State) (h : t.regs = s.regs) (r : Reg) : t.reg r = s.reg r := by
  simp only [State.reg, h]

end Sys2Proof.Machine
end

