-- ==== Sys2Proof/Laws/Exec.lean ====
section
/-! SUPPORT. What each shared operation and each instruction can do, said once: if it answers a next state, that state is one of
these. Later proofs cite these lemmas and do not unfold the operations. -/

namespace Sys2Proof.Machine

/-! ## Shared operations -/

theorem raiseFault_next {c : FaultCause} {s t : State} : raiseFault c s = .next t ↔ t = takeFault c s := by
  constructor
  · intro h
    injection h with h
    exact h.symm
  · rintro rfl
    rfl

theorem withStack_next {s t : State} {k : List Value → Result} (h : withStack s k = .next t) :
    ∃ st, s.opStack = some st ∧ k st = .next t := by
  unfold withStack at h
  split at h
  · cases h
  · exact ⟨_, ‹_›, h⟩

theorem withCallStack_next {s t : State} {k : List Nat → Result} (h : withCallStack s k = .next t) :
    ∃ st, s.callStack = some st ∧ k st = .next t := by
  unfold withCallStack at h
  split at h
  · cases h
  · exact ⟨_, ‹_›, h⟩

theorem withTop_next {s t : State} {k : Value → List Value → Result} (h : withTop s k = .next t) :
    (s.opStack = some [] ∧ t = takeFault .stackUnderflow s) ∨
    ∃ a rest, s.opStack = some (a :: rest) ∧ k a rest = .next t := by
  obtain ⟨st, hst, h⟩ := withStack_next h
  match st, hst, h with
  | a :: rest, hst, h => exact .inr ⟨a, rest, hst, h⟩
  | [], hst, h => exact .inl ⟨hst, raiseFault_next.1 h⟩

theorem withTopTwo_next {s t : State} {k : Value → Value → List Value → Result} (h : withTopTwo s k = .next t) :
    ((∃ st, s.opStack = some st ∧ st.length < 2) ∧ t = takeFault .stackUnderflow s) ∨
    ∃ a b rest, s.opStack = some (a :: b :: rest) ∧ k a b rest = .next t := by
  obtain ⟨st, hst, h⟩ := withStack_next h
  match st, hst, h with
  | a :: b :: rest, hst, h => exact .inr ⟨a, b, rest, hst, h⟩
  | [_], hst, h => exact .inl ⟨⟨_, hst, by simp⟩, raiseFault_next.1 h⟩
  | [], hst, h => exact .inl ⟨⟨_, hst, by simp⟩, raiseFault_next.1 h⟩

theorem withRoom_next {s t : State} {k : List Value → Result} (h : withRoom s k = .next t) :
    t = takeFault .resource s ∨
    ∃ st, s.opStack = some st ∧ atCapacity s.params.opStackCap st.length = false ∧ k st = .next t := by
  obtain ⟨st, hst, h⟩ := withStack_next h
  split at h
  · exact .inl (raiseFault_next.1 h)
  · exact .inr ⟨st, hst, eq_false_of_ne_true ‹_›, h⟩

theorem withTarget_next {s t : State} {a : Int} {k : Nat → Result} (h : withTarget s a k = .next t) :
    t = takeFault .badTarget s ∨ (targetOk s.codeLen a ∧ k a.toNat = .next t) := by
  unfold withTarget at h
  split at h
  · exact .inr ⟨‹_›, h⟩
  · exact .inl (raiseFault_next.1 h)

theorem withIndex_next {s t : State} {ri : Reg} {k : Int → Result} (h : withIndex s ri k = .next t) :
    t = takeFault .badIndex s ∨ ∃ a, idx s.params.indexConversion (s.reg ri) = some a ∧ k a = .next t := by
  unfold withIndex at h
  split at h
  · exact .inr ⟨_, ‹_›, h⟩
  · exact .inl (raiseFault_next.1 h)

theorem storeAt_next {s t : State} {a : Int} {v : Value} {k : State → Result} (h : storeAt s a v k = .next t) :
    t = takeFault .memOutOfRange s ∨ ∃ m, s.mem.write a v = some m ∧ k { s with mem := m } = .next t := by
  unfold storeAt at h
  split at h
  · exact .inr ⟨_, ‹_›, h⟩
  · exact .inl (raiseFault_next.1 h)

theorem loadAt_next {s t : State} {a : Int} {k : Value → Result} (h : loadAt s a k = .next t) :
    t = takeFault .memOutOfRange s ∨ ∃ v, s.mem.read a = some v ∧ k v = .next t := by
  unfold loadAt at h
  split at h
  · exact .inr ⟨_, ‹_›, h⟩
  · exact .inl (raiseFault_next.1 h)

/-- A console read: a token read, a bad token gone, the end of the input, or no answer (R180). -/
theorem consoleIn_next {s t : State} {k : Value → State → Result} (h : consoleIn s k = .next t) :
    (∃ token rest v, s.inTokens = token :: rest ∧ convertToken s.params.inputConvert token = some v ∧
      k v { s with inTokens := rest } = .next t) ∨
    (∃ token rest, s.inTokens = token :: rest ∧ convertToken s.params.inputConvert token = none ∧
      t = takeFault .ioError { s with inTokens := rest }) ∨
    (s.inTokens = [] ∧ s.inClosed = true ∧ t = takeFault .ioError s) ∨
    (s.inTokens = [] ∧ s.inClosed = false ∧ t = s) := by
  unfold consoleIn at h
  split at h
  · split at h
    · exact .inl ⟨_, _, _, ‹_›, ‹_›, h⟩
    · exact .inr (.inl ⟨_, _, ‹_›, ‹_›, raiseFault_next.1 h⟩)
  · split at h
    · exact .inr (.inr (.inl ⟨‹_›, ‹_›, raiseFault_next.1 h⟩))
    · injection h with h
      exact .inr (.inr (.inr ⟨‹_›, eq_false_of_ne_true ‹_›, h.symm⟩))

/-- A console write: the host answers with success, or with a failure (R181). -/
theorem consoleOut_next {s t : State} {v : Value} {k : State → Result} (h : consoleOut s v k = .next t) :
    (s.outAnswers.head? ≠ some false ∧ k (s.written v) = .next t) ∨
    (∃ rest, s.outAnswers = false :: rest ∧ t = takeFault .ioError { s with outAnswers := rest }) := by
  unfold consoleOut State.outOk at h
  rcases hs : s.outAnswers with _ | ⟨ok, rest⟩
  · simp [hs] at h
    exact .inl ⟨by simp, h⟩
  · cases ok
    · simp [hs] at h
      exact .inr ⟨rest, rfl, raiseFault_next.1 h⟩
    · simp [hs] at h
      exact .inl ⟨by simp, h⟩

/-! ## Instructions -/

theorem execAdd_next {s t : State} (h : execAdd s = .next t) :
    t = takeFault .stackUnderflow s ∨
    ∃ a b rest, s.opStack = some (a :: b :: rest) ∧ t = (s.pushNumeric (F64.add a b) rest).advance 1 := by
  obtain ⟨_, rfl⟩ | ⟨a, b, rest, hs, h⟩ := withTopTwo_next h
  · exact .inl rfl
  · injection h with h
    exact .inr ⟨a, b, rest, hs, h.symm⟩

theorem execSub_next {s t : State} (h : execSub s = .next t) :
    t = takeFault .stackUnderflow s ∨
    ∃ a b rest, s.opStack = some (a :: b :: rest) ∧ t = (s.pushNumeric (F64.sub b a) rest).advance 1 := by
  obtain ⟨_, rfl⟩ | ⟨a, b, rest, hs, h⟩ := withTopTwo_next h
  · exact .inl rfl
  · injection h with h
    exact .inr ⟨a, b, rest, hs, h.symm⟩

theorem execMul_next {s t : State} (h : execMul s = .next t) :
    t = takeFault .stackUnderflow s ∨
    ∃ a b rest, s.opStack = some (a :: b :: rest) ∧ t = (s.pushNumeric (F64.mul a b) rest).advance 1 := by
  obtain ⟨_, rfl⟩ | ⟨a, b, rest, hs, h⟩ := withTopTwo_next h
  · exact .inl rfl
  · injection h with h
    exact .inr ⟨a, b, rest, hs, h.symm⟩

theorem execDiv_next {s t : State} (h : execDiv s = .next t) :
    t = takeFault .stackUnderflow s ∨ t = takeFault .divNearZero s ∨
    ∃ a b rest, s.opStack = some (a :: b :: rest) ∧ nearZero s.params.eps a = false ∧
      t = (s.pushNumeric (F64.div b a) rest).advance 1 := by
  obtain ⟨_, rfl⟩ | ⟨a, b, rest, hs, h⟩ := withTopTwo_next h
  · exact .inl rfl
  · split at h
    · exact .inr (.inl (raiseFault_next.1 h))
    · injection h with h
      exact .inr (.inr ⟨a, b, rest, hs, eq_false_of_ne_true ‹_›, h.symm⟩)

theorem execSqrt_next {s t : State} (h : execSqrt s = .next t) :
    t = takeFault .stackUnderflow s ∨ t = takeFault .sqrtNegative s ∨
    ∃ a rest, s.opStack = some (a :: rest) ∧ negative a = false ∧
      t = (s.pushNumeric (F64.sqrt a) rest).advance 1 := by
  obtain ⟨_, rfl⟩ | ⟨a, rest, hs, h⟩ := withTop_next h
  · exact .inl rfl
  · split at h
    · exact .inr (.inl (raiseFault_next.1 h))
    · injection h with h
      exact .inr (.inr ⟨a, rest, hs, eq_false_of_ne_true ‹_›, h.symm⟩)

theorem execPushV_next {d : Value} {s t : State} (h : execPushV d s = .next t) :
    t = takeFault .resource s ∨
    ∃ st, s.opStack = some st ∧ atCapacity s.params.opStackCap st.length = false ∧
      t = (s.setStack (d :: st)).advance 9 := by
  obtain rfl | ⟨st, hs, hc, h⟩ := withRoom_next h
  · exact .inl rfl
  · injection h with h
    exact .inr ⟨st, hs, hc, h.symm⟩

theorem execPushR_next {r : Reg} {s t : State} (h : execPushR r s = .next t) :
    t = takeFault .resource s ∨
    ∃ st, s.opStack = some st ∧ atCapacity s.params.opStackCap st.length = false ∧
      t = (s.setStack (s.reg r :: st)).advance 2 := by
  obtain rfl | ⟨st, hs, hc, h⟩ := withRoom_next h
  · exact .inl rfl
  · injection h with h
    exact .inr ⟨st, hs, hc, h.symm⟩

theorem execPop_next {s t : State} (h : execPop s = .next t) :
    t = takeFault .stackUnderflow s ∨
    ∃ v rest, s.opStack = some (v :: rest) ∧ t = (s.setStack rest).advance 1 := by
  obtain ⟨_, rfl⟩ | ⟨a, rest, hs, h⟩ := withTop_next h
  · exact .inl rfl
  · injection h with h
    exact .inr ⟨a, rest, hs, h.symm⟩

theorem execPopR_next {r : Reg} {s t : State} (h : execPopR r s = .next t) :
    t = takeFault .stackUnderflow s ∨
    ∃ v rest, s.opStack = some (v :: rest) ∧ t = ((s.setStack rest).setReg r v).advance 2 := by
  obtain ⟨_, rfl⟩ | ⟨a, rest, hs, h⟩ := withTop_next h
  · exact .inl rfl
  · injection h with h
    exact .inr ⟨a, rest, hs, h.symm⟩

theorem execIn_next {s t : State} (h : execIn s = .next t) :
    t = takeFault .resource s ∨ t = s ∨
    (s.inTokens = [] ∧ t = takeFault .ioError s) ∨
    (∃ token rest, s.inTokens = token :: rest ∧ t = takeFault .ioError { s with inTokens := rest }) ∨
    ∃ st token rest v, s.opStack = some st ∧ atCapacity s.params.opStackCap st.length = false ∧
      s.inTokens = token :: rest ∧ convertToken s.params.inputConvert token = some v ∧
      t = (({ s with inTokens := rest } : State).setStack (v :: st)).advance 1 := by
  obtain rfl | ⟨st, hs, hc, h⟩ := withRoom_next h
  · exact .inl rfl
  · obtain ⟨token, rest, v, ht, hv, h⟩ | ⟨token, rest, ht, _, h⟩ | ⟨ht, _, h⟩ | ⟨_, _, h⟩ := consoleIn_next h
    · injection h with h
      exact .inr (.inr (.inr (.inr ⟨st, token, rest, v, hs, hc, ht, hv, h.symm⟩)))
    · exact .inr (.inr (.inr (.inl ⟨token, rest, ht, h⟩)))
    · exact .inr (.inr (.inl ⟨ht, h⟩))
    · exact .inr (.inl h)

theorem execInR_next {r : Reg} {s t : State} (h : execInR r s = .next t) :
    t = s ∨
    (s.inTokens = [] ∧ t = takeFault .ioError s) ∨
    (∃ token rest, s.inTokens = token :: rest ∧ t = takeFault .ioError { s with inTokens := rest }) ∨
    ∃ token rest v, s.inTokens = token :: rest ∧ convertToken s.params.inputConvert token = some v ∧
      t = (({ s with inTokens := rest } : State).setReg r v).advance 2 := by
  obtain ⟨token, rest, v, ht, hv, h⟩ | ⟨token, rest, ht, _, h⟩ | ⟨ht, _, h⟩ | ⟨_, _, h⟩ := consoleIn_next h
  · injection h with h
    exact .inr (.inr (.inr ⟨token, rest, v, ht, hv, h.symm⟩))
  · exact .inr (.inr (.inl ⟨token, rest, ht, h⟩))
  · exact .inr (.inl ⟨ht, h⟩)
  · exact .inl h

theorem execOut_next {s t : State} (h : execOut s = .next t) :
    t = takeFault .stackUnderflow s ∨
    (∃ rest, s.outAnswers = false :: rest ∧ t = takeFault .ioError { s with outAnswers := rest }) ∨
    ∃ v rest, s.opStack = some (v :: rest) ∧ s.outAnswers.head? ≠ some false ∧
      t = (if s.params.outPops then (s.written v).setStack rest else s.written v).advance 1 := by
  obtain ⟨_, rfl⟩ | ⟨v, rest, hs, h⟩ := withTop_next h
  · exact .inl rfl
  · obtain ⟨ho, h⟩ | h := consoleOut_next h
    · injection h with h
      exact .inr (.inr ⟨v, rest, hs, ho, h.symm⟩)
    · exact .inr (.inl h)

theorem execOutR_next {r : Reg} {s t : State} (h : execOutR r s = .next t) :
    (∃ rest, s.outAnswers = false :: rest ∧ t = takeFault .ioError { s with outAnswers := rest }) ∨
    (s.outAnswers.head? ≠ some false ∧ t = (s.written (s.reg r)).advance 2) := by
  obtain ⟨ho, h⟩ | h := consoleOut_next h
  · injection h with h
    exact .inr ⟨ho, h.symm⟩
  · exact .inl h

theorem execWriteR_next {rs ri : Reg} {s t : State} (h : execWriteR rs ri s = .next t) :
    t = takeFault .badIndex s ∨ t = takeFault .memOutOfRange s ∨
    ∃ a m, idx s.params.indexConversion (s.reg ri) = some a ∧ s.mem.write a (s.reg rs) = some m ∧
      t = ({ s with mem := m } : State).advance 3 := by
  obtain rfl | ⟨a, ha, h⟩ := withIndex_next h
  · exact .inl rfl
  · obtain rfl | ⟨m, hm, h⟩ := storeAt_next h
    · exact .inr (.inl rfl)
    · injection h with h
      exact .inr (.inr ⟨a, m, ha, hm, h.symm⟩)

theorem execWriteA_next {rs : Reg} {a : Int} {s t : State} (h : execWriteA rs a s = .next t) :
    t = takeFault .memOutOfRange s ∨
    ∃ m, s.mem.write a (s.reg rs) = some m ∧ t = ({ s with mem := m } : State).advance 6 := by
  obtain rfl | ⟨m, hm, h⟩ := storeAt_next h
  · exact .inl rfl
  · injection h with h
    exact .inr ⟨m, hm, h.symm⟩

theorem execReadR_next {ri rd : Reg} {s t : State} (h : execReadR ri rd s = .next t) :
    t = takeFault .badIndex s ∨ t = takeFault .memOutOfRange s ∨
    ∃ a v, idx s.params.indexConversion (s.reg ri) = some a ∧ s.mem.read a = some v ∧
      t = (s.setReg rd v).advance 3 := by
  obtain rfl | ⟨a, ha, h⟩ := withIndex_next h
  · exact .inl rfl
  · obtain rfl | ⟨v, hv, h⟩ := loadAt_next h
    · exact .inr (.inl rfl)
    · injection h with h
      exact .inr (.inr ⟨a, v, ha, hv, h.symm⟩)

theorem execReadA_next {a : Int} {rd : Reg} {s t : State} (h : execReadA a rd s = .next t) :
    t = takeFault .memOutOfRange s ∨ ∃ v, s.mem.read a = some v ∧ t = (s.setReg rd v).advance 6 := by
  obtain rfl | ⟨v, hv, h⟩ := loadAt_next h
  · exact .inl rfl
  · injection h with h
    exact .inr ⟨v, hv, h.symm⟩

theorem execJmp_next {a : Int} {s t : State} (h : execJmp a s = .next t) :
    t = takeFault .badTarget s ∨ (targetOk s.codeLen a ∧ t = s.jumpTo a.toNat) := by
  obtain rfl | ⟨ha, h⟩ := withTarget_next h
  · exact .inl rfl
  · injection h with h
    exact .inr ⟨ha, h.symm⟩

theorem branchIf_next {cond : Value → Value → Bool} {a : Int} {s t : State} (h : branchIf cond a s = .next t) :
    t = takeFault .badTarget s ∨ t = takeFault .stackUnderflow s ∨
    (targetOk s.codeLen a ∧ ∃ x y rest, s.opStack = some (x :: y :: rest) ∧
      t = if cond x y then (s.setStack rest).jumpTo a.toNat else (s.setStack rest).advance 5) := by
  obtain rfl | ⟨ha, h⟩ := withTarget_next h
  · exact .inl rfl
  · obtain ⟨_, rfl⟩ | ⟨x, y, rest, hs, h⟩ := withTopTwo_next h
    · exact .inr (.inl rfl)
    · refine .inr (.inr ⟨ha, x, y, rest, hs, ?_⟩)
      split at h <;> rename_i hc <;> injection h with h <;> simp [hc, h]

theorem execJmpl_next {a : Int} {s t : State} (h : execJmpl a s = .next t) :
    t = takeFault .badTarget s ∨ t = takeFault .stackUnderflow s ∨
    (targetOk s.codeLen a ∧ ∃ x y rest, s.opStack = some (x :: y :: rest) ∧
      t = if lessTaken x y then (s.setStack rest).jumpTo a.toNat else (s.setStack rest).advance 5) :=
  branchIf_next h

theorem execJmpg_next {a : Int} {s t : State} (h : execJmpg a s = .next t) :
    t = takeFault .badTarget s ∨ t = takeFault .stackUnderflow s ∨
    (targetOk s.codeLen a ∧ ∃ x y rest, s.opStack = some (x :: y :: rest) ∧
      t = if greaterTaken x y then (s.setStack rest).jumpTo a.toNat else (s.setStack rest).advance 5) :=
  branchIf_next h

theorem execCall_next {a : Int} {s t : State} (h : execCall a s = .next t) :
    t = takeFault .badTarget s ∨ t = takeFault .resource s ∨
    (targetOk s.codeLen a ∧ ∃ st, s.callStack = some st ∧ atCapacity s.params.callStackCap st.length = false ∧
      t = (s.setCallStack ((s.ip + 5) :: st)).jumpTo a.toNat) := by
  obtain rfl | ⟨ha, h⟩ := withTarget_next h
  · exact .inl rfl
  · obtain ⟨st, hs, h⟩ := withCallStack_next h
    split at h
    · exact .inr (.inl (raiseFault_next.1 h))
    · injection h with h
      exact .inr (.inr ⟨ha, st, hs, eq_false_of_ne_true ‹_›, h.symm⟩)

theorem execRet_next {s t : State} (h : execRet s = .next t) :
    t = takeFault .retEmpty s ∨
    ∃ a rest, s.callStack = some (a :: rest) ∧ t = (s.setCallStack rest).jumpTo a := by
  obtain ⟨st, hs, h⟩ := withCallStack_next h
  match st, hs, h with
  | a :: rest, hs, h =>
    injection h with h
    exact .inr ⟨a, rest, hs, h.symm⟩
  | [], hs, h => exact .inl (raiseFault_next.1 h)

theorem execHlt_next {s t : State} (h : execHlt s = .next t) : t = s.halt := by
  injection h with h
  exact h.symm

/-! ## The step -/

/-- A step of a running launch: a fault of the decoder, or the decoded instruction (R111). -/
theorem step_active {s t : State} (ha : s.execActive = true) (h : step s = .next t) :
    (∃ c, fetchDecode s = .error c ∧ t = takeFault c s) ∨ ∃ i, fetchDecode s = .ok i ∧ exec i s = .next t := by
  unfold step at h
  simp only [ha] at h
  split at h
  · exact .inl ⟨_, ‹_›, raiseFault_next.1 h⟩
  · exact .inr ⟨_, ‹_›, h⟩

/-- A step with no launch running. -/
theorem step_idle {s : State} (ha : s.execActive = false) : step s = .next (idleStep s) := by
  unfold step
  simp only [ha]

end Sys2Proof.Machine
end

