-- ==== Sys2Proof/Laws/Memory.lean ====
section
/-! SUPPORT. The memory operations (spec R64 to R71): what a bank's element reads as after a store, and that every operation
keeps the canonical form. -/

namespace Sys2Proof.Machine

/-! ## The cells of a bank -/

/-- Offsets rise and lie above a bound. -/
theorem cellsFind_none_of_lt {cells : List (Nat × Value)} {o : Nat}
    (h : ∀ c ∈ cells, o < c.1) : cellsFind cells o = none := by
  induction cells with
  | nil => rfl
  | cons c rest ih =>
    obtain ⟨b, w⟩ := c
    have hb : o < b := h (b, w) (by simp)
    simp [cellsFind, Nat.ne_of_gt hb, ih fun c hc => h c (by simp [hc])]

theorem cellsFind_put_same (cells : List (Nat × Value)) (o : Nat) (v : Value) :
    cellsFind (cellsPut cells o v) o = some v := by
  induction cells with
  | nil => simp [cellsPut, cellsFind]
  | cons c rest ih =>
    obtain ⟨b, w⟩ := c
    unfold cellsPut
    split
    · simp [cellsFind]
    · split
      · simp [cellsFind]
      · rename_i h
        simp [cellsFind, Ne.symm h, ih]

theorem cellsFind_put_other (cells : List (Nat × Value)) (o o' : Nat) (v : Value) (h : o' ≠ o) :
    cellsFind (cellsPut cells o v) o' = cellsFind cells o' := by
  induction cells with
  | nil => simp [cellsPut, cellsFind, Ne.symm h]
  | cons c rest ih =>
    obtain ⟨b, w⟩ := c
    unfold cellsPut
    split
    · simp [cellsFind, Ne.symm h]
    · split
      · rename_i hb
        subst hb
        simp [cellsFind, Ne.symm h]
      · simp [cellsFind, ih]

theorem cellsFind_erase_same {cells : List (Nat × Value)} (o : Nat)
    (h : (cells.map Prod.fst).Pairwise (· < ·)) : cellsFind (cellsErase cells o) o = none := by
  induction cells with
  | nil => rfl
  | cons c rest ih =>
    obtain ⟨b, w⟩ := c
    simp only [List.map_cons, List.pairwise_cons, List.mem_map, forall_exists_index, and_imp] at h
    unfold cellsErase
    split
    · rename_i hb
      subst hb
      exact cellsFind_none_of_lt fun c hc => h.1 _ c hc rfl
    · rename_i hb
      simp [cellsFind, hb, ih h.2]

theorem cellsFind_erase_other (cells : List (Nat × Value)) (o o' : Nat) (h : o' ≠ o) :
    cellsFind (cellsErase cells o) o' = cellsFind cells o' := by
  induction cells with
  | nil => rfl
  | cons c rest ih =>
    obtain ⟨b, w⟩ := c
    unfold cellsErase
    split
    · rename_i hb
      subst hb
      simp [cellsFind, Ne.symm h]
    · simp [cellsFind, ih]

theorem mem_cellsPut {cells : List (Nat × Value)} {o : Nat} {v : Value} {c : Nat × Value}
    (h : c ∈ cellsPut cells o v) : c = (o, v) ∨ c ∈ cells := by
  induction cells with
  | nil => simpa [cellsPut] using h
  | cons d rest ih =>
    obtain ⟨b, w⟩ := d
    unfold cellsPut at h
    split at h
    · simpa using h
    · split at h
      · rcases List.mem_cons.1 h with h | h
        · exact .inl h
        · exact .inr (by simp [h])
      · rcases List.mem_cons.1 h with h | h
        · exact .inr (by simp [h])
        · rcases ih h with h | h
          · exact .inl h
          · exact .inr (by simp [h])

theorem mem_cellsErase {cells : List (Nat × Value)} {o : Nat} {c : Nat × Value}
    (h : c ∈ cellsErase cells o) : c ∈ cells := by
  induction cells with
  | nil => exact h
  | cons d rest ih =>
    obtain ⟨b, w⟩ := d
    unfold cellsErase at h
    split at h
    · exact List.mem_cons_of_mem _ h
    · rcases List.mem_cons.1 h with h | h
      · simp [h]
      · exact List.mem_cons_of_mem _ (ih h)

theorem cellsPut_rising {cells : List (Nat × Value)} (o : Nat) (v : Value)
    (h : (cells.map Prod.fst).Pairwise (· < ·)) : ((cellsPut cells o v).map Prod.fst).Pairwise (· < ·) := by
  induction cells with
  | nil => simp [cellsPut]
  | cons c rest ih =>
    obtain ⟨b, w⟩ := c
    have h' := h
    simp only [List.map_cons, List.pairwise_cons, List.mem_map, forall_exists_index, and_imp] at h
    unfold cellsPut
    split
    · rename_i hb
      simp only [List.map_cons, List.pairwise_cons, List.mem_cons, List.mem_map]
      refine ⟨?_, by simpa using h'⟩
      rintro a (rfl | ⟨c, hc, rfl⟩)
      · exact hb
      · exact Nat.lt_trans hb (h.1 _ c hc rfl)
    · split
      · rename_i hb
        subst hb
        simpa using h'
      · simp only [List.map_cons, List.pairwise_cons, List.mem_map, forall_exists_index, and_imp]
        refine ⟨?_, ih h.2⟩
        rintro a c hc rfl
        rcases mem_cellsPut hc with rfl | hc
        · simp only
          omega
        · exact h.1 _ c hc rfl

theorem cellsErase_rising {cells : List (Nat × Value)} (o : Nat)
    (h : (cells.map Prod.fst).Pairwise (· < ·)) : ((cellsErase cells o).map Prod.fst).Pairwise (· < ·) := by
  induction cells with
  | nil => exact h
  | cons c rest ih =>
    obtain ⟨b, w⟩ := c
    simp only [List.map_cons, List.pairwise_cons, List.mem_map, forall_exists_index, and_imp] at h
    unfold cellsErase
    split
    · exact h.2
    · simp only [List.map_cons, List.pairwise_cons, List.mem_map, forall_exists_index, and_imp]
      exact ⟨fun a c hc hca => h.1 a c (mem_cellsErase hc) hca, ih h.2⟩

/-! ## A bank -/

/-- The element stored to reads as the value stored. -/
theorem Bank.get_put_same {b : Bank} (h : b.wf) (o : Nat) (v : Value) : (b.put o v).get o = v := by
  simp only [Bank.put, Bank.get]
  split
  · rename_i hv
    simp [cellsFind_erase_same o h.2.1, hv]
  · simp [cellsFind_put_same]

/-- Every other element reads as before. -/
theorem Bank.get_put_other (b : Bank) (o o' : Nat) (v : Value) (h : o' ≠ o) : (b.put o v).get o' = b.get o' := by
  simp only [Bank.put, Bank.get]
  split
  · simp [cellsFind_erase_other _ _ _ h]
  · simp [cellsFind_put_other _ _ _ _ h]

@[simp] theorem Bank.put_size (b : Bank) (o : Nat) (v : Value) : (b.put o v).size = b.size := rfl

@[simp] theorem Bank.put_fill (b : Bank) (o : Nat) (v : Value) : (b.put o v).fill = b.fill := rfl

/-- A store inside a bank keeps its canonical form. -/
theorem Bank.put_wf {b : Bank} (h : b.wf) {o : Nat} (ho : o < b.size) (v : Value) : (b.put o v).wf := by
  refine ⟨h.1, ?_, ?_⟩
  · simp only [Bank.put]
    split
    · exact cellsErase_rising o h.2.1
    · exact cellsPut_rising o v h.2.1
  · intro c hc
    simp only [Bank.put] at hc ⊢
    split at hc
    · exact h.2.2 c (mem_cellsErase hc)
    · rcases mem_cellsPut hc with rfl | hc
      · exact ⟨ho, ‹_›⟩
      · exact h.2.2 c hc

/-! ## The banks -/

/-- A translated address lies in a bank, its offset below the bank's size. -/
theorem translateIn_some {banks : List Bank} {a j o : Nat} (h : translateIn banks a = some (j, o)) :
    ∃ b, banks[j]? = some b ∧ o < b.size := by
  induction banks generalizing a j with
  | nil => cases h
  | cons b rest ih =>
    unfold translateIn at h
    split at h
    · simp only [Option.some.injEq, Prod.mk.injEq] at h
      obtain ⟨rfl, rfl⟩ := h
      exact ⟨b, rfl, ‹_›⟩
    · obtain ⟨⟨j', o'⟩, hp, hjo⟩ := Option.map_eq_some_iff.1 h
      simp only [Prod.mk.injEq] at hjo
      obtain ⟨rfl, rfl⟩ := hjo
      simpa using ih hp

/-- Translation reads only the sizes of the banks. -/
theorem translateIn_congr {banks banks' : List Bank} (h : banks.map Bank.size = banks'.map Bank.size) (a : Nat) :
    translateIn banks a = translateIn banks' a := by
  induction banks generalizing banks' a with
  | nil =>
    cases banks' with
    | nil => rfl
    | cons b rest => cases h
  | cons b rest ih =>
    cases banks' with
    | nil => cases h
    | cons b' rest' =>
      simp only [List.map_cons, List.cons.injEq] at h
      simp only [translateIn, h.1, ih h.2]

/-- A write answers the memory with one bank changed at one offset. -/
theorem Memory.write_some {m m' : Memory} {a : Int} {v : Value} (h : m.write a v = some m') :
    ∃ j o b, m.translate a = some (j, o) ∧ m.banks[j]? = some b ∧ o < b.size ∧
      m' = { banks := m.banks.modify j fun b => b.put o v } := by
  unfold Memory.write at h
  split at h
  · cases h
  · rename_i j o hjo
    injection h with h
    have ht := hjo
    unfold Memory.translate at ht
    split at ht
    · cases ht
    · obtain ⟨b, hb, ho⟩ := translateIn_some ht
      exact ⟨j, o, b, hjo, hb, ho, h.symm⟩

/-- A write keeps the canonical form. -/
theorem Memory.write_wf {m m' : Memory} {a : Int} {v : Value} (hm : m.wf) (h : m.write a v = some m') : m'.wf := by
  obtain ⟨j, o, b, _, hb, ho, rfl⟩ := Memory.write_some h
  intro c hc
  simp only at hc
  obtain ⟨k, hk, rfl⟩ := List.mem_iff_getElem.1 hc
  rw [List.getElem_modify]
  split
  · rename_i hjk
    subst hjk
    have hlt : j < m.banks.length := by simpa using hk
    rw [List.getElem?_eq_getElem hlt, Option.some.injEq] at hb
    rw [hb]
    exact Bank.put_wf (hb ▸ hm _ (List.getElem_mem hlt)) ho v
  · exact hm _ (List.getElem_mem _)

/-- A write keeps the number and the sizes of the banks. -/
theorem Memory.write_sizes {m m' : Memory} {a : Int} {v : Value} (h : m.write a v = some m') :
    m'.banks.map Bank.size = m.banks.map Bank.size := by
  obtain ⟨j, o, b, _, _, _, rfl⟩ := Memory.write_some h
  refine List.ext_getElem (by simp) fun k _ _ => ?_
  simp only [List.getElem_map, List.getElem_modify]
  split <;> rfl

/-! ## Creation of a bank -/

theorem mem_initCells {fill : Value} {init : List Value} {o : Nat} {c : Nat × Value}
    (h : c ∈ initCells fill init o) : o ≤ c.1 ∧ c.1 < o + init.length ∧ c.2 ≠ fill := by
  induction init generalizing o with
  | nil => cases h
  | cons v rest ih =>
    unfold initCells at h
    split at h
    · obtain ⟨h1, h2, h3⟩ := ih h
      simp only [List.length_cons]
      exact ⟨by omega, by omega, h3⟩
    · rcases List.mem_cons.1 h with rfl | h
      · exact ⟨Nat.le_refl _, by simp, ‹_›⟩
      · obtain ⟨h1, h2, h3⟩ := ih h
        simp only [List.length_cons]
        exact ⟨by omega, by omega, h3⟩

theorem initCells_rising (fill : Value) (init : List Value) (o : Nat) :
    ((initCells fill init o).map Prod.fst).Pairwise (· < ·) := by
  induction init generalizing o with
  | nil => simp [initCells]
  | cons v rest ih =>
    unfold initCells
    split
    · exact ih _
    · simp only [List.map_cons, List.pairwise_cons, List.mem_map, forall_exists_index, and_imp]
      refine ⟨?_, ih _⟩
      rintro a c hc rfl
      have := mem_initCells hc
      omega

/-- The cells of a new bank hold what it was given. -/
theorem cellsFind_initCells (fill : Value) (init : List Value) (o k : Nat) :
    (cellsFind (initCells fill init o) (o + k)).getD fill = init.getD k fill := by
  induction init generalizing o k with
  | nil => simp [initCells, cellsFind]
  | cons v rest ih =>
    cases k with
    | zero =>
      unfold initCells
      split
      · rename_i hv
        rw [cellsFind_none_of_lt fun c hc => by have := mem_initCells hc; omega]
        simp [hv]
      · simp [cellsFind]
    | succ k =>
      have hk := ih (o + 1) k
      rw [show o + 1 + k = o + (k + 1) by omega] at hk
      unfold initCells
      split
      · simpa using hk
      · simp only [cellsFind, show ¬o = o + (k + 1) by omega, if_false]
        simpa using hk

/-- The creation of a bank keeps the canonical form. -/
theorem Memory.createBank_wf {m m' : Memory} {size : Int} {fill : Value} {init : List Value} {allocated : Bool} (hm : m.wf)
    (h : m.createBank size fill init allocated = some m') : m'.wf := by
  unfold Memory.createBank at h
  split at h
  · cases h
  · rename_i hsize
    injection h with h
    subst h
    intro b hb
    simp only [List.mem_append, List.mem_singleton] at hb
    rcases hb with hb | rfl
    · exact hm b hb
    · refine ⟨?_, ?_, ?_⟩
      · have := not_or.1 hsize
        simp only
        omega
      · exact initCells_rising _ _ _
      · intro c hc
        obtain ⟨_, h2, h3⟩ := mem_initCells hc
        refine ⟨?_, h3⟩
        simp only [List.length_take] at h2 ⊢
        omega

end Sys2Proof.Machine
end

