-- ==== Sys2Proof/Laws/PerInstr.lean ====
section
/-! SUPPORT. Statements made per instruction: the family EncodeLength, that the encoder writes as many bytes as the table gives
the instruction (spec R96, R101). -/

namespace Sys2Proof.Laws.EncodeLength

/-- The encoder writes the instruction's length under every encoding, and one opcode byte first. -/
def Statement (i : Instr) : Prop :=
  ∀ e : Encoding, (encode e i).length = i.opcode.length ∧ (encode e i).head? = some (e.opcodeOf.byteOf i.opcode)

theorem add : Statement .add := fun e => ⟨encode_length e _, rfl⟩
theorem sub : Statement .sub := fun e => ⟨encode_length e _, rfl⟩
theorem mul : Statement .mul := fun e => ⟨encode_length e _, rfl⟩
theorem div : Statement .div := fun e => ⟨encode_length e _, rfl⟩
theorem sqrt : Statement .sqrt := fun e => ⟨encode_length e _, rfl⟩
theorem writeR (rs ri : Reg) : Statement (.writeR rs ri) := fun e => ⟨encode_length e _, rfl⟩
theorem writeA (rs : Reg) (addr : Int) : Statement (.writeA rs addr) := fun e => ⟨encode_length e _, rfl⟩
theorem readR (ri rd : Reg) : Statement (.readR ri rd) := fun e => ⟨encode_length e _, rfl⟩
theorem readA (addr : Int) (rd : Reg) : Statement (.readA addr rd) := fun e => ⟨encode_length e _, rfl⟩
theorem pushV (d : Value) : Statement (.pushV d) := fun e => ⟨encode_length e _, rfl⟩
theorem pushR (r : Reg) : Statement (.pushR r) := fun e => ⟨encode_length e _, rfl⟩
theorem pop : Statement .pop := fun e => ⟨encode_length e _, rfl⟩
theorem popR (r : Reg) : Statement (.popR r) := fun e => ⟨encode_length e _, rfl⟩
theorem input : Statement .input := fun e => ⟨encode_length e _, rfl⟩
theorem inputR (r : Reg) : Statement (.inputR r) := fun e => ⟨encode_length e _, rfl⟩
theorem output : Statement .output := fun e => ⟨encode_length e _, rfl⟩
theorem outputR (r : Reg) : Statement (.outputR r) := fun e => ⟨encode_length e _, rfl⟩
theorem jmp (t : Int) : Statement (.jmp t) := fun e => ⟨encode_length e _, rfl⟩
theorem jmpl (t : Int) : Statement (.jmpl t) := fun e => ⟨encode_length e _, rfl⟩
theorem jmpg (t : Int) : Statement (.jmpg t) := fun e => ⟨encode_length e _, rfl⟩
theorem call (t : Int) : Statement (.call t) := fun e => ⟨encode_length e _, rfl⟩
theorem ret : Statement .ret := fun e => ⟨encode_length e _, rfl⟩
theorem hlt : Statement .hlt := fun e => ⟨encode_length e _, rfl⟩

end Sys2Proof.Laws.EncodeLength
end

