-- ==== Sys2Proof/Laws/Rounding.lean ====
section
/-! SUPPORT. What the arithmetic operations answer, in real numbers (spec R141 to R149): one lemma for each of `round`, `add`,
`sub`, `mul`, `div` and `sqrt`. -/

namespace Sys2Proof.Laws

open Sys2Proof.Machine Sys2Proof.Claims


/-- Of the multiples of `P` one within half of `P` from `y` is nearest, and another as near makes a tie. -/
theorem mult_near {y P : ℝ} (hP : 0 < P) {n m : ℤ} (hA : 2 * |n * P - y| ≤ P) (hne : m ≠ n) :
    |n * P - y| ≤ |m * P - y| ∧ (|n * P - y| = |m * P - y| → 2 * |n * P - y| = P) := by
  have h1 : P ≤ |(m * P - y) - (n * P - y)| := by
    have : (m * P - y) - (n * P - y) = ((m - n : ℤ) : ℝ) * P := by push_cast; ring
    rw [this, abs_mul, abs_of_pos hP]
    have : (1 : ℝ) ≤ |((m - n : ℤ) : ℝ)| := by
      exact_mod_cast Int.one_le_abs (sub_ne_zero.2 hne)
    nlinarith
  have h2 := abs_sub (m * P - y) (n * P - y)
  constructor
  · linarith
  · intro h; linarith

/-- `scaled` through the magnitude. -/
theorem scaled_eq (v : Value) : F64.scaled v = if F64.sign v then -(F64.unitsOf (F64.magnitude v) : Int) else (F64.unitsOf (F64.magnitude v) : Int) := by
  rw [F64.scaled, F64.scaledMag_eq]

/-- A multiple of `2^k` within half of `2^k` from `y` is as near to `y` as any value's units, and even on a tie. -/
theorem near_all {y : ℝ} {k n : ℕ} (hy : 0 < y)
    (hC : (2 ^ 52 * 2 ^ k ≤ y ∧ y < 2 ^ 53 * 2 ^ k) ∨ (k = 0 ∧ y < 2 ^ 53))
    (hA : 2 * |(n : ℝ) * 2 ^ k - y| ≤ 2 ^ k)
    (hB : 2 * |(n : ℝ) * 2 ^ k - y| = 2 ^ k → n % 2 = 0) (W : ℤ)
    (hW : ∃ mag, W = F64.unitsOf mag ∨ W = -(F64.unitsOf mag : ℤ)) :
    |(n : ℝ) * 2 ^ k - y| ≤ |(W : ℝ) - y| ∧
    ((W : ℝ) ≠ n * 2 ^ k → |(n : ℝ) * 2 ^ k - y| = |(W : ℝ) - y| → n % 2 = 0) := by
  have hP : (0 : ℝ) < 2 ^ k := by positivity
  have key : ∀ m : ℤ, |(n : ℝ) * 2 ^ k - y| ≤ |(m : ℝ) * 2 ^ k - y| ∧
      ((m : ℝ) * 2 ^ k ≠ n * 2 ^ k → |(n : ℝ) * 2 ^ k - y| = |(m : ℝ) * 2 ^ k - y| → n % 2 = 0) := by
    intro m
    by_cases hm : m = n
    · subst hm; simp
    · have := mult_near (n := (n : ℤ)) hP (by simpa using hA) hm
      simp only [Int.cast_natCast] at this
      exact ⟨this.1, fun _ h => hB (this.2 h)⟩
  obtain ⟨mag, hW⟩ := hW
  have hu : (0 : ℝ) ≤ (F64.unitsOf mag : ℝ) := by positivity
  rcases hW with rfl | rfl
  · by_cases hd : 2 ^ k ∣ F64.unitsOf mag
    · obtain ⟨c, hc⟩ := hd
      have : ((F64.unitsOf mag : ℤ) : ℝ) = ((c : ℤ) : ℝ) * 2 ^ k := by rw [hc]; push_cast; ring
      rw [this]
      exact key c
    · have hlt : F64.unitsOf mag < 2 ^ 52 * 2 ^ k := Nat.lt_of_not_le fun h => hd (F64.dvd_unitsOf h)
      have hltr : (F64.unitsOf mag : ℝ) < 2 ^ 52 * 2 ^ k := by exact_mod_cast hlt
      have hk : k ≠ 0 := by rintro rfl; simp at hd
      have hC1 : 2 ^ 52 * 2 ^ k ≤ y := by
        rcases hC with h | h
        · exact h.1
        · exact absurd h.1 hk
      have h0 := (key (2 ^ 52)).1
      rw [abs_of_nonpos (a := ((2 ^ 52 : ℤ) : ℝ) * 2 ^ k - y) (by push_cast; linarith)] at h0
      push_cast at h0
      have habs : |((F64.unitsOf mag : ℤ) : ℝ) - y| = y - F64.unitsOf mag := by
        rw [abs_of_nonpos (by push_cast; linarith)]; push_cast; ring
      rw [habs]
      constructor
      · linarith
      · intro _ h; linarith
  · have h0 := key 0
    have hy0 : |((0 : ℤ) : ℝ) * 2 ^ k - y| = y := by simp [abs_of_pos hy]
    rw [hy0] at h0
    have habs : |((-(F64.unitsOf mag : ℤ) : ℤ) : ℝ) - y| = y + F64.unitsOf mag := by
      rw [abs_of_nonpos (by push_cast; linarith)]; push_cast; ring
    rw [habs]
    constructor
    · linarith
    · intro hne h
      have hu0 : (F64.unitsOf mag : ℝ) = 0 := by linarith
      refine h0.2 ?_ (by linarith)
      intro hc
      apply hne
      push_cast
      rw [hu0]
      push_cast at hc
      linarith

/-- The pattern of `n * 2^k` units: the exponent field counts `k`, and the hidden bit of `n` carries into it. -/
def pack (neg : Bool) (k n : ℕ) : Value :=
  if F64.infMagnitude ≤ k * 2 ^ 52 + n then F64.inf neg else F64.withSign neg (k * 2 ^ 52 + n)

theorem infMag_lt : F64.infMagnitude < 2 ^ 63 := by norm_num [F64.infMagnitude]

/-- Every value's units are some magnitude's, with a sign. -/
theorem finite_W (w : Value) : ∃ mag, F64.scaled w = F64.unitsOf mag ∨ F64.scaled w = -(F64.unitsOf mag : ℤ) := by
  refine ⟨F64.magnitude w, ?_⟩
  rw [scaled_eq]
  split
  · exact .inr rfl
  · exact .inl rfl

/-- What makes `pack neg k n` the rounding of `y` units. -/
theorem rounds_core {y : ℝ} {k n : ℕ} (neg : Bool) (hy : 0 < y)
    (hC : (2 ^ 52 * 2 ^ k ≤ y ∧ y < 2 ^ 53 * 2 ^ k) ∨ (k = 0 ∧ y < 2 ^ 53))
    (hA : 2 * |(n : ℝ) * 2 ^ k - y| ≤ 2 ^ k)
    (hB : 2 * |(n : ℝ) * 2 ^ k - y| = 2 ^ k → n % 2 = 0) :
    RoundsTo ((if neg then -1 else 1) * (y / 2 ^ 1074)) (pack neg k n) := by
  have hP : (0 : ℝ) < 2 ^ k := by positivity
  have hAl := abs_le.1 (show |(n : ℝ) * 2 ^ k - y| ≤ 2 ^ k / 2 by linarith)
  have hn53 : n ≤ 2 ^ 53 := by
    have hyu : y < 2 ^ 53 * 2 ^ k := by
      rcases hC with h | ⟨rfl, h⟩
      · exact h.2
      · simpa using h
    have : (n : ℝ) * 2 ^ k < (2 ^ 53 + 1) * 2 ^ k := by nlinarith [hAl.2]
    have : (n : ℝ) < 2 ^ 53 + 1 := lt_of_mul_lt_mul_right this hP.le
    have : n < 2 ^ 53 + 1 := by exact_mod_cast this
    omega
  have hk52 : k = 0 ∨ 2 ^ 52 ≤ n := by
    rcases hC with h | h
    · right
      have : (2 ^ 52 - 1 : ℝ) * 2 ^ k < n * 2 ^ k := by nlinarith [hAl.1, h.1]
      have : (2 ^ 52 - 1 : ℝ) < n := lt_of_mul_lt_mul_right this hP.le
      have : (2 ^ 52 - 1 : ℤ) < n := by exact_mod_cast this
      omega
    · exact .inl h.1
  have hpack := F64.unitsOf_pack hn53 hk52
  have hx0 : 0 < y / 2 ^ 1074 := by positivity
  have hxabs : |(if neg then -1 else 1) * (y / 2 ^ 1074)| = y / 2 ^ 1074 := by
    cases neg <;> simp [abs_of_pos hx0]
  have hxs : (if neg then (-1 : ℝ) else 1) * (y / 2 ^ 1074) * 2 ^ 1074 = (if neg then -1 else 1) * y := by
    rw [mul_assoc, div_mul_cancel₀ _ (by positivity)]
  have hsgn : F64.sign (pack neg k n) = neg := by
    unfold pack
    split
    · exact F64.sign_withSign _ infMag_lt
    · exact F64.sign_withSign _ (by have := infMag_lt; omega)
  have huinf : F64.unitsOf F64.infMagnitude = 2 ^ 2098 := by
    have := F64.unitsOf_pack (k := 2046) (n := 2 ^ 52) (by norm_num) (.inr le_rfl)
    rw [show F64.infMagnitude = 2046 * 2 ^ 52 + 2 ^ 52 by norm_num [F64.infMagnitude], this, ← pow_add]
  have hcut : (2 : ℝ) ^ 1024 - 2 ^ 970 ≤ y / 2 ^ 1074 ↔ (2 : ℝ) ^ 2098 - 2 ^ 2044 ≤ y := by
    rw [le_div_iff₀ (by positivity), sub_mul, ← pow_add, ← pow_add]
  have hov : F64.infMagnitude ≤ k * 2 ^ 52 + n ↔ (2 : ℝ) ^ 2098 - 2 ^ 2044 ≤ y := by
    have hmono : F64.infMagnitude ≤ k * 2 ^ 52 + n ↔ 2 ^ 2098 ≤ n * 2 ^ k := by
      rw [← F64.unitsOf_strictMono.le_iff_le, huinf, hpack]
    rw [hmono]
    have e1 : (2 : ℝ) ^ 2098 = 2 ^ 53 * 2 ^ 2045 := by rw [← pow_add]
    have e2 : (2 : ℝ) ^ 2044 = 2 ^ 2045 / 2 := by rw [show (2045:ℕ) = 2044 + 1 from rfl, pow_succ]; field_simp
    have hcast : 2 ^ 2098 ≤ n * 2 ^ k ↔ (2 : ℝ) ^ 53 * 2 ^ 2045 ≤ n * 2 ^ k := by
      rw [← e1]; exact_mod_cast Iff.rfl
    rw [hcast, e1, e2]
    clear hcast hmono e1 e2 hcut huinf hxs hxabs hx0 hsgn
    rcases lt_trichotomy k 2045 with hk | rfl | hk
    · have hpw : (2 : ℝ) ^ (k + 1) ≤ 2 ^ 2045 := pow_le_pow_right₀ (by norm_num) hk
      rw [pow_succ] at hpw
      have hyu : y < 2 ^ 53 * 2 ^ k := by
        rcases hC with h | ⟨rfl, h⟩
        · exact h.2
        · simpa using h
      have hnr : (n : ℝ) ≤ 2 ^ 53 := by exact_mod_cast hn53
      have hp45 : (0 : ℝ) < 2 ^ 2045 := by positivity
      generalize (2 : ℝ) ^ 2045 = Q at *
      generalize (2 : ℝ) ^ k = P at *
      constructor
      · intro h
        nlinarith
      · intro h
        nlinarith
    · have hp45 : (0 : ℝ) < 2 ^ 2045 := by positivity
      have hC1 : y < 2 ^ 53 * 2 ^ 2045 := by
        rcases hC with h | h
        · exact h.2
        · omega
      clear hpack hk52 hC
      generalize (2 : ℝ) ^ 2045 = Q at *
      constructor
      · intro h
        have hn : (2:ℝ)^53 ≤ n := le_of_mul_le_mul_right h hp45
        have hn' : (n : ℝ) = 2 ^ 53 := le_antisymm (by exact_mod_cast hn53) hn
        rw [hn'] at hAl
        linarith [hAl.2]
      · intro h
        by_contra hlt
        have hlt' : n < 2 ^ 53 := by
          by_contra h2
          apply hlt
          have : (2 : ℝ) ^ 53 ≤ n := by exact_mod_cast Nat.le_of_not_lt h2
          nlinarith
        have hn1 : (n : ℝ) ≤ 2 ^ 53 - 1 := by
          have : n + 1 ≤ 2 ^ 53 := hlt'
          have : (n : ℝ) + 1 ≤ 2 ^ 53 := by exact_mod_cast this
          linarith
        have hmul : (n : ℝ) * Q ≤ (2 ^ 53 - 1) * Q := mul_le_mul_of_nonneg_right hn1 hp45.le
        have heq : (n : ℝ) * Q - y = -(Q / 2) := by
          apply le_antisymm
          · nlinarith
          · linarith [hAl.1]
        have hnQ : (n : ℝ) * Q = (2 ^ 53 - 1) * Q := by
          apply le_antisymm hmul
          linarith
        have hn2 : (n : ℝ) = 2 ^ 53 - 1 := mul_right_cancel₀ hp45.ne' hnQ
        have heven := hB (by rw [heq, abs_neg, abs_of_pos (by positivity)]; ring)
        have hn3 : n + 1 = 2 ^ 53 := by
          have : (n : ℝ) + 1 = 2 ^ 53 := by linarith
          exact_mod_cast this
        omega
    · have hpw : (2 : ℝ) ^ 2045 * 2 ≤ 2 ^ k := by
        have : (2 : ℝ) ^ 2046 ≤ 2 ^ k := pow_le_pow_right₀ (by norm_num) hk
        rwa [pow_succ (2:ℝ) 2045] at this
      have h52 : (2 : ℝ) ^ 52 ≤ n := by
        have : 2 ^ 52 ≤ n := by rcases hk52 with h | h; omega; exact h
        exact_mod_cast this
      have hC1 : 2 ^ 52 * 2 ^ k ≤ y := by
        rcases hC with h | h
        · exact h.1
        · omega
      have hp45 : (0 : ℝ) < 2 ^ 2045 := by positivity
      generalize (2 : ℝ) ^ 2045 = Q at *
      generalize (2 : ℝ) ^ k = P at *
      constructor
      · intro _
        nlinarith
      · intro _
        nlinarith
  refine ⟨?_, ?_, ?_⟩
  · rw [hsgn]
    cases neg
    · simp only [Bool.false_eq_true, if_false, one_mul]
      intro h; linarith
    · intro _; rfl
  · rw [hsgn]
    cases neg
    · intro _; rfl
    · simp only [if_true]
      intro h; linarith
  · rw [hxabs]
    by_cases hinf : F64.infMagnitude ≤ k * 2 ^ 52 + n
    · right
      refine ⟨hcut.2 (hov.1 hinf), ?_⟩
      unfold pack
      rw [if_pos hinf, F64.isInf_iff, F64.inf, F64.magnitude_withSign _ infMag_lt]
    · left
      have hmagv : F64.magnitude (pack neg k n) = k * 2 ^ 52 + n := by
        unfold pack
        rw [if_neg hinf, F64.magnitude_withSign _ (by have := infMag_lt; omega)]
      have hsc : (F64.scaled (pack neg k n) : ℝ) = (if neg then -1 else 1) * ((n : ℝ) * 2 ^ k) := by
        rw [scaled_eq, hsgn, hmagv, hpack]
        cases neg <;> simp
      rw [hxs]
      refine ⟨?_, ?_, ?_, ?_⟩
      · rw [← not_le, hcut, ← hov]; exact hinf
      · rw [F64.isFinite_iff, hmagv]; omega
      · intro w _
        rw [hsc]
        cases neg
        · simpa using (near_all hy hC hA hB (F64.scaled w) (finite_W w)).1
        · have h2 : ∃ mag, -F64.scaled w = F64.unitsOf mag ∨ -F64.scaled w = -(F64.unitsOf mag : ℤ) := by
            obtain ⟨m, h | h⟩ := finite_W w
            · exact ⟨m, .inr (by rw [h])⟩
            · exact ⟨m, .inl (by rw [h]; simp)⟩
          have := (near_all hy hC hA hB (-F64.scaled w) h2).1
          rw [← abs_neg, ← abs_neg ((F64.scaled w : ℝ) - _)]
          convert this using 2
          · simp; ring
          · push_cast; simp; ring
      · intro w _ hne htie
        rw [hsc] at htie
        have hpar : (pack neg k n).toNat % 2 = n % 2 := by
          rw [F64.toNat_eq, hmagv]
          split <;> omega
        rw [hpar]
        cases neg
        · refine (near_all hy hC hA hB (F64.scaled w) (finite_W w)).2 ?_ (by simpa using htie)
          intro h
          apply hne
          have h3 : (F64.scaled w : ℝ) = F64.scaled (pack false k n) := by rw [hsc, h]; simp
          exact_mod_cast h3
        · have h2 : ∃ mag, -F64.scaled w = F64.unitsOf mag ∨ -F64.scaled w = -(F64.unitsOf mag : ℤ) := by
            obtain ⟨m, h | h⟩ := finite_W w
            · exact ⟨m, .inr (by rw [h])⟩
            · exact ⟨m, .inl (by rw [h]; simp)⟩
          refine (near_all hy hC hA hB (-F64.scaled w) h2).2 ?_ ?_
          · intro h
            apply hne
            have h3 : (F64.scaled w : ℝ) = F64.scaled (pack true k n) := by
              rw [hsc]; push_cast at h; simp; linarith
            exact_mod_cast h3
          · rw [← abs_neg, ← abs_neg ((F64.scaled w : ℝ) - _)] at htie
            convert htie using 2
            · simp; ring
            · push_cast; simp; ring

/-- `roundAt` is within half a last place, even on a tie. -/
theorem roundAt_spec {num den : ℕ} (hd : 0 < den) (q : ℤ) :
    2 * |(F64.roundAt num den q : ℝ) * 2 ^ q - num / den| ≤ 2 ^ q ∧
    (2 * |(F64.roundAt num den q : ℝ) * 2 ^ q - num / den| = 2 ^ q → F64.roundAt num den q % 2 = 0) := by
  have gen : ∀ N D : ℕ, 0 < D → (N : ℝ) / D * 2 ^ q = num / den →
      2 * |(F64.divRoundEven N D : ℝ) * 2 ^ q - num / den| ≤ 2 ^ q ∧
      (2 * |(F64.divRoundEven N D : ℝ) * 2 ^ q - num / den| = 2 ^ q → F64.divRoundEven N D % 2 = 0) := by
    intro N D hD hr
    have hDr : (0 : ℝ) < D := by exact_mod_cast hD
    have hq : (0 : ℝ) < 2 ^ q := zpow_pos (by norm_num) q
    set n := F64.divRoundEven N D with hn
    have near := F64.divRoundEven_near N hD
    rw [← hn] at near
    have n1 : 2 * (N : ℝ) ≤ 2 * (n * D) + D := by exact_mod_cast near.1
    have n2 : 2 * ((n : ℝ) * D) ≤ 2 * N + D := by exact_mod_cast near.2
    have e : (n : ℝ) * 2 ^ q - num / den = (n * D - N) * (2 ^ q / D) := by
      rw [← hr]; field_simp
    have hc : (0 : ℝ) < 2 ^ q / D := by positivity
    have e2 : (2 : ℝ) ^ q = D * (2 ^ q / D) := by field_simp
    rw [e, abs_mul, abs_of_pos hc]
    have hab : 2 * |(n : ℝ) * D - N| ≤ D := by
      have := abs_le.2 ⟨(by linarith : -((D : ℝ) / 2) ≤ n * D - N), (by linarith : (n : ℝ) * D - N ≤ D / 2)⟩
      linarith
    constructor
    · calc 2 * (|(n : ℝ) * D - N| * (2 ^ q / D)) = (2 * |(n : ℝ) * D - N|) * (2 ^ q / D) := by ring
        _ ≤ D * (2 ^ q / D) := mul_le_mul_of_nonneg_right hab hc.le
        _ = _ := e2.symm
    · intro h
      have h2 : (2 * |(n : ℝ) * D - N|) * (2 ^ q / D) = D * (2 ^ q / D) := by rw [mul_assoc, h]; exact e2
      have h3 := mul_right_cancel₀ hc.ne' h2
      apply F64.divRoundEven_tie hD
      rw [← hn]
      rcases abs_cases ((n : ℝ) * D - N) with ⟨h4, _⟩ | ⟨h4, _⟩
      · right
        rw [h4] at h3
        have : 2 * ((n : ℝ) * D) = 2 * N + D := by linarith
        exact_mod_cast this
      · left
        rw [h4] at h3
        have : 2 * (N : ℝ) = 2 * (n * D) + D := by linarith
        exact_mod_cast this
  unfold F64.roundAt
  split
  · rename_i h
    refine gen _ _ (by positivity) ?_
    obtain ⟨j, rfl⟩ := Int.eq_ofNat_of_zero_le h
    simp only [Int.toNat_natCast, zpow_natCast]
    have : (den : ℝ) ≠ 0 := by positivity
    push_cast
    field_simp
  · rename_i h
    refine gen _ _ hd ?_
    obtain ⟨j, rfl⟩ : ∃ j : ℕ, q = -(j : ℤ) := ⟨(-q).toNat, by omega⟩
    simp only [neg_neg, Int.toNat_natCast]
    have : (den : ℝ) ≠ 0 := by positivity
    rw [zpow_neg, zpow_natCast]
    push_cast
    field_simp

/-- What `round` packs. -/
theorem round_shape (neg : Bool) {num den : ℕ} (hn : 0 < num) (hd : 0 < den) :
    ∃ k n : ℕ, F64.round neg num den = pack neg k n ∧
      ((2 ^ 52 * 2 ^ k ≤ (num : ℝ) / den * 2 ^ 1074 ∧ (num : ℝ) / den * 2 ^ 1074 < 2 ^ 53 * 2 ^ k) ∨
        (k = 0 ∧ (num : ℝ) / den * 2 ^ 1074 < 2 ^ 53)) ∧
      2 * |(n : ℝ) * 2 ^ k - (num : ℝ) / den * 2 ^ 1074| ≤ 2 ^ k ∧
      (2 * |(n : ℝ) * 2 ^ k - (num : ℝ) / den * 2 ^ 1074| = 2 ^ k → n % 2 = 0) := by
  have hnr : (0 : ℝ) < num := by exact_mod_cast hn
  have hdr : (0 : ℝ) < den := by exact_mod_cast hd
  set q := F64.lastPlace 53 (-1074) num den with hq
  have hq1 : -1074 ≤ q := by rw [hq]; exact le_max_right _ _
  obtain ⟨k, hk⟩ : ∃ k : ℕ, q + 1074 = k := ⟨(q + 1074).toNat, by omega⟩
  have hqk : q = k - 1074 := by omega
  have hround : F64.round neg num den = pack neg k (F64.roundAt num den q) := by
    unfold F64.round
    rw [if_neg hn.ne']
    unfold F64.roundPos
    rw [← hq]
    simp only [hk, Int.toNat_natCast]
    rfl
  have hpow : (2 : ℝ) ^ q * 2 ^ 1074 = 2 ^ k := by
    rw [hqk, zpow_sub₀ (by norm_num), zpow_natCast, show (1074 : ℤ) = ((1074 : ℕ) : ℤ) from rfl, zpow_natCast]
    rw [div_mul_cancel₀ _ (by positivity)]
  have hT : (0 : ℝ) < 2 ^ 1074 := by positivity
  have hfl := F64.floorLog2_spec hn hd
  have spec := roundAt_spec (num := num) hd q
  have habs : ∀ n : ℕ, |(n : ℝ) * 2 ^ k - num / den * 2 ^ 1074| = |(n : ℝ) * 2 ^ q - num / den| * 2 ^ 1074 := by
    intro n
    rw [← hpow, ← abs_of_pos hT, ← abs_mul, abs_of_pos hT]
    congr 1
    ring
  refine ⟨k, _, hround, ?_, ?_, ?_⟩
  · have hlog : F64.floorLog2 num den ≤ q + 52 := by
      rw [hq]; unfold F64.lastPlace
      have := le_max_left (F64.floorLog2 num den - ((53 : ℕ) - 1 : ℕ)) (-1074)
      push_cast at this
      norm_num at this ⊢
      omega
    have up : (num : ℝ) / den * 2 ^ 1074 < 2 ^ 53 * 2 ^ k := by
      have h1 : (2 : ℝ) ^ (F64.floorLog2 num den + 1) ≤ 2 ^ (q + 53) := zpow_le_zpow_right₀ (by norm_num) (by omega)
      have h2 : (num : ℝ) / den < 2 ^ q * 2 ^ 53 := by
        calc _ < _ := hfl.2
          _ ≤ _ := h1
          _ = _ := by rw [zpow_add₀ (by norm_num)]; rfl
      rw [← hpow]
      calc _ < 2 ^ q * 2 ^ 53 * 2 ^ 1074 := mul_lt_mul_of_pos_right h2 hT
        _ = _ := by ring
    rcases Nat.eq_zero_or_pos k with h0 | hpos
    · right
      refine ⟨h0, ?_⟩
      rw [h0] at up
      simpa using up
    · left
      refine ⟨?_, up⟩
      have hlog2 : F64.floorLog2 num den = q + 52 := by
        have : q = F64.floorLog2 num den - ((53 : ℕ) - 1 : ℕ) := by
          rw [hq]; unfold F64.lastPlace
          apply max_eq_left
          by_contra hc
          have : q = -1074 := by rw [hq]; unfold F64.lastPlace; exact max_eq_right (by omega)
          omega
        push_cast at this
        omega
      have h1 := hfl.1
      rw [hlog2, zpow_add₀ (by norm_num)] at h1
      rw [← hpow]
      calc (2 : ℝ) ^ 52 * (2 ^ q * 2 ^ 1074) = 2 ^ q * 2 ^ (52 : ℤ) * 2 ^ 1074 := by
            rw [show ((2 : ℝ) ^ (52 : ℤ)) = 2 ^ 52 from rfl]; ring
        _ ≤ _ := mul_le_mul_of_nonneg_right h1 hT.le
  · rw [habs, ← hpow, ← mul_assoc]
    exact mul_le_mul_of_nonneg_right spec.1 hT.le
  · intro h
    rw [habs, ← hpow, ← mul_assoc] at h
    exact spec.2 (mul_right_cancel₀ hT.ne' h)

/-- `round` answers what R141 asks: the nearest value, ties to even, overflow to an infinity. -/
theorem round_spec (neg : Bool) {num den : ℕ} (hn : 0 < num) (hd : 0 < den) :
    RoundsTo ((if neg then -1 else 1) * ((num : ℝ) / den)) (F64.round neg num den) := by
  obtain ⟨k, n, h, hC, hA, hB⟩ := round_shape neg hn hd
  have hnr : (0 : ℝ) < num := by exact_mod_cast hn
  have hdr : (0 : ℝ) < den := by exact_mod_cast hd
  have := rounds_core neg (y := (num : ℝ) / den * 2 ^ 1074) (by positivity) hC hA hB
  rwa [mul_div_cancel_right₀ _ (by positivity), ← h] at this

theorem denotes_val {a : Value} {x : ℝ} (h : Denotes a x) : x = F64.scaled a / 2 ^ 1074 := by
  rw [h.2, mul_div_cancel_right₀ _ (by positivity)]

theorem fin_not_inf {a : Value} (h : F64.isFinite a = true) : F64.isInf a = false ∧ F64.isNaN a = false := by
  have h1 := (F64.isFinite_iff a).1 h
  constructor
  · rw [Bool.eq_false_iff, ne_eq, F64.isInf_iff]; omega
  · rw [Bool.eq_false_iff, ne_eq, F64.isNaN_iff]; omega

theorem inf_not {a : Value} (h : F64.isInf a = true) : F64.isFinite a = false ∧ F64.isNaN a = false ∧ F64.isZero a = false := by
  have h1 := (F64.isInf_iff a).1 h
  have : 0 < F64.infMagnitude := by norm_num [F64.infMagnitude]
  refine ⟨?_, ?_, ?_⟩
  · rw [Bool.eq_false_iff, ne_eq, F64.isFinite_iff]; omega
  · rw [Bool.eq_false_iff, ne_eq, F64.isNaN_iff]; omega
  · rw [Bool.eq_false_iff, ne_eq, F64.isZero_iff]; omega

theorem inf_eq {a : Value} (h : F64.isInf a = true) : a = F64.inf (F64.sign a) := by
  rw [F64.inf, ← (F64.isInf_iff a).1 h, F64.withSign_sign_magnitude]

theorem unit_cast : ((F64.unit : ℕ) : ℝ) = 2 ^ 1074 := by
  rw [F64.unit]; push_cast; rfl

/-- Everything about `add`. -/
theorem isSum_add (a b : Value) : IsSum a b (F64.add a b) := by
  refine ⟨?_, ?_, ?_, ?_, ?_⟩
  · intro h
    unfold F64.add
    rw [if_pos]
    simpa using h
  · intro ha hb
    unfold F64.add
    simp only [(inf_not ha).2.1, (inf_not hb).2.1, ha, hb, Bool.or_self, Bool.false_eq_true, if_false, if_true, Bool.true_and]
    by_cases h : F64.sign a = F64.sign b <;> simp [h]
  · intro ha hb
    unfold F64.add
    simp [(inf_not ha).2.1, (fin_not_inf hb).1, (fin_not_inf hb).2, ha]
  · intro ha hb
    unfold F64.add
    simp [(inf_not hb).2.1, (fin_not_inf ha).1, (fin_not_inf ha).2, hb]
  · intro x y hx hy
    have hxy : x + y = ((F64.scaled a + F64.scaled b : ℤ) : ℝ) / 2 ^ 1074 := by
      rw [denotes_val hx, denotes_val hy]; push_cast; ring
    have hadd : F64.add a b = if F64.scaled a + F64.scaled b = 0 then some (F64.zero (F64.sign a && F64.sign b))
        else some (F64.round (decide (F64.scaled a + F64.scaled b < 0)) (F64.scaled a + F64.scaled b).natAbs F64.unit) := by
      unfold F64.add
      simp [(fin_not_inf hx.1).1, (fin_not_inf hx.1).2, (fin_not_inf hy.1).1, (fin_not_inf hy.1).2]
    have hT : (0 : ℝ) < 2 ^ 1074 := by positivity
    constructor
    · intro h
      rw [hxy, div_eq_zero_iff] at h
      have : F64.scaled a + F64.scaled b = 0 := by
        rcases h with h | h
        · exact_mod_cast h
        · exact absurd h hT.ne'
      rw [hadd, if_pos this]
    · intro h
      have hne : F64.scaled a + F64.scaled b ≠ 0 := by
        intro h0
        apply h
        rw [hxy, h0]; simp
      rw [hadd, if_neg hne]
      refine ⟨_, rfl, ?_⟩
      have := round_spec (decide (F64.scaled a + F64.scaled b < 0)) (num := (F64.scaled a + F64.scaled b).natAbs) (den := F64.unit) (by omega) (by unfold F64.unit; positivity)
      rw [unit_cast] at this
      convert this using 1
      rw [hxy]
      generalize F64.scaled a + F64.scaled b = z at *
      rcases lt_or_ge z 0 with hz | hz
      · rw [decide_eq_true hz, if_pos rfl]
        have : ((z.natAbs : ℕ) : ℝ) = -z := by
          have : ((z.natAbs : ℕ) : ℤ) = -z := by omega
          have := congrArg (Int.cast (R := ℝ)) this
          rw [Int.cast_neg, Int.cast_natCast] at this
          exact this
        rw [this]; ring
      · rw [decide_eq_false (by omega), if_neg (by simp)]
        have : ((z.natAbs : ℕ) : ℝ) = z := by
          have : ((z.natAbs : ℕ) : ℤ) = z := by omega
          have := congrArg (Int.cast (R := ℝ)) this
          rw [Int.cast_natCast] at this
          exact this
        rw [this]; ring

theorem sign_neg (b : Value) : F64.sign (F64.neg b) = !F64.sign b := F64.sign_withSign _ (F64.magnitude_lt b)
theorem mag_neg (b : Value) : F64.magnitude (F64.neg b) = F64.magnitude b := F64.magnitude_withSign _ (F64.magnitude_lt b)
theorem isNaN_neg (b : Value) : F64.isNaN (F64.neg b) = F64.isNaN b := by
  rw [Bool.eq_iff_iff, F64.isNaN_iff, F64.isNaN_iff, mag_neg]
theorem isInf_neg (b : Value) : F64.isInf (F64.neg b) = F64.isInf b := by
  rw [Bool.eq_iff_iff, F64.isInf_iff, F64.isInf_iff, mag_neg]
theorem isFinite_neg (b : Value) : F64.isFinite (F64.neg b) = F64.isFinite b := by
  rw [Bool.eq_iff_iff, F64.isFinite_iff, F64.isFinite_iff, mag_neg]
theorem scaled_neg (b : Value) : F64.scaled (F64.neg b) = -F64.scaled b := by
  rw [scaled_eq, scaled_eq, sign_neg, mag_neg]; cases F64.sign b <;> simp

/-- Everything about `sub`. -/
theorem isDiff_sub (a b : Value) : IsDifference a b (F64.sub a b) := by
  have h := isSum_add a (F64.neg b)
  obtain ⟨h1, h2, h3, h4, h5⟩ := h
  rw [isNaN_neg] at h1
  rw [isInf_neg] at h2 h4
  rw [isFinite_neg] at h3
  refine ⟨h1, ?_, h3, ?_, ?_⟩
  · intro ha hb
    have := h2 ha hb
    rw [sign_neg] at this
    unfold F64.sub
    rw [this]
    cases F64.sign a <;> cases F64.sign b <;> rfl
  · intro ha hb
    unfold F64.sub
    rw [h4 ha hb, inf_eq (a := F64.neg b) (by rw [isInf_neg]; exact hb), sign_neg]
  · intro x y hx hy
    have hy' : Denotes (F64.neg b) (-y) := by
      refine ⟨by rw [isFinite_neg]; exact hy.1, ?_⟩
      rw [scaled_neg]; push_cast; rw [hy.2]; ring
    have := h5 x (-y) hx hy'
    rw [sign_neg, ← sub_eq_add_neg] at this
    exact this

theorem scaled_abs_cast (a : Value) : ((F64.scaled a : ℤ) : ℝ) = (if F64.sign a then -1 else 1) * (F64.scaledMag a : ℝ) := by
  rw [F64.scaled]; split <;> simp

theorem scaledMag_zero_iff (a : Value) : F64.scaledMag a = 0 ↔ F64.isZero a = true := by
  rw [F64.scaledMag_eq, F64.isZero_iff]
  constructor
  · intro h
    rw [← F64.unitsOf_zero] at h
    exact F64.unitsOf_strictMono.injective h
  · intro h; rw [h, F64.unitsOf_zero]

theorem denotes_zero_iff {a : Value} {x : ℝ} (h : Denotes a x) : x = 0 ↔ F64.scaledMag a = 0 := by
  rw [denotes_val h, scaled_abs_cast, div_eq_zero_iff]
  have : (2 : ℝ) ^ 1074 ≠ 0 := by positivity
  simp only [this, or_false, mul_eq_zero, Nat.cast_eq_zero, or_iff_right_iff_imp]
  intro h; split at h <;> norm_num at h

/-- Everything about `mul`. -/
theorem isProd_mul (a b : Value) : IsProduct a b (F64.mul a b) := by
  refine ⟨?_, ?_, ?_, ?_, ?_, ?_⟩
  · intro h
    unfold F64.mul
    rw [if_pos]
    simpa using h
  · intro ha hb
    have hbn : F64.isNaN b = false := by
      rw [Bool.eq_false_iff, ne_eq, F64.isNaN_iff]; rw [F64.isZero_iff] at hb; omega
    unfold F64.mul
    simp [(inf_not ha).2.1, hbn, ha, hb]
  · intro ha hb
    have hbn : F64.isNaN a = false := by
      rw [Bool.eq_false_iff, ne_eq, F64.isNaN_iff]; rw [F64.isZero_iff] at ha; omega
    unfold F64.mul
    simp [(inf_not hb).2.1, hbn, ha, hb]
  · intro ha hb hz
    unfold F64.mul
    simp [(inf_not ha).2.1, (inf_not ha).2.2, ha, hb, hz]
  · intro ha hz hb
    unfold F64.mul
    simp [(inf_not hb).2.1, (inf_not hb).2.2, ha, hb, hz]
  · intro x y hx hy
    have hm : F64.mul a b = some (F64.round (F64.sign a != F64.sign b) (F64.scaledMag a * F64.scaledMag b) (F64.unit * F64.unit)) := by
      unfold F64.mul
      simp [(fin_not_inf hx.1).1, (fin_not_inf hx.1).2, (fin_not_inf hy.1).1, (fin_not_inf hy.1).2]
    constructor
    · intro h
      rw [hm]
      rw [mul_eq_zero, denotes_zero_iff hx, denotes_zero_iff hy] at h
      unfold F64.round
      rw [if_pos (Nat.mul_eq_zero.2 h)]
    · intro h
      rw [hm]
      rw [ne_eq, mul_eq_zero, denotes_zero_iff hx, denotes_zero_iff hy] at h
      refine ⟨_, rfl, ?_⟩
      have := round_spec (F64.sign a != F64.sign b) (num := F64.scaledMag a * F64.scaledMag b) (den := F64.unit * F64.unit)
        (Nat.pos_of_ne_zero fun h0 => h (Nat.mul_eq_zero.1 h0)) (by unfold F64.unit; positivity)
      convert this using 1
      rw [denotes_val hx, denotes_val hy, scaled_abs_cast, scaled_abs_cast]
      push_cast
      rw [unit_cast]
      cases F64.sign a <;> cases F64.sign b <;> simp <;> ring

/-- Everything about `div`. -/
theorem isQuot_div (a b : Value) : IsQuotient a b (F64.div a b) := by
  have zero_not : ∀ {v : Value}, F64.isZero v = true → F64.isNaN v = false ∧ F64.isInf v = false := by
    intro v h
    rw [F64.isZero_iff] at h
    rw [Bool.eq_false_iff, Bool.eq_false_iff, ne_eq, ne_eq, F64.isNaN_iff, F64.isInf_iff, h]
    decide
  refine ⟨?_, ?_, ?_, ?_, ?_, ?_, ?_⟩
  · intro h
    unfold F64.div
    rw [if_pos]
    simpa using h
  · intro ha hb
    unfold F64.div
    simp [(inf_not ha).2.1, (inf_not hb).2.1, ha, hb]
  · intro ha hb
    unfold F64.div
    simp [(inf_not ha).2.1, (fin_not_inf hb).1, (fin_not_inf hb).2, ha]
  · intro ha hb
    unfold F64.div
    simp [(inf_not hb).2.1, (fin_not_inf ha).1, (fin_not_inf ha).2, hb]
  · intro x y hx hy hy0
    have hbz : F64.scaledMag b ≠ 0 := fun h => hy0 ((denotes_zero_iff hy).2 h)
    have hz : F64.isZero b = false := by
      rw [Bool.eq_false_iff, ne_eq, ← scaledMag_zero_iff]; exact hbz
    have hm : F64.div a b = some (F64.round (F64.sign a != F64.sign b) (F64.scaledMag a) (F64.scaledMag b)) := by
      unfold F64.div
      simp [(fin_not_inf hx.1).1, (fin_not_inf hx.1).2, (fin_not_inf hy.1).1, (fin_not_inf hy.1).2, hz]
    constructor
    · intro h
      rw [hm]
      unfold F64.round
      rw [if_pos ((denotes_zero_iff hx).1 h)]
    · intro h
      rw [hm]
      refine ⟨_, rfl, ?_⟩
      have := round_spec (F64.sign a != F64.sign b) (num := F64.scaledMag a) (den := F64.scaledMag b)
        (Nat.pos_of_ne_zero fun h0 => h ((denotes_zero_iff hx).2 h0)) (Nat.pos_of_ne_zero hbz)
      convert this using 1
      have hbr : (F64.scaledMag b : ℝ) ≠ 0 := by exact_mod_cast hbz
      rw [denotes_val hx, denotes_val hy, scaled_abs_cast, scaled_abs_cast, div_div_div_cancel_right₀ (by positivity)]
      cases F64.sign a <;> cases F64.sign b <;> simp <;> ring
  · intro ha hb
    unfold F64.div
    simp [zero_not ha, zero_not hb, ha, hb]
  · intro hf ha hb
    unfold F64.div
    simp [(fin_not_inf hf).1, (fin_not_inf hf).2, zero_not hb, ha, hb]

/-- a dyadic multiple of the cell width cannot separate two points of one open cell -/
theorem cell {r : ℕ} {w y y' : ℝ} (hw : 0 < w) (h1 : r * w < y) (h1' : r * w < y') (h2 : y < (r + 1) * w) (h2' : y' < (r + 1) * w)
    (c : ℤ) : (c * w ≤ y ↔ c * w ≤ y') ∧ (y ≤ c * w ↔ y' ≤ c * w) ∧ c * w ≠ y' ∧ (y < c * w ↔ y' < c * w) := by
  have hlo : ∀ z : ℝ, r * w < z → z < (r + 1) * w → (c ≤ r → c * w < z) ∧ ((r : ℤ) + 1 ≤ c → z < c * w) := by
    intro z ha hb
    constructor
    · intro h
      have : (c : ℝ) ≤ r := by exact_mod_cast h
      nlinarith
    · intro h
      have : (r : ℝ) + 1 ≤ c := by exact_mod_cast h
      nlinarith
  rcases le_or_gt c r with h | h
  · have a := (hlo y h1 h2).1 h
    have b := (hlo y' h1' h2').1 h
    exact ⟨⟨fun _ => b.le, fun _ => a.le⟩, ⟨fun q => absurd q a.not_ge, fun q => absurd q b.not_ge⟩, b.ne, ⟨fun q => absurd q a.le.not_gt, fun q => absurd q b.le.not_gt⟩⟩
  · have a := (hlo y h1 h2).2 h
    have b := (hlo y' h1' h2').2 h
    exact ⟨⟨fun q => absurd q a.not_ge, fun q => absurd q b.not_ge⟩, ⟨fun _ => b.le, fun _ => a.le⟩, b.ne', ⟨fun _ => b, fun _ => a⟩⟩

/-- Everything about `sqrt`. -/
theorem isRoot_sqrt (a : Value) : IsRoot a (F64.sqrt a) := by
  refine ⟨?_, ?_, ?_, ?_⟩
  · intro h; unfold F64.sqrt; rw [if_pos h]
  · intro h
    have : F64.isNaN a = false := by
      rw [Bool.eq_false_iff, ne_eq, F64.isNaN_iff]; rw [F64.isZero_iff] at h; omega
    unfold F64.sqrt; simp [this, h]
  · intro h hs
    unfold F64.sqrt; simp [(inf_not h).2.1, (inf_not h).2.2, hs, h]
  · intro x hx hx0
    have hm0 : F64.scaledMag a ≠ 0 := fun h => hx0.ne' ((denotes_zero_iff hx).2 h)
    have hz : F64.isZero a = false := by
      rw [Bool.eq_false_iff, ne_eq, ← scaledMag_zero_iff]; exact hm0
    have hT : (0 : ℝ) < 2 ^ 1074 := by positivity
    have hs : F64.sign a = false := by
      by_contra hc
      rw [Bool.not_eq_false] at hc
      have := denotes_val hx
      rw [scaled_abs_cast, hc, if_pos rfl] at this
      have h2 : (0 : ℝ) ≤ F64.scaledMag a := by positivity
      have : x ≤ 0 := by rw [this]; exact div_nonpos_of_nonpos_of_nonneg (by linarith) hT.le
      linarith
    have hxm : x = F64.scaledMag a / 2 ^ 1074 := by
      rw [denotes_val hx, scaled_abs_cast, hs]; simp
    set n := F64.scaledMag a * 4 ^ 64 with hn
    set r := F64.isqrt n with hr
    have hq : F64.sqrt a = some (F64.round false (2 * r + if r * r = n then 0 else 1) (2 ^ 602)) := by
      unfold F64.sqrt
      rw [if_neg (by simp [(fin_not_inf hx.1).2]), if_neg (by simp [hz]), if_neg (by simp [hs]), if_neg (by simp [(fin_not_inf hx.1).1])]
      rfl
    refine ⟨_, hq, ?_⟩
    have spec := F64.isqrt_spec n
    rw [← hr] at spec
    have hnpos : 4 ^ 64 ≤ n := by rw [hn]; exact Nat.le_mul_of_pos_left _ (Nat.pos_of_ne_zero hm0)
    have hrpos : 2 ^ 64 ≤ r := by
      by_contra hc
      have : r + 1 ≤ 2 ^ 64 := by omega
      have := Nat.mul_le_mul this this
      have e : (2:ℕ) ^ 64 * 2 ^ 64 = 4 ^ 64 := by norm_num
      omega
    have hroot : Real.sqrt x = 2 * Real.sqrt n / 2 ^ 602 := by
      rw [hxm, hn, Real.sqrt_div (by positivity)]
      rw [Nat.cast_mul, Nat.cast_pow, Nat.cast_ofNat]
      rw [Real.sqrt_mul (by positivity), show (4 : ℝ) ^ 64 = (2 ^ 64) ^ 2 by norm_num, Real.sqrt_sq (by positivity),
        show (2 : ℝ) ^ 1074 = (2 ^ 537) ^ 2 by rw [← pow_mul], Real.sqrt_sq (by positivity)]
      rw [show (2 : ℝ) ^ 602 = 2 ^ 537 * (2 * 2 ^ 64) by rw [← pow_succ', ← pow_add]]
      field_simp
    by_cases hex : r * r = n
    · rw [if_pos hex]
      have : Real.sqrt n = r := by rw [← hex]; push_cast; exact Real.sqrt_mul_self (by positivity)
      have rs := round_spec false (num := 2 * r + 0) (den := 2 ^ 602) (by omega) (by positivity)
      rw [hroot, this]
      rw [if_neg (by simp), one_mul, Nat.cast_pow, Nat.cast_ofNat] at rs
      convert rs using 2
      push_cast; ring
    · rw [if_neg hex]
      obtain ⟨k, m, he, hC, hA, hB⟩ := round_shape false (num := 2 * r + 1) (den := 2 ^ 602) (by omega) (by positivity)
      rw [he]
      obtain ⟨w, w473⟩ : ∃ w : ℝ, w = 2 ^ 473 := ⟨_, rfl⟩
      have hw : (0 : ℝ) < w := by rw [w473]; positivity
      have ey : ((2 * r + 1 : ℕ) : ℝ) / ((2 ^ 602 : ℕ) : ℝ) * 2 ^ 1074 = (r + 1 / 2) * w := by
        rw [w473]
        push_cast
        rw [show (2 : ℝ) ^ 1074 = 2 ^ 602 * 2 ^ 472 by rw [← pow_add], show (2 : ℝ) ^ 473 = 2 * 2 ^ 472 by rw [← pow_succ']]
        field_simp
      have ey' : Real.sqrt x * 2 ^ 1074 = Real.sqrt n * w := by
        rw [w473, hroot, show (2 : ℝ) ^ 1074 = 2 ^ 602 * 2 ^ 472 by rw [← pow_add], show (2 : ℝ) ^ 473 = 2 * 2 ^ 472 by rw [← pow_succ']]
        field_simp
      rw [ey] at hC hA hB
      have hsq1 : (r : ℝ) < Real.sqrt n := by
        apply Real.lt_sqrt_of_sq_lt
        have : r * r < n := lt_of_le_of_ne spec.1 hex
        rw [sq]; exact_mod_cast this
      have hsq2 : Real.sqrt n < r + 1 := by
        rw [Real.sqrt_lt' (by positivity), sq]
        exact_mod_cast spec.2
      have C := cell (r := r) (w := w) (y := (r + 1 / 2) * w) (y' := Real.sqrt n * w) hw
        (mul_lt_mul_of_pos_right (by linarith only) hw) (mul_lt_mul_of_pos_right hsq1 hw) (mul_lt_mul_of_pos_right (by linarith only) hw) (mul_lt_mul_of_pos_right hsq2 hw)
      have hk : 485 ≤ k := by
        by_contra hc
        have hyb : (2 : ℝ) ^ 537 < (r + 1 / 2) * w := by
          have : (2 ^ 64 : ℝ) ≤ r := by exact_mod_cast hrpos
          rw [show (2 : ℝ) ^ 537 = 2 ^ 64 * w by rw [w473, ← pow_add]]
          exact mul_lt_mul_of_pos_right (by linarith only [this]) hw
        have : (2 : ℝ) ^ 53 * 2 ^ k ≤ 2 ^ 537 := by
          rw [← pow_add]; exact pow_le_pow_right₀ (by norm_num) (by omega)
        rcases hC with h | ⟨h, h'⟩
        · exact absurd (hyb.trans (h.2.trans_le this)) (lt_irrefl _)
        · have : (2 : ℝ) ^ 53 ≤ 2 ^ 537 := pow_le_pow_right₀ (by norm_num) (by omega)
          exact absurd (hyb.trans (h'.trans_le this)) (lt_irrefl _)
      obtain ⟨j, rfl⟩ : ∃ j, k = j + 474 := ⟨k - 474, by omega⟩
      have ek : (2 : ℝ) ^ (j + 474) = (2 * 2 ^ j) * w := by
        rw [w473, show j + 474 = (j + 1) + 473 by omega, pow_add, pow_succ']
      have hC' : 2 ^ 52 * 2 ^ (j + 474) ≤ Real.sqrt n * w ∧ Real.sqrt n * w < 2 ^ 53 * 2 ^ (j + 474) := by
        rcases hC with h | h
        · have c1 := (C (2 ^ 52 * (2 * 2 ^ j))).1
          have c2 := (C (2 ^ 53 * (2 * 2 ^ j))).2.2.2
          rw [Int.cast_mul, Int.cast_mul, Int.cast_pow, Int.cast_pow, Int.cast_ofNat, mul_assoc, ← ek] at c1 c2
          exact ⟨c1.1 h.1, c2.1 h.2⟩
        · omega
      have conv : ∀ z : ℝ, 2 * |(m : ℝ) * 2 ^ (j + 474) - z| ≤ 2 ^ (j + 474) ↔
          (((2 * m - 1) * 2 ^ j : ℤ) : ℝ) * w ≤ z ∧ z ≤ (((2 * m + 1) * 2 ^ j : ℤ) : ℝ) * w := by
        intro z
        rw [ek]
        push_cast
        constructor
        · intro h
          have := abs_le.1 (show |(m : ℝ) * (2 * 2 ^ j * w) - z| ≤ 2 ^ j * w by linarith only [h])
          constructor <;> linarith only [this.1, this.2]
        · intro h
          have := abs_le.2 (show -((2:ℝ) ^ j * w) ≤ (m : ℝ) * (2 * 2 ^ j * w) - z ∧ (m : ℝ) * (2 * 2 ^ j * w) - z ≤ 2 ^ j * w from ⟨by linarith only [h.2], by linarith only [h.1]⟩)
          linarith only [this]
      have hA' : 2 * |(m : ℝ) * 2 ^ (j + 474) - Real.sqrt n * w| ≤ 2 ^ (j + 474) := by
        rw [conv] at hA ⊢
        exact ⟨(C _).1.1 hA.1, (C _).2.1.1 hA.2⟩
      have hB' : 2 * |(m : ℝ) * 2 ^ (j + 474) - Real.sqrt n * w| = 2 ^ (j + 474) → m % 2 = 0 := by
        intro h
        exfalso
        rw [ek] at h
        rcases abs_cases ((m : ℝ) * (2 * 2 ^ j * w) - Real.sqrt n * w) with ⟨h4, _⟩ | ⟨h4, _⟩
        · rw [h4] at h
          apply (C ((2 * m - 1) * 2 ^ j)).2.2.1
          push_cast
          linarith only [h]
        · rw [h4] at h
          apply (C ((2 * m + 1) * 2 ^ j)).2.2.1
          push_cast
          linarith only [h]
      have hypos : 0 < Real.sqrt n * w := mul_pos (lt_of_le_of_lt (by positivity) hsq1) hw
      have := rounds_core false hypos (.inl hC') hA' hB'
      rw [← ey', mul_div_cancel_right₀ _ hT.ne'] at this
      simp only [Bool.false_eq_true, if_false, one_mul] at this
      exact this

end Sys2Proof.Laws
end

