-- ==== Sys2Proof/Laws/Step.lean ====
section
/-! SUPPORT. What an instruction can do, all 23 at once: `exec_cases`, which the whole-machine rules rest on. -/

namespace Sys2Proof.Laws

open Sys2Proof.Machine

/-- Writing a register: it reads as written, the others as before (R21). -/
theorem setReg_spec (s : State) (r : Reg) (v : Value) :
    (s.regs.set r v).get r = v ∧ ∀ r', r' ≠ r → (s.regs.set r v).get r' = s.reg r' := by
  constructor
  · cases r <;> rfl
  · intro r' h; cases r <;> cases r' <;> first | rfl | exact absurd rfl h

/-- What an instruction that neither faults nor halts keeps: lifecycle, code, parameters, the host's queue; memory but for a `write`,
registers but for its destination, console but for its own token or value; a stack within its capacity stays so. -/
structure Keeps (i : Instr) (s t : State) : Prop where
  mode : t.mode = s.mode := by simp
  cause : t.faultCause = s.faultCause := by simp
  fsr : t.faultedSinceReset = s.faultedSinceReset := by simp
  act : t.execActive = s.execActive := by simp
  code : t.code = s.code := by simp
  params : t.params = s.params := by simp
  hq : t.hostQueue = s.hostQueue := by simp
  res : t.lastResult = s.lastResult := by simp
  ops : (t.opStack = none ↔ s.opStack = none) := by simp [*]
  cs : (t.callStack = none ↔ s.callStack = none) := by simp [*]
  mem : (t.mem = s.mem ∨ ∃ a v m, s.mem.write a v = some m ∧ t.mem = m ∧ ((∃ rs ri, i = .writeR rs ri) ∨ ∃ rs a, i = .writeA rs a)) := by exact .inl rfl
  regs : (∀ r, i.writes ≠ some r → t.reg r = s.reg r) := by exact fun _ _ => rfl
  inp : (t.inTokens = s.inTokens ∨ (t.inTokens = s.inTokens.tail ∧ (i = .input ∨ ∃ r, i = .inputR r))) := by exact .inl rfl
  out : (t.outValues = s.outValues ∨ ∃ v, t.outValues = s.outValues ++ [v] ∧ (i = .output ∨ ∃ r, i = .outputR r)) := by exact .inl rfl
  opcap : (withinCap s.params.opStackCap s.opStack → withinCap s.params.opStackCap t.opStack) := by exact fun h => h
  cscap : (withinCap s.params.callStackCap s.callStack → withinCap s.params.callStackCap t.callStack) := by exact fun h => h

/-- A stack no deeper than one within the capacity is within it. -/
theorem cap_mono {α} {c : Option Nat} {l l' : List α} (h : l'.length ≤ l.length) : withinCap c (some l) → withinCap c (some l') := by
  cases c <;> simp [withinCap]; omega

/-- A push that found room stays within the capacity. -/
theorem cap_push {α} {c : Option Nat} {l : List α} {x : α} (h : atCapacity c l.length = false) : withinCap c (some (x :: l)) := by
  cases c <;> simp [withinCap, atCapacity] at h ⊢; omega

/-- The state in which an instruction's fault is taken: the state itself, or that state with a token or an answer of the host used up. -/
inductive Faulty (i : Instr) (s : State) : FaultCause → State → Prop
  | same (c) (h : c ≠ .none) : Faulty i s c s
  | tok (h : i = .input ∨ ∃ r, i = .inputR r) : Faulty i s .ioError { s with inTokens := s.inTokens.tail }
  | ans (rest) (h : s.outAnswers = false :: rest) : Faulty i s .ioError { s with outAnswers := rest }

/-- Everything that an instruction which answers a next state can have done: fault, halt, or a step that keeps what `Keeps` says. -/
theorem exec_cases {i : Instr} {s t : State} (h : exec i s = .next t) :
    (∃ c s1, t = takeFault c s1 ∧ Faulty i s c s1) ∨ (i = .hlt ∧ t = s.halt) ∨ Keeps i s t := by
  have F : ∀ c, c ≠ FaultCause.none → t = takeFault c s → (∃ c s1, t = takeFault c s1 ∧ Faulty i s c s1) ∨ (i = .hlt ∧ t = s.halt) ∨ Keeps i s t :=
    fun c hc h => .inl ⟨c, s, h, .same c hc⟩
  have num : ∀ {i : Instr} {r : Option Value} {rest st : List Value}, s.opStack = some st → rest.length + 1 ≤ st.length → Keeps i s ((s.pushNumeric r rest).advance 1) := by
    intro i r rest st hs hl
    cases r with
    | none => exact { opcap := by rw [hs]; exact cap_mono (by simpa using hl), ops := by rw [hs]; simp [State.pushNumeric], mode := rfl, cause := rfl, fsr := rfl, act := rfl, code := rfl, params := rfl, hq := rfl, res := rfl, cs := Iff.rfl}
    | some v => exact { opcap := by rw [hs]; exact cap_mono (by simpa using hl), ops := by rw [hs]; simp [State.pushNumeric], mode := rfl, cause := rfl, fsr := rfl, act := rfl, code := rfl, params := rfl, hq := rfl, res := rfl, cs := Iff.rfl}
  have K : ∀ {i : Instr} {t : State}, Keeps i s t → (∃ c s1, t = takeFault c s1 ∧ Faulty i s c s1) ∨ (i = .hlt ∧ t = s.halt) ∨ Keeps i s t := fun h => .inr (.inr h)
  cases i with
  | add =>
    obtain rfl | ⟨a, b, rest, hs, rfl⟩ := execAdd_next h
    · exact F _ (by decide) rfl
    · exact K (num hs (by simp))
  | sub =>
    obtain rfl | ⟨a, b, rest, hs, rfl⟩ := execSub_next h
    · exact F _ (by decide) rfl
    · exact K (num hs (by simp))
  | mul =>
    obtain rfl | ⟨a, b, rest, hs, rfl⟩ := execMul_next h
    · exact F _ (by decide) rfl
    · exact K (num hs (by simp))
  | div =>
    obtain rfl | rfl | ⟨a, b, rest, hs, _, rfl⟩ := execDiv_next h
    · exact F _ (by decide) rfl
    · exact F _ (by decide) rfl
    · exact K (num hs (by simp))
  | sqrt =>
    obtain rfl | rfl | ⟨a, rest, hs, _, rfl⟩ := execSqrt_next h
    · exact F _ (by decide) rfl
    · exact F _ (by decide) rfl
    · exact K (num hs (by simp))
  | pushV d =>
    obtain rfl | ⟨st, hs, hc, rfl⟩ := execPushV_next h
    · exact F _ (by decide) rfl
    · exact K { opcap := fun _ => cap_push hc }
  | pushR d =>
    obtain rfl | ⟨st, hs, hc, rfl⟩ := execPushR_next h
    · exact F _ (by decide) rfl
    · exact K { opcap := fun _ => cap_push hc }
  | pop =>
    obtain rfl | ⟨v, rest, hs, rfl⟩ := execPop_next h
    · exact F _ (by decide) rfl
    · exact K { opcap := by rw [hs]; exact cap_mono (by simp) }
  | popR r =>
    obtain rfl | ⟨v, rest, hs, rfl⟩ := execPopR_next h
    · exact F _ (by decide) rfl
    · exact K { opcap := by rw [hs]; exact cap_mono (by simp), regs := fun r' hr => (setReg_spec s r v).2 r' (fun h => hr (by rw [h]; rfl)) }
  | input =>
    obtain rfl | rfl | ⟨ht, rfl⟩ | ⟨tk, rest, ht, rfl⟩ | ⟨st, tk, rest, v, hs, hc, ht, hv, rfl⟩ := execIn_next h
    · exact F _ (by decide) rfl
    · exact K {}
    · exact F _ (by decide) rfl
    · exact .inl ⟨_, _, rfl, by have := Faulty.tok (i := .input) (s := s) (.inl rfl); rwa [ht] at this⟩
    · exact K { opcap := fun _ => cap_push hc, inp := .inr ⟨by rw [ht]; rfl, .inl rfl⟩ }
  | inputR r =>
    obtain rfl | ⟨ht, rfl⟩ | ⟨tk, rest, ht, rfl⟩ | ⟨tk, rest, v, ht, hv, rfl⟩ := execInR_next h
    · exact K {}
    · exact F _ (by decide) rfl
    · exact .inl ⟨_, _, rfl, by have := Faulty.tok (i := .inputR r) (s := s) (.inr ⟨r, rfl⟩); rwa [ht] at this⟩
    · exact K { inp := .inr ⟨by rw [ht]; rfl, .inr ⟨r, rfl⟩⟩, regs := fun r' hr => (setReg_spec s r v).2 r' (fun h => hr (by rw [h]; rfl)) }
  | output =>
    obtain rfl | ⟨rest, ha, rfl⟩ | ⟨v, rest, hs, _, rfl⟩ := execOut_next h
    · exact F _ (by decide) rfl
    · exact .inl ⟨_, _, rfl, .ans rest ha⟩
    · cases s.params.outPops
      · exact K { out := .inr ⟨v, rfl, .inl rfl⟩, opcap := fun h => h, mode := rfl, cause := rfl, fsr := rfl, act := rfl, code := rfl, params := rfl, hq := rfl, res := rfl, ops := Iff.rfl, cs := Iff.rfl }
      · exact K { out := .inr ⟨v, rfl, .inl rfl⟩, opcap := by rw [hs]; exact cap_mono (by simp), mode := rfl, cause := rfl, fsr := rfl, act := rfl, code := rfl, params := rfl, hq := rfl, res := rfl, cs := Iff.rfl }
  | outputR r =>
    obtain ⟨rest, ha, rfl⟩ | ⟨_, rfl⟩ := execOutR_next h
    · exact .inl ⟨_, _, rfl, .ans rest ha⟩
    · exact K { out := .inr ⟨_, rfl, .inr ⟨r, rfl⟩⟩ }
  | writeR rs ri =>
    obtain rfl | rfl | ⟨a, m, ha, hm, rfl⟩ := execWriteR_next h
    · exact F _ (by decide) rfl
    · exact F _ (by decide) rfl
    · exact K { mem := .inr ⟨a, _, m, hm, rfl, .inl ⟨_, _, rfl⟩⟩ }
  | writeA rs ri =>
    obtain rfl | ⟨m, hm, rfl⟩ := execWriteA_next h
    · exact F _ (by decide) rfl
    · exact K { mem := .inr ⟨_, _, m, hm, rfl, .inr ⟨_, _, rfl⟩⟩ }
  | readR ri rd =>
    obtain rfl | rfl | ⟨a, v, ha, hm, rfl⟩ := execReadR_next h
    · exact F _ (by decide) rfl
    · exact F _ (by decide) rfl
    · exact K { regs := fun r' hr => (setReg_spec s rd v).2 r' (fun h => hr (by rw [h]; rfl)) }
  | readA a rd =>
    obtain rfl | ⟨v, hm, rfl⟩ := execReadA_next h
    · exact F _ (by decide) rfl
    · exact K { regs := fun r' hr => (setReg_spec s rd v).2 r' (fun h => hr (by rw [h]; rfl)) }
  | jmp n =>
    obtain rfl | ⟨_, rfl⟩ := execJmp_next h
    · exact F _ (by decide) rfl
    · exact K {}
  | jmpl n =>
    obtain rfl | rfl | ⟨_, x, y, rest, hs, rfl⟩ := execJmpl_next h
    · exact F _ (by decide) rfl
    · exact F _ (by decide) rfl
    · split
      · exact K { opcap := by rw [hs]; exact cap_mono (by simp; omega) }
      · exact K { opcap := by rw [hs]; exact cap_mono (by simp; omega) }
  | jmpg n =>
    obtain rfl | rfl | ⟨_, x, y, rest, hs, rfl⟩ := execJmpg_next h
    · exact F _ (by decide) rfl
    · exact F _ (by decide) rfl
    · split
      · exact K { opcap := by rw [hs]; exact cap_mono (by simp; omega) }
      · exact K { opcap := by rw [hs]; exact cap_mono (by simp; omega) }
  | call n =>
    obtain rfl | rfl | ⟨_, st, hs, hc, rfl⟩ := execCall_next h
    · exact F _ (by decide) rfl
    · exact F _ (by decide) rfl
    · exact K { cscap := fun _ => cap_push hc }
  | ret =>
    obtain rfl | ⟨a, st, hs, rfl⟩ := execRet_next h
    · exact F _ (by decide) rfl
    · exact K { cscap := by rw [hs]; exact cap_mono (by simp) }
  | hlt =>
    injection h with h
    exact .inr (.inl ⟨rfl, h.symm⟩)

end Sys2Proof.Laws
end

