-- ==== Sys2Proof/Tests/Slice0.lean ====
section
/-! SUPPORT. Tests of the model against the spec: ill-formed terms refused, words of the encodings, single steps with the results that
spec/95_test_vectors.md or a rule gives, and for every statement with hypotheses a case that meets them. -/

namespace Sys2Proof.Tests

-- The kernel evaluations below wait for one another, so they are made one by one.
set_option Elab.async false

open Sys2Proof.Machine Sys2Proof.Claims

/-! ## Well-formedness: one ill-formed term for each check (R91, R95: an address is a 4-byte signed integer) -/

theorem test_wf_writeA_too_big : (Instr.writeA .rcx (2 ^ 31)).wf = false := by decide
theorem test_wf_readA_too_small : (Instr.readA (-2 ^ 31 - 1) .rax).wf = false := by decide
theorem test_wf_jmp_too_big : (Instr.jmp (2 ^ 31)).wf = false := by decide
theorem test_wf_jmpl_too_small : (Instr.jmpl (-2 ^ 31 - 1)).wf = false := by decide
theorem test_wf_jmpg_too_big : (Instr.jmpg (2 ^ 32)).wf = false := by decide
theorem test_wf_call_too_small : (Instr.call (-2 ^ 32)).wf = false := by decide
theorem test_wf_bounds_admitted :
    (Instr.jmp (2 ^ 31 - 1)).wf = true ∧ (Instr.readA (-2 ^ 31) .rbx).wf = true ∧ Instr.add.wf = true := by decide

/-! ## Decoding: every constructor by a word written out from R92 to R98 -/

theorem test_decode_add : decodeBytes .default [0x01] = .ok .add := by decide
theorem test_decode_sub : decodeBytes .default [0x02] = .ok .sub := by decide
theorem test_decode_mul : decodeBytes .default [0x03] = .ok .mul := by decide
theorem test_decode_div : decodeBytes .default [0x04] = .ok .div := by decide
theorem test_decode_sqrt : decodeBytes .default [0x05] = .ok .sqrt := by decide
theorem test_decode_writeR : decodeBytes .default [0x06, 0x12, 0x13] = .ok (.writeR .rax .rbx) := by decide
theorem test_decode_writeA :
    decodeBytes .default [0x07, 0x14, 0x0E, 0x01, 0x00, 0x80] = .ok (.writeA .rcx (-2 ^ 31 + 270)) := by decide
theorem test_decode_readR : decodeBytes .default [0x08, 0x13, 0x14] = .ok (.readR .rbx .rcx) := by decide
theorem test_decode_readA : decodeBytes .default [0x09, 0x0C, 0x02, 0x00, 0x00, 0x12] = .ok (.readA 524 .rax) := by decide
theorem test_decode_pushV :
    decodeBytes .default [0x0A, 0x01, 0x02, 0x03, 0x04, 0x05, 0x06, 0x07, 0x08] = .ok (.pushV 0x0807060504030201) := by decide
theorem test_decode_pushR : decodeBytes .default [0x0B, 0x13] = .ok (.pushR .rbx) := by decide
theorem test_decode_pop : decodeBytes .default [0x0C] = .ok .pop := by decide
theorem test_decode_popR : decodeBytes .default [0x0D, 0x12] = .ok (.popR .rax) := by decide
theorem test_decode_input : decodeBytes .default [0x0E] = .ok .input := by decide
theorem test_decode_inputR : decodeBytes .default [0x0F, 0x14] = .ok (.inputR .rcx) := by decide
theorem test_decode_output : decodeBytes .default [0x10] = .ok .output := by decide
theorem test_decode_outputR : decodeBytes .default [0x11, 0x12] = .ok (.outputR .rax) := by decide
theorem test_decode_jmp : decodeBytes .default [0x15, 0x04, 0x03, 0x02, 0x01] = .ok (.jmp 0x01020304) := by decide
theorem test_decode_jmpl : decodeBytes .default [0x16, 0x14, 0x00, 0x00, 0x00] = .ok (.jmpl 20) := by decide
theorem test_decode_jmpg : decodeBytes .default [0x17, 0xFF, 0xFF, 0xFF, 0xFF] = .ok (.jmpg (-1)) := by decide
theorem test_decode_call : decodeBytes .default [0x18, 0x10, 0x00, 0x00, 0x00] = .ok (.call 16) := by decide
theorem test_decode_ret : decodeBytes .default [0x19] = .ok .ret := by decide
theorem test_decode_hlt : decodeBytes .default [0x1A] = .ok .hlt := by decide

/-- The same numbering with `BYTE_ORDER` big (R62): the first operand byte is the most significant. -/
def bigEndian : Encoding := { Encoding.default with byteOrder := .big }

theorem test_decode_big_endian :
    decodeBytes bigEndian [0x15, 0x01, 0x02, 0x03, 0x04] = .ok (.jmp 0x01020304) ∧
    decodeBytes bigEndian [0x0A, 0x40, 0x08, 0x00, 0x00, 0x00, 0x00, 0x00, 0x00] = .ok (.pushV 0x4008000000000000) := by decide

/-- X1 to X8 of the vectors: the decoder's refusals. -/
theorem test_decode_refusals :
    decodeBytes .default [] = .error .endOfStream ∧ decodeBytes .default [0x00] = .error .badOpcode ∧
    decodeBytes .default [0x1B] = .error .badOpcode ∧ decodeBytes .default [0x06, 0x00] = .error .truncatedOperand ∧
    decodeBytes .default [0x09, 0, 0, 0, 0, 0] = .error .badRegister ∧
    decodeBytes .default [0x0B, 0x15] = .error .badRegister := by decide

/-- C4, C5, C15: a target outside the code, whatever is on the stack. -/
theorem test_decode_targets :
    decodeAt .default ([0x15, 0x05, 0, 0, 0]) 0 = .error .badTarget ∧
    decodeAt .default ([0x15, 0x04, 0, 0, 0]) 0 = .ok (.jmp 4) ∧
    decodeAt .default ([0x16, 0xFF, 0xFF, 0xFF, 0xFF]) 0 = .error .badTarget := by decide

theorem test_encode_readA : encode .default (.readA 12 .rax) = [0x09, 0x0C, 0x00, 0x00, 0x00, 0x12] := by decide
theorem test_default_encoding_wf : Encoding.default.wf ∧ bigEndian.wf := by decide

/-- A table word: bit 0 is the least significant bit of the first byte. -/
theorem test_table_words :
    decodeTableWord 24 0x131206 = some (.writeR .rax .rbx) ∧ decodeTableWord 40 0x15 = some (.jmp 0) ∧
    decodeTableWord 8 0x1A = some .hlt := by decide

/-! ## Single steps -/

/-- A running launch of some bytes, with `HLT` after them, banks of 10 and 5, and an operand stack, top first. -/
def launch (code : List Byte) (st : List Value) : State :=
  { State.reset with
    execActive := true
    code := code ++ List.replicate 20 0x1A
    mem := { banks := [{ size := 10, fill := 5, cells := [] }, { size := 5, fill := 6, cells := [(2, 0x401C000000000000)] }] }
    opStack := some st }

/-- A field of the state after one step. -/
def after {α : Type} (s : State) (f : State → α) : Option α :=
  match step s with
  | .next t => some (f t)
  | .fault _ => none
  | .refused _ => none

/-- Mode, cause and operand stack, for a step that faults. -/
def fate (t : State) : Mode × FaultCause × Option (List Value) := (t.mode, t.faultCause, t.opStack)

-- A1, A5: 3 + 4, 1e308 + 1e308
theorem test_add : after (launch [0x01] [0x4010000000000000, 0x4008000000000000]) (·.opStack) =
    some (some [0x401C000000000000]) := by decide +kernel
theorem test_add_overflow : after (launch [0x01] [0x7FE1CCF385EBC8A0, 0x7FE1CCF385EBC8A0]) (·.opStack) =
    some (some [0x7FF0000000000000]) := by decide +kernel
-- A8: 5 - 3, so the order of the operands shows
theorem test_sub : after (launch [0x02] [0x4008000000000000, 0x4014000000000000]) (·.opStack) =
    some (some [0x4000000000000000]) := by decide +kernel
-- A14: -0 * 5
theorem test_mul : after (launch [0x03] [0x4014000000000000, 0x8000000000000000]) (·.opStack) =
    some (some [0x8000000000000000]) := by decide +kernel
-- A23: 1 / 3; A30: a divisor just below EPS, the stack as it was
theorem test_div : after (launch [0x04] [0x4008000000000000, 0x3FF0000000000000]) (·.opStack) =
    some (some [0x3FD5555555555555]) := by decide +kernel
theorem test_div_near_zero : after (launch [0x04] [0x3EB0C6F7A0B5ED8C, 0x3FF0000000000000]) fate =
    some (.wait, .divNearZero, some [0x3EB0C6F7A0B5ED8C, 0x3FF0000000000000]) ∧
    -- `EPS` is a parameter (R6): with 4 a divisor of 3 is near zero
    after { launch [0x04] [0x4008000000000000, 0x3FF0000000000000] with
      params := { Params.default with eps := 0x4010000000000000 } } (·.faultCause) = some .divNearZero := by decide +kernel
-- A40: the root of 2; A42: of -4
theorem test_sqrt : after (launch [0x05] [0x4000000000000000]) (·.opStack) =
    some (some [0x3FF6A09E667F3BCD]) := by decide +kernel
theorem test_sqrt_negative : after (launch [0x05] [0xC010000000000000]) fate =
    some (.wait, .sqrtNegative, some [0xC010000000000000]) := by decide +kernel
-- S3: the pattern of a NaN immediate is kept
theorem test_pushV : after (launch [0x0A, 0x01, 0, 0, 0, 0, 0, 0xF8, 0x7F] []) (fun t => (t.opStack, t.ip)) =
    some (some [0x7FF8000000000001], 9) := by decide +kernel
-- S5
theorem test_pushR : after { launch [0x0B, 0x13] [] with regs := { rax := 1, rbx := 2, rcx := 3 } } (·.opStack) =
    some (some [2]) := by decide +kernel
-- S9: the discarded value reaches no register
theorem test_pop : after (launch [0x0C] [7, 8]) (fun t => (t.opStack, t.regs)) =
    some (some [8], { rax := 0, rbx := 0, rcx := 0 }) := by decide +kernel
-- S11, S12
theorem test_popR : after (launch [0x0D, 0x12] [7]) (fun t => (t.opStack, t.regs.rax, t.ip)) =
    some (some [], 7, 2) := by decide +kernel
theorem test_popR_empty : after (launch [0x0D, 0x12] []) fate = some (.wait, .stackUnderflow, some []) := by decide +kernel
-- I1, Q2: with the stack full no token is read
theorem test_input : after { launch [0x0E] [] with inTokens := [['2', '.', '5']] } (fun t => (t.opStack, t.inTokens)) =
    some (some [0x4004000000000000], []) := by decide +kernel
theorem test_input_full :
    after { launch [0x0E] [9] with
      inTokens := [['5']], params := { Params.default with opStackCap := some 1 } } (fun t => (t.faultCause, t.inTokens)) =
    some (.resource, [['5']]) := by decide +kernel
-- I3, I5
theorem test_inputR : after { launch [0x0F, 0x14] [] with inTokens := [['4']] } (fun t => (t.regs.rcx, t.opStack)) =
    some (0x4010000000000000, some []) := by decide +kernel
theorem test_inputR_end : after { launch [0x0F, 0x12] [] with inClosed := true } fate =
    some (.wait, .ioError, some []) := by decide +kernel
-- I6, Q9
theorem test_output : after (launch [0x10] [0x401C000000000000]) (fun t => (t.opStack, t.outText)) =
    some (some [], ['7', '.', '0', '0', '0', '0', '0', '0', '\n']) := by decide +kernel
theorem test_output_failure : after { launch [0x10] [7] with outAnswers := [false] } fate =
    some (.wait, .ioError, some [7]) := by decide +kernel
-- I12
theorem test_outputR : after { launch [0x11, 0x12] [] with regs := { rax := 0xBFF8000000000000, rbx := 0, rcx := 0 } }
    (·.outText) = some ['-', '1', '.', '5', '0', '0', '0', '0', '0', '\n'] := by decide +kernel
-- M1: rax = 7, rbx = 12; M7: rbx = 2.5
theorem test_writeR :
    after { launch [0x06, 0x12, 0x13] [] with regs := { rax := 7, rbx := 0x4028000000000000, rcx := 0 } }
      (fun t => (t.mem.read 12, t.mem.read 11)) = some (some 7, some 6) := by decide +kernel
theorem test_writeR_bad_index :
    after { launch [0x06, 0x12, 0x13] [] with regs := { rax := 7, rbx := 0x4004000000000000, rcx := 0 } } (·.faultCause) =
      some .badIndex := by decide +kernel
-- M17, M18
theorem test_writeA : after { launch [0x07, 0x14, 0x0E, 0, 0, 0] [] with regs := { rax := 0, rbx := 0, rcx := 9 } }
    (fun t => t.mem.read 14) = some (some 9) := by decide +kernel
theorem test_writeA_out_of_range : after (launch [0x07, 0x14, 0xFF, 0xFF, 0xFF, 0xFF] []) (·.faultCause) =
    some .memOutOfRange := by decide +kernel
-- M4: the index register is the destination
theorem test_readR_same : after { launch [0x08, 0x12, 0x12] [] with regs := { rax := 0x4028000000000000, rbx := 0, rcx := 0 } }
    (·.regs.rax) = some 0x401C000000000000 := by decide +kernel
-- M21, M22
theorem test_readA : after (launch [0x09, 0x0C, 0, 0, 0, 0x12] []) (·.regs.rax) = some 0x401C000000000000 := by decide +kernel
theorem test_readA_out_of_range : after (launch [0x09, 0x0F, 0, 0, 0, 0x12] []) (·.faultCause) =
    some .memOutOfRange := by decide +kernel
-- C1
theorem test_jmp : after (launch [0x15, 0x0A, 0, 0, 0] []) (·.ip) = some 10 := by decide +kernel
-- C7, C9: B = 1, A = 2 takes the branch, equal values do not
theorem test_jmpl : after (launch [0x16, 0x14, 0, 0, 0] [0x4000000000000000, 0x3FF0000000000000]) (fun t => (t.ip, t.opStack)) =
    some (20, some []) := by decide +kernel
theorem test_jmpl_equal : after (launch [0x16, 0x14, 0, 0, 0] [0x4000000000000000, 0x4000000000000000]) (·.ip) =
    some 5 := by decide +kernel
-- C17, C20: 3 > 0, and inf > 1e308
theorem test_jmpg : after (launch [0x17, 0x14, 0, 0, 0] [0, 0x4008000000000000]) (·.ip) = some 20 := by decide +kernel
theorem test_jmpg_infinity : after (launch [0x17, 0x14, 0, 0, 0] [0x7FE1CCF385EBC8A0, 0x7FF0000000000000]) (·.ip) =
    some 20 := by decide +kernel
-- C23, Q4
theorem test_call : after { launch [0x18, 0x10, 0, 0, 0] [] with callStack := some [9] } (fun t => (t.ip, t.callStack)) =
    some (16, some [5, 9]) := by decide +kernel
theorem test_call_full :
    after { launch [0x18, 0x10, 0, 0, 0] [] with
      callStack := some [9], params := { Params.default with callStackCap := some 1 } } (fun t => (t.faultCause, t.callStack)) =
    some (.resource, some [9]) := by decide +kernel
-- C26, C27
theorem test_ret : after { launch [0x19] [] with callStack := some [14, 5] } (fun t => (t.ip, t.callStack)) =
    some (14, some [5]) := by decide +kernel
theorem test_ret_empty : after (launch [0x19] []) (·.faultCause) = some .retEmpty := by decide +kernel
-- C29
theorem test_hlt : after (launch [0x1A] [7]) (fun t => (t.mode, t.opStack, t.callStack, t.ip)) =
    some (.off, none, none, 0) := by decide +kernel

/-! ## Host transactions and text -/

-- H8, H11: after a fault `execute` is refused, and a reset clears what the fault left
theorem test_execute_refused_in_wait :
    after { State.reset with mode := .wait, faultCause := .retEmpty, hostQueue := [.execute [0x1A]] }
      (fun t => (t.mode, t.execActive, t.lastResult)) = some (.wait, false, some .refused) := by decide +kernel
theorem test_reset_clears :
    after { State.reset with
      mode := .wait, faultCause := .retEmpty, faultedSinceReset := true, opStack := some [7]
      regs := { rax := 1, rbx := 2, rcx := 3 }, hostQueue := [.reset] } id = some State.reset := by decide +kernel
-- R123
theorem test_literals :
    textValue roundNearest ['1', 'e', '-', '6'] = some epsilon ∧
    textValue roundNearest ['0', 'x', '1', 'p', '-', '1', '0', '7', '4'] = some 1 ∧
    textValue roundNearest ['-', 'I', 'n', 'f'] = some 0xFFF0000000000000 ∧
    textValue roundNearest ['1', 'e', '9', '9', '9', '9'] = some 0x7FF0000000000000 ∧
    textValue roundNearest ['1', 'x'] = none := by decide +kernel
-- P8 of the vectors has a label before an instruction on its line; here `L: jmp L`, and the errors of R126
theorem test_assemble_backward : assemble .default ['L', ':', ' ', 'j', 'm', 'p', ' ', 'L'] =
    .ok [0x15, 0, 0, 0, 0] := by decide +kernel
theorem test_assemble_undefined_label : assemble .default ['j', 'm', 'p', ' ', 'L'] = .error .undefinedLabel := by decide +kernel
theorem test_assemble_comment_and_memory :
    assemble .default ['#', 'h', 'l', 't', '#', 'w', 'r', 'i', 't', 'e', ' ', 'r', 'c', 'x', ' ', '[', '-', '1', ']'] =
      .ok [0x07, 0x14, 0xFF, 0xFF, 0xFF, 0xFF] := by decide +kernel

-- R121: a zero-operand mnemonic stands only before white space or the end of the input, so not before a comment's `#`
theorem test_assemble_comment_after_mnemonic :
    assemble .default ['a', 'd', 'd', '#', 'c', '#', 's', 'u', 'b'] = .error .unrecognizedCommand ∧
    assemble .default ['a', 'd', 'd', ' ', '#', 'c', '#', 's', 'u', 'b'] = .ok [0x01, 0x02] ∧
    assemble .default ['p', 'o', 'p', '#', 'c', '#', 'h', 'l', 't'] = .error .unrecognizedCommand ∧
    assemble .default ['p', 'o', 'p', '#', 'c', '#', 'r', 'b', 'x', '#', 'c', '#', 'h', 'l', 't'] = .ok [0x0D, 0x13, 0x1A] := by
  decide +kernel

-- R64, R260: a bank whose allocation fails, or of size 0, is not created, and nothing changes
theorem test_createBank :
    hostStep (.createBank 10 7 [] false) State.reset = State.reset ∧
    hostStep (.createBank 0 7 [] true) State.reset = State.reset ∧
    (hostStep (.createBank 10 7 [8] true) State.reset).mem.read 0 = some 8 ∧
    (hostStep (.createBank 10 7 [8] true) State.reset).mem.read 9 = some 7 := by decide +kernel

/-! ## The fetch of a table word -/

theorem test_withFetchWord : after (State.reset.withFetchWord 72 0x400800000000000A) (·.opStack) =
    some (some [0x0040080000000000]) := by decide +kernel

/-! ## Witnesses: for each statement with hypotheses, cases that meet them, each clause at the ends of its range -/

/-- The answer of a step is a next state. -/
def isNext : Result → Bool
  | .next _ => true
  | .fault _ => false
  | .refused _ => false

theorem witness_DecodeInvertsEncode :
    bigEndian.wf ∧ (Instr.writeA .rcx (-2 ^ 31)).wf = true ∧ (Instr.jmp (2 ^ 31 - 1)).wf = true := by decide

theorem witness_DecodedBytesAreItsEncoding :
    decodeBytes .default [0x15, 0xFF, 0xFF, 0xFF, 0x7F] = .ok (.jmp (2 ^ 31 - 1)) ∧
    decodeBytes bigEndian [0x09, 0x80, 0x00, 0x00, 0x00, 0x14, 0x1A] = .ok (.readA (-2 ^ 31) .rcx) := by decide

theorem witness_RegisterFieldBytes :
    Encoding.default.opcode? 0x0B = some .pushR ∧ Encoding.default.opcode? 0x0D = some .popR ∧
    Encoding.default.opcode? 0x0F = some .inputR ∧ Encoding.default.opcode? 0x11 = some .outputR ∧
    Encoding.default.opcode? 0x06 = some .writeR ∧ Encoding.default.opcode? 0x08 = some .readR ∧
    Encoding.default.opcode? 0x07 = some .writeA ∧ Encoding.default.opcode? 0x09 = some .readA ∧
    Encoding.default.reg? (byteAt [0x0B, 0x11] 1) = none ∧ Encoding.default.reg? (byteAt [0x06, 0x12, 0x15] 2) = none ∧
    Encoding.default.reg? (byteAt [0x09, 0, 0, 0, 0, 0x00] 5) = none := by decide

theorem witness_DecodeChecksInOrder :
    ([0x1A] : List Byte).length ≤ 1 ∧ Encoding.default.opcode? 0x1B = none ∧ Encoding.default.opcode? 0x15 = some .jmp ∧
    ([0x15, 0, 0, 0] : List Byte).length < 0 + Opcode.jmp.length ∧
    0 + Opcode.jmp.length ≤ ([0x15, 0, 0, 0, 0] : List Byte).length ∧
    (∃ off ∈ registerFields Opcode.writeR.format, Encoding.default.reg? (([0x06, 0x12, 0x15] : List Byte).getD (0 + off) 0) = none) ∧
    (∀ off ∈ registerFields Opcode.readA.format,
      Encoding.default.reg? (([0x09, 0, 0, 0, 0, 0x12] : List Byte).getD (0 + off) 0) ≠ none) ∧
    decodeBytes .default [0x15, 5, 0, 0, 0] = .ok (.jmp 5) ∧ decodeBytes .default [0x15, 4, 0, 0, 0] = .ok (.jmp 4) := by decide

/-- Every opcode has a byte and every register an id, as the clauses about operand fields ask. -/
theorem witness_Decodes :
    Opcode.all.map (fun op => Encoding.default.opcode? (Encoding.default.opcodeOf.byteOf op)) = Opcode.all.map some ∧
    Encoding.default.reg? 0x12 = some .rax ∧ Encoding.default.reg? 0x14 = some .rcx := by decide

theorem witness_DecodeReadsOnlyItsOwnBytes :
    decodeAt .default [0x0B, 0x13, 0x00] 0 = .ok (.pushR .rbx) ∧
    ∀ k, k < 2 → ([0x0B, 0x13, 0xFF] : List Byte)[0 + k]? = ([0x0B, 0x13, 0x00] : List Byte)[0 + k]? := by decide

theorem witness_StepRunsTheDecodedInstruction :
    (launch [0x01] []).execActive = true ∧ fetchDecode (launch [0x01] []) = .ok .add ∧
    fetchDecode (launch [0x00] []) = .error .badOpcode ∧ State.reset.execActive = false ∧ State.reset.hostQueue = [] ∧
    ({ State.reset with hostQueue := [.reset, .powerOn] } : State).hostQueue = .reset :: [.powerOn] := by decide

theorem witness_NoWrapAround :
    (launch [0x01] []).execActive = true ∧
    ({ launch [0x01] [] with ip := 21 } : State).codeLen = ({ launch [0x01] [] with ip := 21 } : State).ip ∧
    Encoding.default.opcode? 0x1A = some .hlt ∧ (launch [] []).codeLen = 20 ∧
    decodeBytes .default [0x15, 20, 0, 0, 0] = .ok (.jmp 20) ∧
    decodeBytes .default [0x18, 0xFF, 0xFF, 0xFF, 0xFF] = .ok (.call (-1)) := by decide

/-- The last byte of the code is the opcode of a longer instruction. -/
theorem witness_NoWrapAround_truncated :
    let s : State := { launch [] [] with code := [0x1A, 0x15, 0, 0, 0], ip := 1 }
    s.params.encoding.opcode? (s.code[s.ip]'(by decide)) = some .jmp ∧ s.codeLen < s.ip + Opcode.jmp.length := by decide

theorem witness_FaultsArePrecise :
    (launch [0x01] [7]).mode = .on ∧ after (launch [0x01] [7]) (·.mode) = some .wait ∧
    after { launch [0x0E] [] with inTokens := [['x']] } fate = some (.wait, .ioError, some []) ∧
    after { launch [0x10] [7] with outAnswers := [false] } (fun t => (t.mode, t.outAnswers)) = some (.wait, []) := by
  decide +kernel

theorem witness_ModeChangesOnlyByHaltOrFault :
    (launch [0x1A] []).execActive = true ∧ (launch [0x1A] []).mode = .on ∧ isNext (step (launch [0x1A] [])) = true := by
  decide +kernel

theorem witness_PowerOnByMode :
    (launch [] []).execActive = true ∧ State.constructed.execActive = false ∧ State.constructed.mode = .off ∧
    State.reset.mode = .on ∧ (takeFault .retEmpty (launch [] [])).execActive = false ∧
    (takeFault .retEmpty (launch [] [])).mode = .wait := by decide

theorem witness_ResetClearsStacksAndRegisters :
    State.constructed.execActive = false ∧ (launch [] []).execActive = true := by decide

/-- A CPU that faulted, was powered on and not reset, under `require_reset`. -/
def strict : State :=
  { State.reset with params := { Params.default with restartPolicy := .requireReset }, faultedSinceReset := true }

theorem witness_ExecuteStartsOrRefuses :
    ((launch [] []).execActive = true ∧ State.constructed.execActive = false ∧ strict.execActive = false ∧
      State.reset.execActive = false) ∧
    State.constructed.mode ≠ .on ∧
    strict.params.restartPolicy = .requireReset ∧ strict.faultedSinceReset = true ∧
    State.reset.mode = .on ∧ State.reset.params.restartPolicy = .staleResume ∧ State.reset.faultedSinceReset = false ∧
    2 ^ 31 - 1 < (List.replicate (2 ^ 31) (0 : Byte)).length ∧
    (List.replicate (2 ^ 31 - 1) (0 : Byte)).length ≤ 2 ^ 31 - 1 :=
  ⟨by decide, by decide, by decide, by decide, by decide, by decide, by decide, by rw [List.length_replicate]; norm_num,
    by rw [List.length_replicate]⟩

theorem witness_HostActsOnlyBetweenLaunches :
    (launch [] []).execActive = true ∧ State.reset.execActive = false ∧ Reg.rbx ≠ Reg.rax ∧
    State.reset.mem.createBank 0 7 [] true = none ∧ State.reset.mem.createBank 1 7 [] false = none ∧
    State.reset.mem.createBank 1 7 [] true = some { banks := [{ size := 1, fill := 7, cells := [] }] } := by decide

theorem witness_BankCreation : (0 : Int) ≤ 0 ∧ (0 : Int) < 1 ∧ ((0 : Nat) : Int) < 1 ∧ (-1 : Int) < (Memory.mk []).total := by
  decide

/-- The reset state satisfies the invariant. -/
theorem reset_inv : State.reset.Inv := by decide

theorem launch_inv : (launch [0x01] [7, 8]).Inv := by decide

theorem witness_EveryStepKeepsTheInvariant :
    (launch [0x06, 0x12, 0x13] [7]).Inv ∧ isNext (step (launch [0x06, 0x12, 0x13] [7])) = true ∧
    State.reset.Inv ∧ isNext (step State.reset) = true := by decide +kernel

theorem witness_InvariantStatesNeverStop :
    (takeFault .retEmpty (launch [] [])).Inv ∧ (launch [0x00] []).Inv ∧ State.constructed.Inv :=
  ⟨by decide, by decide, by decide⟩

theorem witness_ReturnAddressesStayInTheCode :
    let s : State := { launch [0x19] [] with callStack := some [21] }
    s.execActive = true ∧ s.NoStaleReturn ∧ isNext (step s) = true ∧ State.reset.callStack = some [] := by decide +kernel

theorem witness_OnlyTheNamedRegisterIsWritten :
    (launch [0x0D, 0x12] [7]).AtInstr (.popR .rax) ∧ isNext (step (launch [0x0D, 0x12] [7])) = true ∧
    (Instr.popR .rax).writes ≠ some .rbx := by decide +kernel

theorem witness_LaunchKeepsCodeAndMemoryLayout :
    let s := launch [0x07, 0x12, 0x0C, 0, 0, 0] []
    s.execActive = true ∧ after s (fun t => decide (t.mem ≠ s.mem)) = some true := by decide +kernel

theorem witness_ConsoleMovesOneValueAtATime :
    after { launch [0x0F, 0x12] [] with inTokens := [['1'], ['2']] } (·.inTokens) = some [['2']] ∧
    after { launch [0x11, 0x12] [] with outValues := [7] } (·.outValues) = some [7, 0] := by decide +kernel

/-- Stacks of no entry, one and two, and divisors on both sides of `EPS`, for the arithmetic statements. -/
theorem witness_arithmetic :
    (launch [0x01] []).opStack = some [] ∧ ([] : List Value).length < 1 ∧ ([7] : List Value).length < 2 ∧
    (launch [0x01] [7, 8, 9]).opStack = some (7 :: 8 :: [9]) ∧ (launch [0x01] [7, 8]).opStack = some ([7, 8] ++ []) ∧
    (launch [0x04] [7, 8]).params.eps = epsilon ∧
    nearZero epsilon 0x3EB0C6F7A0B5ED8C = true ∧ nearZero epsilon 0x3EB0C6F7A0B5ED8D = false ∧
    nearZero 0 0x0000000000000000 = false ∧
    negative 0x8000000000000001 = true ∧ negative 0x8000000000000000 = false := by decide +kernel

/-- One is a value, and so are the least subnormal and the negative zero. -/
theorem witness_Denotes :
    Denotes 0x3FF0000000000000 1 ∧ Denotes 0x0000000000000001 (1 / 2 ^ 1074) ∧ Denotes 0x8000000000000000 0 := by
  refine ⟨⟨by decide +kernel, ?_⟩, ⟨by decide +kernel, ?_⟩, ⟨by decide +kernel, ?_⟩⟩
  · rw [show F64.scaled 0x3FF0000000000000 = 2 ^ 1074 by decide +kernel, Int.cast_pow, one_mul, Int.cast_ofNat]
  · rw [show F64.scaled 0x0000000000000001 = 1 by decide +kernel, one_div_mul_cancel (by positivity), Int.cast_one]
  · rw [show F64.scaled 0x8000000000000000 = 0 by decide +kernel, zero_mul, Int.cast_zero]

/-- The classes of values that the clauses of the arithmetic words and of the comparisons speak of. -/
theorem witness_value_classes :
    F64.isNaN 0x7FF0000000000001 = true ∧ F64.isNaN 0xFFFFFFFFFFFFFFFF = true ∧ F64.isNaN 0x7FF0000000000000 = false ∧
    F64.isInf 0x7FF0000000000000 = true ∧ F64.sign 0x7FF0000000000000 = false ∧
    F64.isInf 0xFFF0000000000000 = true ∧ F64.sign 0xFFF0000000000000 = true ∧
    F64.isFinite 0x7FEFFFFFFFFFFFFF = true ∧ F64.isFinite 0x7FF0000000000000 = false ∧
    F64.isZero 0x8000000000000000 = true ∧ F64.isZero 0x0000000000000001 = false := by decide +kernel

/-- A stack just below its capacity has room, one at it has none; with no capacity there is always room. -/
theorem witness_HasRoom : HasRoom (some 2) ([7] : List Value).length ∧ HasRoom none 5 ∧
    (some 2 : Option Nat) = some 2 ∧ 2 ≤ ([7, 8] : List Value).length :=
  ⟨fun c h => by injection h with h; subst h; decide, fun c h => absurd h (by simp), rfl, by decide⟩

/-- For `push`, `pop`, `in` and `out`: stacks there, tokens good, bad and none, answers of both kinds. -/
theorem witness_stack_and_console :
    (launch [0x0C] [7]).opStack = some (7 :: []) ∧ (launch [] [0x4008000000000000]).opStack = some [0x4008000000000000] ∧
    ({ launch [0x0E] [] with inTokens := [['5']] } : State).inTokens = ['5'] :: [] ∧
    convertToken .nearest ['5'] = some 0x4014000000000000 ∧ convertToken .nearest ['x'] = none ∧
    State.reset.inTokens = [] ∧ State.reset.inClosed = false ∧
    ({ launch [0x0E] [] with inClosed := true } : State).inClosed = true ∧
    State.reset.outAnswers.head? ≠ some false ∧ ([false] : List Bool).head? = some false := by decide +kernel

theorem witness_Truncates :
    Encoding.default.opcode? 0x0A = some .pushV ∧ ([0, 0, 0, 0, 0, 0, 0] : List Byte).length + 1 < Opcode.pushV.length ∧
    Encoding.default.opcode? 0x0B = some .pushR ∧ ([] : List Byte).length + 1 < Opcode.pushR.length ∧
    ([0, 0, 0] : List Byte).length + 1 < Opcode.jmp.length := by decide

theorem witness_DecimalLiterals :
    parseLiteral ['-', '0', '.', '0'] = some (.dec true 0 2 (-1)) ∧ parseLiteral ['2', '5', 'e', '-', '1'] = some (.dec false 25 2 (-1)) := by
  decide +kernel

theorem witness_memory :
    (launch [] []).mem.wf ∧ (launch [] []).mem.total = 15 ∧ (launch [] []).mem.translate 14 = some (1, 4) ∧
    (launch [] []).mem.translate 0 = some (0, 0) ∧ (launch [] []).mem.translate 15 = none ∧
    (launch [] []).mem.translate (-1) = none ∧ isNext (step (launch [0x07, 0x14, 0x0E, 0, 0, 0] [])) = true := by
  decide +kernel

theorem witness_BankExample : (launch [] []).mem.banks.map Bank.size = [10, 5] := by decide

theorem witness_index :
    idx .strict 0xBFF0000000000000 = some (-1) ∧ idx .strict 0x402C000000000000 = some 14 ∧ idx .strict 0x402E000000000000 = some 15 ∧
    idx .strict 0x4004000000000000 = none ∧ idx .truncate 0x4004000000000000 = some 2 := by decide +kernel

/-- The last byte of the code is a target; the stack has one entry too few, or two and more. -/
theorem witness_transfers :
    31 < ({ launch [] [] with code := List.replicate 32 0x1A } : State).codeLen ∧ ([7] : List Value).length < 2 ∧
    decodeBytes .default ([0x16, 0x20, 0, 0, 0, 0x1A].drop 0) = .ok (.jmpl 32) ∧
    (launch [] [7, 8]).opStack = some (7 :: 8 :: []) ∧ (launch [] []).callStack = some [] ∧
    F64.isZero 0x0000000000000000 = true ∧ F64.isNaN 0x7FF8000000000000 = true := by decide +kernel

theorem witness_ReturnTakesTheLastAddress :
    ({ launch [0x19] [] with callStack := some [5, 9] } : State).callStack = some (5 :: [9]) ∧
    ({ launch [0x19] [] with ip := 21 } : State).codeLen ≤ ({ launch [0x19] [] with ip := 21 } : State).ip := by decide

theorem witness_HaltEndsTheLaunch : isNext (exec .hlt (launch [0x1A] [])) = true := by decide

theorem witness_ReturnUndoesCall : ∃ t, exec (.call 16) (launch [0x18, 0x10, 0, 0, 0] []) = .next t ∧ t.mode ≠ .wait :=
  ⟨_, rfl, by decide⟩

theorem witness_AssembledCodeDecodes : Encoding.default.wf ∧
    assemble .default ['h', 'l', 't'] = .ok [0x1A] := by decide +kernel

theorem witness_LabelsHoldTheirOffset :
    ((symbols ([.plain .add] ++ .label ['L'] :: [.label ['M']]) 0).map Prod.fst).Nodup := by decide +kernel

end Sys2Proof.Tests
end

/-! Address translation: the scan of R67 is characterised by the prefix sums of the bank sizes, and its answer `none` by
`TOTAL` (R65). Settles O42 and O44. -/

namespace Sys2Proof.Machine

@[simp] theorem Memory.total_mk (banks : List Bank) : (Memory.mk banks).total = (banks.map Bank.size).sum := rfl

@[simp] theorem Memory.translate_of_neg (m : Memory) {a : Int} (ha : a < 0) : m.translate a = none :=
  if_pos ha

@[simp] theorem Memory.translate_natCast (m : Memory) (n : Nat) : m.translate n = translateIn m.banks n :=
  if_neg (Int.natCast_nonneg n).not_gt

/-- The scan skips a bank the address does not lie in. -/
theorem translateIn_cons_of_le {b : Bank} {rest : List Bank} {a : Nat} (h : b.size ≤ a) :
    translateIn (b :: rest) a = (translateIn rest (a - b.size)).map fun p => (p.1 + 1, p.2) :=
  if_neg h.not_gt

/-- The scan stops at the first bank the address lies in. -/
theorem translateIn_cons_of_lt {b : Bank} {rest : List Bank} {a : Nat} (h : a < b.size) :
    translateIn (b :: rest) a = some (0, a) :=
  if_pos h

/-- The scan picks the bank whose prefix-sum range holds the address. Banks of size 0 hold no address, so the canonical form
is not needed. -/
theorem translateIn_eq_some_iff {banks : List Bank} {a j o : Nat} :
    translateIn banks a = some (j, o) ↔
      j < banks.length ∧ a = ((banks.take j).map Bank.size).sum + o ∧
        a < ((banks.take (j + 1)).map Bank.size).sum := by
  induction banks generalizing a j with
  | nil => simp [translateIn]
  | cons b rest ih =>
    rcases Nat.lt_or_ge a b.size with hlt | hge
    · rw [translateIn_cons_of_lt hlt]
      cases j with
      | zero => simp [hlt]
      | succ j =>
        simp only [Option.some.injEq, Prod.mk.injEq, List.take_succ_cons, List.map_cons, List.sum_cons]
        omega
    · rw [translateIn_cons_of_le hge]
      cases j with
      | zero =>
        have hne : (translateIn rest (a - b.size)).map (fun p => (p.1 + 1, p.2)) ≠ some (0, o) := by simp
        simp only [hne, false_iff, zero_add, List.take_succ_cons, List.take_zero, List.map_cons, List.map_nil,
          List.sum_cons, List.sum_nil]
        omega
      | succ j =>
        have hmap : (translateIn rest (a - b.size)).map (fun p => (p.1 + 1, p.2)) = some (j + 1, o) ↔
            translateIn rest (a - b.size) = some (j, o) := by simp
        rw [hmap, ih]
        simp only [List.length_cons, List.take_succ_cons, List.map_cons, List.sum_cons]
        omega

/-- The scan finds no bank exactly for the addresses from the sum of the sizes on. -/
theorem translateIn_eq_none_iff {banks : List Bank} {a : Nat} :
    translateIn banks a = none ↔ (banks.map Bank.size).sum ≤ a := by
  induction banks generalizing a with
  | nil => simp [translateIn]
  | cons b rest ih =>
    rw [List.map_cons, List.sum_cons]
    rcases Nat.lt_or_ge a b.size with hlt | hge
    · simp only [translateIn_cons_of_lt hlt, reduceCtorEq, false_iff]
      omega
    · rw [translateIn_cons_of_le hge, Option.map_eq_none_iff, ih]
      omega

/-- R67: the bank is the one whose prefix-sum range holds the address. -/
theorem Memory.translate_eq_some_iff {m : Memory} {a : Int} {j o : Nat} :
    m.translate a = some (j, o) ↔
      j < m.banks.length ∧ a = ((m.banks.take j).map Bank.size).sum + o ∧
        a < ((m.banks.take (j + 1)).map Bank.size).sum := by
  rcases lt_or_ge a 0 with hneg | hnn
  · simp only [m.translate_of_neg hneg, reduceCtorEq, false_iff]
    omega
  · lift a to Nat using hnn
    rw [Memory.translate_natCast, translateIn_eq_some_iff]
    norm_cast

/-- R67, R68: the addresses out of range are those outside `[0, TOTAL)`. -/
theorem Memory.translate_eq_none_iff {m : Memory} {a : Int} :
    m.translate a = none ↔ a < 0 ∨ (m.total : Int) ≤ a := by
  rcases lt_or_ge a 0 with hneg | hnn
  · simp [hneg]
  · lift a to Nat using hnn
    rw [Memory.translate_natCast, translateIn_eq_none_iff, ← Memory.total]
    omega

end Sys2Proof.Machine

namespace Sys2Proof.Claims

open Sys2Proof.Machine

/-- Settles O42: the scan by prefix sums, by induction on the banks; the canonical form is not used. -/
theorem translationPicksTheBank : Obligations.TranslationPicksTheBank :=
  fun _ _ _ => ⟨fun _ _ => Memory.translate_eq_some_iff, Memory.translate_eq_none_iff⟩

/-- Settles O44: the prefix sums of the two banks are 0, 10 and 15. -/
theorem bankExample : Obligations.BankExample := by
  intro b0 b1 h0 h1
  have htotal : (Memory.mk [b0, b1]).total = 15 := by simp [h0, h1]
  refine ⟨htotal, ?_, fun a ha => ?_⟩
  · rw [Memory.translate_eq_some_iff]
    simp [h0, h1]
  · rw [Memory.translate_eq_none_iff, htotal]
    exact .inr ha

end Sys2Proof.Claims

/-! The forward reading of the shared stack operations: what each answers in a state whose stack is known (R25). -/

namespace Sys2Proof.Machine

/-- A depth has room under a capacity exactly where it is not at or above it (log 17). -/
theorem atCapacity_eq_false_iff {cap : Option Nat} {depth : Nat} :
    atCapacity cap depth = false ↔ Claims.HasRoom cap depth := by
  cases cap <;> simp [atCapacity, Claims.HasRoom]

theorem atCapacity_of_le {c depth : Nat} (h : c ≤ depth) : atCapacity (some c) depth = true := decide_eq_true h

theorem withStack_of_some {s : State} {st : List Value} (hs : s.opStack = some st) (k : List Value → Result) :
    withStack s k = k st := by
  rw [withStack, hs]

theorem withTop_of_cons {s : State} {v : Value} {st : List Value} (hs : s.opStack = some (v :: st))
    (k : Value → List Value → Result) : withTop s k = k v st :=
  withStack_of_some hs _

theorem withTop_of_nil {s : State} (hs : s.opStack = some []) (k : Value → List Value → Result) :
    withTop s k = raiseFault .stackUnderflow s :=
  withStack_of_some hs _

theorem withRoom_of_hasRoom {s : State} {st : List Value} (hs : s.opStack = some st)
    (hroom : Claims.HasRoom s.params.opStackCap st.length) (k : List Value → Result) : withRoom s k = k st := by
  rw [withRoom, withStack_of_some hs, atCapacity_eq_false_iff.2 hroom, if_neg Bool.false_ne_true]

theorem withRoom_of_full {s : State} {st : List Value} {c : Nat} (hs : s.opStack = some st)
    (hcap : s.params.opStackCap = some c) (hfull : c ≤ st.length) (k : List Value → Result) :
    withRoom s k = raiseFault .resource s := by
  rw [withRoom, withStack_of_some hs, hcap, atCapacity_of_le hfull, if_pos rfl]

end Sys2Proof.Machine

/-! The decoder on each shape of operand field, once for every opcode of that shape (R92 to R95, R110). -/

namespace Sys2Proof.Claims

open Sys2Proof.Machine

theorem regField_of_reg? {e : Encoding} {bs : List Byte} {off : Nat} {r : Reg} (h : e.reg? (byteAt bs off) = some r) :
    regField e bs off = .ok r := by
  rw [regField, h]

theorem regField_of_reg?_none {e : Encoding} {bs : List Byte} {off : Nat} (h : e.reg? (byteAt bs off) = none) :
    regField e bs off = .error .badRegister := by
  rw [regField, h]

/-- Check 3 of R110 comes before the operands are looked at, so it is the same for every opcode. -/
theorem truncates (op : Opcode) : Truncates op := by
  intro e b rest hop hshort
  simp only [decodeBytes, hop, if_pos hshort]

/-- An opcode of one byte whose operands decode to an instruction whatever the bytes decodes alone. -/
theorem decodesAlone_of_decodeOperands {i : Instr} (hlen : i.opcode.length = 1)
    (hops : ∀ e bs, decodeOperands e i.opcode bs = .ok i) : DecodesAlone i := by
  intro e b rest hop
  rw [decodeBytes_of_opcode? hop (by omega), hops]

section RegisterOperand

variable {op : Opcode} {instr : Reg → Instr}
  (hops : ∀ e bs, decodeOperands e op bs = (regField e bs 1).bind fun r => .ok (instr r))
include hops

/-- The byte after an opcode of format `FR` is its register. -/
theorem decodesRegister_of_decodeOperands (hlen : op.length = 2) : DecodesRegister op instr := by
  intro e b b1 r rest hop hreg
  have hfield : regField e (b :: b1 :: rest) 1 = .ok r := regField_of_reg? hreg
  rw [decodeBytes_of_opcode? hop (by simp [hlen]), hops, hfield, Except.bind]

/-- A byte that names no register is refused in that field. -/
theorem checksRegister_of_decodeOperands : ChecksRegister op 1 := by
  intro e b rest hop hlong hreg
  rw [decodeBytes_of_opcode? hop hlong, hops, regField_of_reg?_none hreg, Except.bind]

end RegisterOperand

/-- The double field of `FD` is the eight bytes joined, in the configured order. -/
theorem immField_eq_patternOf (e : Encoding) (b d0 d1 d2 d3 d4 d5 d6 d7 : Byte) (rest : List Byte) :
    immField e (b :: d0 :: d1 :: d2 :: d3 :: d4 :: d5 :: d6 :: d7 :: rest) 1 =
      patternOf e.byteOrder d0 d1 d2 d3 d4 d5 d6 d7 := by
  have hfield : fieldAt (b :: d0 :: d1 :: d2 :: d3 :: d4 :: d5 :: d6 :: d7 :: rest) 1 8 =
      [d0, d1, d2, d3, d4, d5, d6, d7] := rfl
  rw [immField, hfield]
  cases e.byteOrder with
  | little => exact littleEndian_eight d0 d1 d2 d3 d4 d5 d6 d7
  | big => exact littleEndian_eight d7 d6 d5 d4 d3 d2 d1 d0

theorem decodesDouble_pushV : DecodesDouble .pushV .pushV := by
  intro e b d0 d1 d2 d3 d4 d5 d6 d7 rest hop
  rw [decodeBytes_of_opcode? hop (by simp [Opcode.length, Opcode.format, Format.length]), decodeOperands,
    immField_eq_patternOf]

theorem decodesRegister_pushR : DecodesRegister .pushR .pushR :=
  decodesRegister_of_decodeOperands (fun _ _ => rfl) rfl

theorem decodesRegister_popR : DecodesRegister .popR .popR :=
  decodesRegister_of_decodeOperands (fun _ _ => rfl) rfl

end Sys2Proof.Claims

/-! The stack and register transfers (R160 to R163). Settles O32 to O35. -/

namespace Sys2Proof.Claims

open Sys2Proof.Machine

/-- The model's fault entry is the one of the statements (R252). -/
theorem raiseFault_eq_faulted (c : FaultCause) (s : State) : raiseFault c s = faulted c s := rfl

/-- An instruction that uses the top underflows on an empty stack, whatever it would do with the top. -/
theorem underflows_of_withTop {i : Instr} {k : State → Value → List Value → Result}
    (hexec : ∀ s, exec i s = withTop s (k s)) : Underflows i 1 := by
  intro s st hs hlen
  obtain rfl : st = [] := List.length_eq_zero_iff.1 (Nat.lt_one_iff.1 hlen)
  rw [hexec, withTop_of_nil hs, raiseFault_eq_faulted]

theorem exec_popR (r : Reg) (s : State) :
    exec (.popR r) s = withTop s fun v rest => .next (((s.setStack rest).setReg r v).advance 2) := rfl

/-- The pop of the top into a register, as one update of the state. -/
theorem exec_popR_of_cons {s : State} {v : Value} {st : List Value} (hs : s.opStack = some (v :: st)) (r : Reg) :
    exec (.popR r) s = .next { s with opStack := some st, regs := s.regs.set r v, ip := s.ip + 2 } :=
  (exec_popR r s).trans (withTop_of_cons hs _)

/-- Settles O32: `push` of an immediate is `withRoom`, its pattern the operand bytes joined. -/
theorem pushImmediate : Obligations.PushImmediate := by
  refine ⟨⟨rfl, rfl, rfl⟩, decodesDouble_pushV, truncates _, fun s d st hs => ⟨fun hroom => ?_, fun c hcap hfull => ?_⟩,
    by decide⟩
  · exact withRoom_of_hasRoom hs hroom _
  · exact withRoom_of_full hs hcap hfull _

/-- Settles O33: `push` of a register is `withRoom`, and only reads the register. -/
theorem pushRegister : Obligations.PushRegister := by
  refine ⟨⟨rfl, rfl, rfl⟩, decodesRegister_pushR, truncates _, checksRegister_of_decodeOperands fun _ _ => rfl,
    fun s r st hs => ⟨fun hroom => ?_, fun c hcap hfull => ?_⟩,
    decodesRegister_pushR _ _ _ _ _ (by decide) (by decide)⟩
  · exact withRoom_of_hasRoom hs hroom _
  · exact withRoom_of_full hs hcap hfull _

/-- Settles O34: `pop` is `withTop`, and drops the top. -/
theorem popDiscards : Obligations.PopDiscards :=
  ⟨⟨rfl, rfl, rfl⟩, decodesAlone_of_decodeOperands rfl fun _ _ => rfl, underflows_of_withTop fun _ => rfl,
    fun _ _ _ hs => withTop_of_cons hs _⟩

/-- Settles O35: `pop` to a register is `withTop`; the new register file is `Regs.set` of the old. -/
theorem popToRegister : Obligations.PopToRegister := by
  refine ⟨⟨rfl, rfl, rfl⟩, decodesRegister_popR, truncates _, checksRegister_of_decodeOperands fun _ _ => rfl,
    fun r => underflows_of_withTop (exec_popR r),
    fun s r v st hs => ?_, fun s hs => exec_popR_of_cons hs .rax, by decide,
    decodesRegister_popR _ _ _ _ _ (by decide) (by decide)⟩
  exact ⟨s.regs.set r v, Regs.get_set_same _ _ _, fun r' hne => Regs.get_set_other _ _ _ _ hne, exec_popR_of_cons hs r⟩

end Sys2Proof.Claims

/-! The decoder on an address field and its target check, once for every control transfer (R95, R110, R220). -/

namespace Sys2Proof.Machine

/-- A target inside the code passes the check of `withTarget` and reaches the continuation as it is. -/
theorem withTarget_natCast {s : State} {t : Nat} (ht : t < s.codeLen) (k : Nat → Result) : withTarget s t k = k t :=
  if_pos ⟨Int.natCast_nonneg t, Int.ofNat_lt.2 ht⟩

end Sys2Proof.Machine

namespace Sys2Proof.Claims

open Sys2Proof.Machine

/-- A 4-byte address field is its four bytes joined, in the configured order, at whatever offset it stands. -/
theorem addrField_eq_addressOf {e : Encoding} {bs : List Byte} {off : Nat} {a0 a1 a2 a3 : Byte}
    (hfield : fieldAt bs off 4 = [a0, a1, a2, a3]) : addrField e bs off = addressOf e.byteOrder a0 a1 a2 a3 := by
  rw [addrField, hfield]
  cases e.byteOrder with
  | little => exact congrArg BitVec.toInt (littleEndian_four a0 a1 a2 a3)
  | big => exact congrArg BitVec.toInt (littleEndian_four a3 a2 a1 a0)

/-- The four bytes after an opcode of format `FA` are its address. -/
theorem decodesAddress_of_decodeOperands {op : Opcode} {instr : Int → Instr} (hlen : op.length = 5)
    (hops : ∀ e bs, decodeOperands e op bs = .ok (instr (addrField e bs 1))) : DecodesAddress op instr := by
  intro e b a0 a1 a2 a3 rest hop
  rw [decodeBytes_of_opcode? hop (by simp [hlen]), hops, addrField_eq_addressOf rfl]

/-- A decoding that passes checks 1 to 4 of R110 is left to check 5. -/
theorem decodeAt_of_decodeBytes {e : Encoding} {code : List Byte} {ip : Nat} {i : Instr}
    (h : decodeBytes e (code.drop ip) = .ok i) : decodeAt e code ip = checkTarget code.length i := by
  rw [decodeAt, h]
  rfl

/-- Check 5 of R110 looks only at the decoded target, so it is the same for every control transfer. -/
theorem checksTarget_of_target? {instr : Int → Instr} (htarget : ∀ t, (instr t).target? = some t) :
    ChecksTarget instr := by
  intro e code ip t hdec hout
  have hbad : ¬ targetOk code.length t := fun hok => hout.elim hok.1.not_gt hok.2.not_ge
  simp only [decodeAt_of_decodeBytes hdec, checkTarget, htarget, if_neg hbad]

end Sys2Proof.Claims

/-! The jump (R222). Settles O50. -/

namespace Sys2Proof.Claims

open Sys2Proof.Machine

theorem exec_jmp (t : Int) (s : State) : exec (.jmp t) s = withTarget s t fun n => .next (s.jumpTo n) := rfl

/-- Settles O50: `jmp` is `withTarget`, and goes on at the target; its bytes are those of format `FA`. -/
theorem jumpSetsIp : Obligations.JumpSetsIp := by
  have hdecodes : DecodesAddress .jmp .jmp := decodesAddress_of_decodeOperands rfl fun _ _ => rfl
  refine ⟨⟨rfl, rfl, rfl⟩, hdecodes, truncates _, checksTarget_of_target? fun _ => rfl, fun s t ht => ?_, ?_⟩
  · exact (exec_jmp t s).trans (withTarget_natCast ht _)
  · exact hdecodes _ _ _ _ _ _ _ (by decide)

end Sys2Proof.Claims

/-! The decoder and the encoder on the fields of an instruction (R92 to R95): what a field holds when its bytes are written at
its offset, and that its bytes are written back from what it holds. -/

namespace Sys2Proof

/-- The byte that stands after `before` is at the offset that `before` takes. -/
theorem byteAt_append_cons {before : List Byte} {off : Nat} (h : before.length = off) (b : Byte) (after : List Byte) :
    byteAt (before ++ b :: after) off = b := by
  subst h
  simp [byteAt]

/-- The bytes that stand after `before` are the field at the offset that `before` takes. -/
theorem fieldAt_append {before field : List Byte} {off n : Nat} (h : before.length = off) (hn : field.length = n)
    (after : List Byte) : fieldAt (before ++ (field ++ after)) off n = field := by
  subst h hn
  simp [fieldAt]

/-- A register's byte, at the offset of a register field, is read as that register. -/
theorem regField_byteOf {e : Encoding} (he : e.wf) {before : List Byte} {off : Nat} (h : before.length = off) (r : Reg)
    (after : List Byte) : regField e (before ++ e.regIdOf.byteOf r :: after) off = .ok r := by
  rw [regField, byteAt_append_cons h, Encoding.reg?_byteOf he]

/-- An address that fits its field is read back from its bytes. -/
theorem addrField_codeBytes (e : Encoding) {before : List Byte} {off : Nat} (h : before.length = off) {a : Int}
    (ha : inAddrRange a) (after : List Byte) :
    addrField e (before ++ (codeBytes e.byteOrder 4 (addrPattern a) ++ after)) off = a := by
  rw [addrField, fieldAt_append h (codeBytes_length _ _ _), codeRead_codeBytes _ (addrPattern_lt a), sext32_addrPattern ha]

/-- A double is read back from its bytes. -/
theorem immField_codeBytes (e : Encoding) {before : List Byte} {off : Nat} (h : before.length = off) (d : Value)
    (after : List Byte) : immField e (before ++ (codeBytes e.byteOrder 8 d.toNat ++ after)) off = d := by
  rw [immField, fieldAt_append h (codeBytes_length _ _ _), codeRead_codeBytes _ d.isLt, BitVec.ofNat_toNat,
    BitVec.setWidth_eq]

theorem fieldAt_length {bs : List Byte} {off n : Nat} (h : off + n ≤ bs.length) : (fieldAt bs off n).length = n := by
  simp only [fieldAt, List.length_take, List.length_drop]
  omega

/-- Two fields side by side are one. -/
theorem fieldAt_add (bs : List Byte) (off n m : Nat) : fieldAt bs off (n + m) = fieldAt bs off n ++ fieldAt bs (off + n) m := by
  simp only [fieldAt, List.take_add, List.drop_drop]

/-- A field of one byte. -/
theorem fieldAt_one {bs : List Byte} {off : Nat} (h : off < bs.length) : fieldAt bs off 1 = [byteAt bs off] := by
  rw [fieldAt, List.drop_eq_getElem_cons h, byteAt, List.getD_eq_getElem _ _ h]
  rfl

theorem take_eq_fieldAt (bs : List Byte) (n : Nat) : bs.take n = fieldAt bs 0 n := rfl

/-- The bytes of an address field are those of the address it is read as. -/
theorem codeBytes_addrField (e : Encoding) {bs : List Byte} {off : Nat} (h : off + 4 ≤ bs.length) :
    codeBytes e.byteOrder 4 (addrPattern (addrField e bs off)) = fieldAt bs off 4 := by
  have hlen : (fieldAt bs off 4).length = 4 := fieldAt_length h
  have hlt := codeRead_lt e.byteOrder (fieldAt bs off 4)
  rw [hlen] at hlt
  rw [addrField, addrPattern_sext32 hlt]
  simpa only [hlen] using codeBytes_codeRead e.byteOrder (fieldAt bs off 4)

/-- The bytes of a double field are those of the double it is read as. -/
theorem codeBytes_immField (e : Encoding) {bs : List Byte} {off : Nat} (h : off + 8 ≤ bs.length) :
    codeBytes e.byteOrder 8 (immField e bs off).toNat = fieldAt bs off 8 := by
  have hlen : (fieldAt bs off 8).length = 8 := fieldAt_length h
  have hlt := codeRead_lt e.byteOrder (fieldAt bs off 8)
  rw [hlen] at hlt
  rw [immField, BitVec.toNat_ofNat, Nat.mod_eq_of_lt (by simpa using hlt)]
  simpa only [hlen] using codeBytes_codeRead e.byteOrder (fieldAt bs off 8)

theorem regField_eq_ok_iff {e : Encoding} {bs : List Byte} {off : Nat} {r : Reg} :
    regField e bs off = .ok r ↔ e.reg? (byteAt bs off) = some r := by
  unfold regField
  cases e.reg? (byteAt bs off) <;> simp

/-- The byte of a register field is that of the register it is read as. -/
theorem byteOf_of_regField {e : Encoding} {bs : List Byte} {off : Nat} {r : Reg} (h : regField e bs off = .ok r) :
    e.regIdOf.byteOf r = byteAt bs off :=
  Encoding.byteOf_of_reg? (regField_eq_ok_iff.1 h)

/-- A sequence of checks answers where each of them does. -/
theorem except_bind_eq_ok {ε α β : Type} {x : Except ε α} {f : α → Except ε β} {b : β} :
    (x >>= f) = .ok b ↔ ∃ a, x = .ok a ∧ f a = .ok b := by
  cases x <;> simp [bind, Except.bind]

/-- A well-formed address operand fits its field. -/
theorem Instr.inAddrRange_of_wf {i : Instr} {a : Int} (hwf : i.wf = true) (ha : i.address? = some a) : inAddrRange a := by
  rw [Instr.wf, ha] at hwf
  exact of_decide_eq_true hwf

theorem Instr.wf_of_address? {i : Instr} (h : ∀ a, i.address? = some a → inAddrRange a) : i.wf = true := by
  unfold Instr.wf
  split
  · rfl
  · exact decide_eq_true (h _ ‹_›)

/-! Decoding the encoding of an instruction, and encoding what was decoded, by the seven formats. Settles O1 and O2. -/

/-- The operands are read back from their bytes, whatever follows. -/
theorem decodeOperands_encode {e : Encoding} (he : e.wf) {i : Instr} (hwf : i.wf = true) (rest : List Byte) :
    decodeOperands e i.opcode (encode e i ++ rest) = .ok i := by
  have reg1 : ∀ (b : Byte) (r : Reg) (after : List Byte), regField e (b :: e.regIdOf.byteOf r :: after) 1 = .ok r :=
    fun b r after => regField_byteOf he (before := [b]) rfl r after
  have addr1 : ∀ (b : Byte) {t : Int} (after : List Byte), inAddrRange t →
      addrField e (b :: (codeBytes e.byteOrder 4 (addrPattern t) ++ after)) 1 = t :=
    fun b t after ht => addrField_codeBytes e (before := [b]) rfl ht after
  have hrange : ∀ {a : Int}, i.address? = some a → inAddrRange a := fun ha => Instr.inAddrRange_of_wf hwf ha
  cases i with
  | add | sub | mul | div | sqrt | pop | input | output | ret | hlt => rfl
  | pushR r | popR r | inputR r | outputR r =>
    simp only [Instr.opcode, encode, encodeOperands, List.cons_append, List.nil_append, decodeOperands, reg1, bind, Except.bind]
  | writeR r1 r2 | readR r1 r2 =>
    have reg2 : ∀ b b1 : Byte, regField e (b :: b1 :: e.regIdOf.byteOf r2 :: rest) 2 = .ok r2 :=
      fun b b1 => regField_byteOf he (before := [b, b1]) rfl r2 rest
    simp only [Instr.opcode, encode, encodeOperands, List.cons_append, List.nil_append, decodeOperands, reg1, reg2, bind,
      Except.bind]
  | jmp t | jmpl t | jmpg t | call t =>
    simp only [Instr.opcode, encode, encodeOperands, List.cons_append, decodeOperands, addr1 _ rest (hrange rfl)]
  | writeA rs a =>
    have addr2 : ∀ b b1 : Byte, addrField e (b :: b1 :: (codeBytes e.byteOrder 4 (addrPattern a) ++ rest)) 2 = a :=
      fun b b1 => addrField_codeBytes e (before := [b, b1]) rfl (hrange rfl) rest
    simp only [Instr.opcode, encode, encodeOperands, List.cons_append, decodeOperands, reg1, addr2, bind, Except.bind]
  | readA a rd =>
    have reg5 : ∀ b : Byte,
        regField e (b :: (codeBytes e.byteOrder 4 (addrPattern a) ++ e.regIdOf.byteOf rd :: rest)) 5 = .ok rd :=
      fun b => regField_byteOf he (before := b :: codeBytes e.byteOrder 4 (addrPattern a)) (by simp) rd rest
    simp only [Instr.opcode, encode, encodeOperands, List.cons_append, List.append_assoc, List.nil_append, decodeOperands,
      reg5, addr1 _ _ (hrange rfl), bind, Except.bind]
  | pushV d =>
    have imm1 : ∀ b : Byte, immField e (b :: (codeBytes e.byteOrder 8 d.toNat ++ rest)) 1 = d :=
      fun b => immField_codeBytes e (before := [b]) rfl d rest
    simp only [Instr.opcode, encode, encodeOperands, List.cons_append, decodeOperands, imm1]

/-- The decoder reads an instruction back from its bytes, whatever follows. -/
theorem decodeBytes_encode {e : Encoding} (he : e.wf) {i : Instr} (hwf : i.wf = true) (rest : List Byte) :
    decodeBytes e (encode e i ++ rest) = .ok i := by
  have hlen : i.opcode.length ≤ (encodeOperands e i ++ rest).length + 1 := by
    have := encode_length e i
    simp only [encode, List.length_cons, Instr.length] at this
    simp only [List.length_append]
    omega
  rw [encode, List.cons_append, decodeBytes_of_opcode? (Encoding.opcode?_byteOf he _) hlen]
  exact decodeOperands_encode he hwf rest

/-- What the operand fields are read as is well formed, and its operand bytes are those of the fields. -/
theorem encodeOperands_of_decodeOperands {e : Encoding} {i : Instr} {bs : List Byte} (hlen : i.length ≤ bs.length)
    (h : decodeOperands e i.opcode bs = .ok i) :
    i.wf = true ∧ encodeOperands e i = fieldAt bs 1 (i.length - 1) := by
  have wf_of_addrField : ∀ {j : Instr} {off : Nat}, j.address? = some (addrField e bs off) → j.wf = true := by
    intro j off hj
    refine Instr.wf_of_address? fun a ha => ?_
    rw [hj, Option.some.injEq] at ha
    exact ha ▸ sext32_inAddrRange _
  cases i with
  | add | sub | mul | div | sqrt | pop | input | output | ret | hlt => exact ⟨rfl, rfl⟩
  | pushR r | popR r | inputR r | outputR r =>
    simp only [Instr.opcode, decodeOperands, except_bind_eq_ok, Except.ok.injEq, Instr.pushR.injEq, Instr.popR.injEq,
      Instr.inputR.injEq, Instr.outputR.injEq, exists_eq_right] at h
    exact ⟨rfl, by rw [encodeOperands, byteOf_of_regField h]; exact (fieldAt_one hlen).symm⟩
  | writeR r1 r2 | readR r1 r2 =>
    simp only [Instr.opcode, decodeOperands, except_bind_eq_ok, Except.ok.injEq, Instr.writeR.injEq, Instr.readR.injEq] at h
    obtain ⟨_, h1, _, h2, rfl, rfl⟩ := h
    have hlen : 3 ≤ bs.length := hlen
    refine ⟨rfl, ?_⟩
    rw [encodeOperands, byteOf_of_regField h1, byteOf_of_regField h2]
    exact .symm <| (fieldAt_add bs 1 1 1).trans <| by rw [fieldAt_one (by omega), fieldAt_one (by omega)]; rfl
  | jmp t | jmpl t | jmpg t | call t =>
    simp only [Instr.opcode, decodeOperands, Except.ok.injEq, Instr.jmp.injEq, Instr.jmpl.injEq, Instr.jmpg.injEq,
      Instr.call.injEq] at h
    subst h
    exact ⟨wf_of_addrField rfl, codeBytes_addrField e hlen⟩
  | writeA rs a =>
    simp only [Instr.opcode, decodeOperands, except_bind_eq_ok, Except.ok.injEq, Instr.writeA.injEq] at h
    obtain ⟨_, h1, rfl, rfl⟩ := h
    have hlen : 6 ≤ bs.length := hlen
    refine ⟨wf_of_addrField rfl, ?_⟩
    rw [encodeOperands, byteOf_of_regField h1, codeBytes_addrField e (by omega)]
    exact .symm <| (fieldAt_add bs 1 1 4).trans <| by rw [fieldAt_one (by omega)]; rfl
  | readA a rd =>
    simp only [Instr.opcode, decodeOperands, except_bind_eq_ok, Except.ok.injEq, Instr.readA.injEq] at h
    obtain ⟨_, h5, rfl, rfl⟩ := h
    have hlen : 6 ≤ bs.length := hlen
    refine ⟨wf_of_addrField rfl, ?_⟩
    rw [encodeOperands, byteOf_of_regField h5, codeBytes_addrField e (by omega)]
    exact .symm <| (fieldAt_add bs 1 4 1).trans <| by rw [fieldAt_one (by omega)]
  | pushV d =>
    simp only [Instr.opcode, decodeOperands, Except.ok.injEq, Instr.pushV.injEq] at h
    subst h
    exact ⟨rfl, codeBytes_immField e hlen⟩

/-- What the decoder accepts is well formed, lies inside the bytes, and they are its encoding. -/
theorem encode_of_decodeBytes {e : Encoding} {bs : List Byte} {i : Instr} (h : decodeBytes e bs = .ok i) :
    i.wf = true ∧ i.length ≤ bs.length ∧ bs.take i.length = encode e i := by
  obtain ⟨b, rest, rfl, hop, hlen, hdec⟩ := decodeBytes_ok h
  obtain ⟨hwf, hops⟩ := encodeOperands_of_decodeOperands (by simpa using hlen) hdec
  refine ⟨hwf, by simpa using hlen, ?_⟩
  have hpos : i.length = 1 + (i.length - 1) := by
    have := encode_length e i
    simp only [encode, List.length_cons] at this
    omega
  rw [encode, hops, Encoding.byteOf_of_opcode? hop, hpos, take_eq_fieldAt, fieldAt_add, fieldAt_one (by simp)]
  simp [byteAt]

end Sys2Proof

namespace Sys2Proof.Claims

/-- Settles O1: the opcode byte stands for its opcode, and each field is read back from its bytes. -/
theorem decodeInvertsEncode : Obligations.DecodeInvertsEncode :=
  fun e i rest he hwf => ⟨decodeBytes_encode he hwf rest, encode_length e i⟩

/-- Settles O2: each field's bytes are those of what it is read as. -/
theorem decodedBytesAreItsEncoding : Obligations.DecodedBytesAreItsEncoding :=
  fun _ _ _ h => encode_of_decodeBytes h

end Sys2Proof.Claims

/-! The decoder's checks in their order (R110): what an instruction's register fields decide, and that decoding reads the
instruction's own bytes only. -/

namespace Sys2Proof.Claims

open Sys2Proof.Machine

/-- Check 4 of R110: a register field that names no register is refused, whichever field of the format it is. -/
theorem decodeOperands_of_reg?_none {e : Encoding} {op : Opcode} {bs : List Byte} {off : Nat}
    (hoff : off ∈ registerFields op.format) (hreg : e.reg? (byteAt bs off) = none) :
    decodeOperands e op bs = .error .badRegister := by
  cases op with
  | add | sub | mul | div | sqrt | pop | input | output | ret | hlt | jmp | jmpl | jmpg | call | pushV =>
    simp [registerFields, Opcode.format] at hoff
  | pushR | popR | inputR | outputR | writeA | readA =>
    simp only [registerFields, Opcode.format, List.mem_singleton] at hoff
    subst hoff
    simp only [decodeOperands, regField_of_reg?_none hreg, bind, Except.bind]
  | writeR | readR =>
    simp only [registerFields, Opcode.format, List.mem_cons, List.not_mem_nil, or_false] at hoff
    obtain rfl | rfl := hoff
    · simp only [decodeOperands, regField_of_reg?_none hreg, bind, Except.bind]
    · cases h1 : e.reg? (byteAt bs 1) with
      | none => simp only [decodeOperands, regField_of_reg?_none h1, bind, Except.bind]
      | some r =>
        simp only [decodeOperands, regField_of_reg? h1, regField_of_reg?_none hreg, bind, Except.bind]

/-- With a register in every register field the operands are an instruction. -/
theorem exists_decodeOperands {e : Encoding} {op : Opcode} {bs : List Byte}
    (hreg : ∀ off ∈ registerFields op.format, e.reg? (byteAt bs off) ≠ none) : ∃ i, decodeOperands e op bs = .ok i := by
  have field : ∀ off ∈ registerFields op.format, ∃ r, regField e bs off = .ok r := fun off hoff =>
    (Option.ne_none_iff_exists'.1 (hreg off hoff)).imp fun _ h => regField_of_reg? h
  cases op with
  | add | sub | mul | div | sqrt | pop | input | output | ret | hlt | jmp | jmpl | jmpg | call | pushV => exact ⟨_, rfl⟩
  | pushR | popR | inputR | outputR | writeA =>
    obtain ⟨r, h1⟩ := field 1 (by decide)
    simp only [decodeOperands, h1, bind, Except.bind, Except.ok.injEq, exists_eq']
  | readA =>
    obtain ⟨r, h5⟩ := field 5 (by decide)
    simp only [decodeOperands, h5, bind, Except.bind, Except.ok.injEq, exists_eq']
  | writeR | readR =>
    obtain ⟨r, h1⟩ := field 1 (by decide)
    obtain ⟨r', h2⟩ := field 2 (by decide)
    simp only [decodeOperands, h1, h2, bind, Except.bind, Except.ok.injEq, exists_eq']

/-- Check 4 is the only one the operands can fail. -/
theorem decodeOperands_error {e : Encoding} {op : Opcode} {bs : List Byte} {c : FaultCause}
    (h : decodeOperands e op bs = .error c) : c = .badRegister := by
  by_cases hreg : ∃ off ∈ registerFields op.format, e.reg? (byteAt bs off) = none
  · obtain ⟨off, hoff, hnone⟩ := hreg
    rw [decodeOperands_of_reg?_none hoff hnone] at h
    exact (Except.error.inj h).symm
  · obtain ⟨i, hi⟩ := exists_decodeOperands (e := e) (op := op) (bs := bs) fun off hoff hnone => hreg ⟨off, hoff, hnone⟩
    rw [hi] at h
    cases h

theorem checksRegister_of_mem {op : Opcode} {off : Nat} (hoff : off ∈ registerFields op.format) : ChecksRegister op off :=
  fun _ _ _ hop hlong hreg => by rw [decodeBytes_of_opcode? hop hlong, decodeOperands_of_reg?_none hoff hreg]

/-- Check 2 of R110. -/
theorem decodeBytes_of_opcode?_none {e : Encoding} {b : Byte} (h : e.opcode? b = none) (rest : List Byte) :
    decodeBytes e (b :: rest) = .error .badOpcode := by
  simp only [decodeBytes, h]

/-- The illegal opcode bytes are those of no opcode: no later check answers `BAD_OPCODE`. -/
theorem decodeBytes_eq_badOpcode_iff {e : Encoding} {b : Byte} {rest : List Byte} :
    decodeBytes e (b :: rest) = .error .badOpcode ↔ e.opcode? b = none := by
  refine ⟨fun h => ?_, fun h => decodeBytes_of_opcode?_none h rest⟩
  cases hop : e.opcode? b with
  | none => rfl
  | some op =>
    exfalso
    rcases Nat.lt_or_ge (rest.length + 1) op.length with hshort | hlong
    · rw [truncates op e b rest hop hshort] at h
      cases h
    · rw [decodeBytes_of_opcode? hop hlong] at h
      cases decodeOperands_error h

/-- A check of R110 that fails among the first four is the decoder's answer. -/
theorem decodeAt_of_decodeBytes_error {e : Encoding} {code : List Byte} {ip : Nat} {c : FaultCause}
    (h : decodeBytes e (code.drop ip) = .error c) : decodeAt e code ip = .error c := by
  rw [decodeAt, h]
  rfl

/-- Check 1 of R110. -/
theorem decodeAt_of_length_le {e : Encoding} {code : List Byte} {ip : Nat} (h : code.length ≤ ip) :
    decodeAt e code ip = .error .endOfStream :=
  decodeAt_of_decodeBytes_error (by rw [List.drop_eq_nil_of_le h]; rfl)

/-- Check 3 of R110. -/
theorem decodeAt_truncated {e : Encoding} {code : List Byte} {ip : Nat} (h : ip < code.length) {op : Opcode}
    (hop : e.opcode? code[ip] = some op) (hlen : code.length < ip + op.length) :
    decodeAt e code ip = .error .truncatedOperand := by
  refine decodeAt_of_decodeBytes_error ?_
  rw [List.drop_eq_getElem_cons h]
  refine truncates op e _ _ hop ?_
  simp only [List.length_drop]
  omega

/-- A byte of the instruction at `ip` is the byte of the code at that offset from `ip`. -/
theorem byteAt_drop (code : List Byte) (ip off : Nat) : byteAt (code.drop ip) off = code.getD (ip + off) 0 := by
  simp only [byteAt, List.getD_eq_getElem?_getD, List.getElem?_drop]

/-- The instructions with a code target are the four transfers (R220). -/
theorem target?_isSome_iff (i : Instr) :
    i.target?.isSome = true ↔ i.opcode ∈ [Opcode.jmp, .jmpl, .jmpg, .call] := by
  cases i <;> simp [Instr.target?, Instr.opcode]

/-- Check 5 of R110 passes where every target is inside the code. -/
theorem checkTarget_of_targetOk {codeLen : Nat} {i : Instr} (h : ∀ t, i.target? = some t → targetOk codeLen t) :
    checkTarget codeLen i = .ok i := by
  unfold checkTarget
  split
  · rfl
  · exact if_pos (h _ ‹_›)

/-- Check 5 of R110 fails where the target is outside the code. -/
theorem checkTarget_of_outside {codeLen : Nat} {i : Instr} {t : Int} (ht : i.target? = some t)
    (hout : t < 0 ∨ (codeLen : Int) ≤ t) : checkTarget codeLen i = .error .badTarget := by
  have hbad : ¬ targetOk codeLen t := fun hok => hout.elim hok.1.not_gt hok.2.not_ge
  simp only [checkTarget, ht, if_neg hbad]

/-- The bytes of an instruction decide what its operands are read as. -/
theorem decodeOperands_congr {e : Encoding} {op : Opcode} {bs bs' : List Byte}
    (h : ∀ k < op.length, bs'[k]? = bs[k]?) : decodeOperands e op bs' = decodeOperands e op bs := by
  have byte : ∀ off < op.length, regField e bs' off = regField e bs off := by
    intro off hoff
    simp only [regField, byteAt, List.getD_eq_getElem?_getD, h off hoff]
  have field : ∀ off n, off + n ≤ op.length → fieldAt bs' off n = fieldAt bs off n := by
    intro off n hn
    refine List.ext_getElem? fun k => ?_
    rcases Nat.lt_or_ge k n with hk | hk
    · simp only [fieldAt, List.getElem?_take_of_lt hk, List.getElem?_drop, h (off + k) (by omega)]
    · simp only [fieldAt, List.getElem?_take_eq_none hk]
  cases op with
  | add | sub | mul | div | sqrt | pop | input | output | ret | hlt => rfl
  | pushR | popR | inputR | outputR => simp only [decodeOperands, byte 1 (by decide)]
  | writeR | readR => simp only [decodeOperands, byte 1 (by decide), byte 2 (by decide)]
  | jmp | jmpl | jmpg | call => simp only [decodeOperands, addrField, field 1 4 (by decide)]
  | writeA => simp only [decodeOperands, addrField, byte 1 (by decide), field 2 4 (by decide)]
  | readA => simp only [decodeOperands, addrField, byte 5 (by decide), field 1 4 (by decide)]
  | pushV => simp only [decodeOperands, immField, field 1 8 (by decide)]

/-- Other bytes that agree on those of the instruction are decoded to it too. -/
theorem decodeBytes_congr {e : Encoding} {bs bs' : List Byte} {i : Instr} (h : decodeBytes e bs = .ok i)
    (hagree : ∀ k < i.length, bs'[k]? = bs[k]?) : decodeBytes e bs' = .ok i := by
  obtain ⟨b, rest, rfl, hop, hlen, hdec⟩ := decodeBytes_ok h
  have hpos : 0 < i.length := by
    rw [← encode_length e]
    exact Nat.succ_pos _
  have hfits : i.length ≤ bs'.length := by
    have hlast := hagree (i.length - 1) (by omega)
    have hlt : i.length - 1 < (b :: rest).length := by
      simp only [List.length_cons]
      omega
    rw [List.getElem?_eq_getElem hlt] at hlast
    have := (List.getElem?_eq_some_iff.1 hlast).1
    omega
  match bs', hagree, hfits with
  | [], _, hfits => exact absurd hfits hpos.not_ge
  | b' :: rest', hagree, hfits =>
    obtain rfl : b' = b := by simpa using hagree 0 hpos
    rw [decodeBytes_of_opcode? hop hfits, decodeOperands_congr hagree, hdec]

end Sys2Proof.Claims

/-! The statements about the tables and the decoder. Settles O3 to O8. -/

namespace Sys2Proof.Claims

open Sys2Proof.Machine

/-- Settles O3: the tables row by row. -/
theorem formatsAndLengthsAreTheTables : Obligations.FormatsAndLengthsAreTheTables :=
  ⟨by decide, by decide, Opcode.mem_all⟩

/-- Settles O4: the illegal bytes are those of no opcode, and the default numbering is checked byte by byte. -/
theorem illegalOpcodeBytes : Obligations.IllegalOpcodeBytes := by
  intro b rest
  rw [decodeBytes_eq_badOpcode_iff]
  revert b
  decide +kernel

/-- Settles O5: the default numbering byte by byte, and check 4 on every register field of every format. -/
theorem registerFieldBytes : Obligations.RegisterFieldBytes := by
  refine ⟨fun b r => ?_, ?_⟩
  · revert b
    cases r <;> decide +kernel
  · refine ⟨?_, ?_, ?_, ?_, ?_, ?_, ?_, ?_, ?_, ?_⟩ <;> exact checksRegister_of_mem (by decide)

/-- Settles O6: one lemma for each of the five checks, and the instruction that passes them is the one its bytes encode. -/
theorem decodeChecksInOrder : Obligations.DecodeChecksInOrder := by
  refine fun e code ip => ⟨decodeAt_of_length_le, fun h =>
    ⟨fun hop => ?_, fun op hop => ⟨decodeAt_truncated h hop, fun hfits => ?_⟩⟩⟩
  · refine decodeAt_of_decodeBytes_error ?_
    rw [List.drop_eq_getElem_cons h]
    exact decodeBytes_of_opcode?_none hop _
  · have hbytes : decodeBytes e (code.drop ip) = decodeOperands e op (code.drop ip) := by
      rw [List.drop_eq_getElem_cons h]
      refine decodeBytes_of_opcode? hop ?_
      simp only [List.length_drop]
      omega
    simp only [← byteAt_drop]
    refine ⟨fun ⟨off, hoff, hnone⟩ => ?_, fun hregs => ?_⟩
    · exact decodeAt_of_decodeBytes_error (hbytes.trans (decodeOperands_of_reg?_none hoff hnone))
    · obtain ⟨i, hi⟩ := exists_decodeOperands hregs
      obtain rfl : i.opcode = op := opcode_of_decodeOperands hi
      have hdec : decodeBytes e (code.drop ip) = .ok i := hbytes.trans hi
      obtain ⟨hwf, _, henc⟩ := encode_of_decodeBytes hdec
      refine ⟨i, rfl, hwf, henc.symm, target?_isSome_iff i, fun t ht hout => ?_, fun hin => ?_⟩
      · rw [decodeAt_of_decodeBytes hdec, checkTarget_of_outside ht hout]
      · rw [decodeAt_of_decodeBytes hdec, checkTarget_of_targetOk hin]

/-- Settles O7: the bytes of the instruction decide checks 1 to 4, the code's length check 5. -/
theorem decodeReadsOnlyItsOwnBytes : Obligations.DecodeReadsOnlyItsOwnBytes := by
  intro e code code' ip i h hlen hagree
  obtain ⟨hdec, htarget⟩ := decodeAt_ok h
  have hdec' : decodeBytes e (code'.drop ip) = .ok i :=
    decodeBytes_congr hdec fun k hk => by simp only [List.getElem?_drop, hagree k hk]
  rw [decodeAt_of_decodeBytes hdec', hlen, checkTarget_of_targetOk htarget]

/-- Settles O8: each word, decoded by the tables. -/
theorem sampleWordsDecode : Obligations.SampleWordsDecode := by
  unfold Obligations.SampleWordsDecode
  decide

end Sys2Proof.Claims

/-! A step of a running launch by what the decoder answers (R111, R252). Settles O9 and O10. -/

namespace Sys2Proof.Machine

theorem step_of_fetchDecode_ok {s : State} {i : Instr} (ha : s.execActive = true) (h : fetchDecode s = .ok i) :
    step s = exec i s := by
  simp only [step, ha, h]

theorem step_of_fetchDecode_error {s : State} {c : FaultCause} (ha : s.execActive = true)
    (h : fetchDecode s = .error c) : step s = Claims.faulted c s := by
  simp only [step, ha, h]
  rfl

/-- R31: a fetch at or past the end of the code. -/
theorem step_endOfStream {s : State} (ha : s.execActive = true) (h : s.codeLen ≤ s.ip) :
    step s = Claims.faulted .endOfStream s :=
  step_of_fetchDecode_error ha (Claims.decodeAt_of_length_le h)

theorem idleStep_nil {s : State} (h : s.hostQueue = []) : idleStep s = s := by
  rw [idleStep, h]

theorem idleStep_cons {s : State} {r : HostRequest} {rest : List HostRequest} (h : s.hostQueue = r :: rest) :
    idleStep s = hostStep r { s with hostQueue := rest } := by
  rw [idleStep, h]

end Sys2Proof.Machine

namespace Sys2Proof.Claims

open Sys2Proof.Machine

/-- Settles O9: the step by the decoder's answer, and the idle step by the host's queue. -/
theorem stepRunsTheDecodedInstruction : Obligations.StepRunsTheDecodedInstruction :=
  fun _ => ⟨fun _ => step_of_fetchDecode_ok, fun _ => step_of_fetchDecode_error, rfl,
    fun ha hq => by rw [step_idle ha, idleStep_nil hq], fun _ _ ha hq => by rw [step_idle ha, idleStep_cons hq]⟩

/-- Settles O10: checks 1, 3 and 5 of the decoder, each the fault of the step. -/
theorem noWrapAround : Obligations.NoWrapAround := by
  refine fun s ha => ⟨step_endOfStream ha, fun h op hop hlen => ?_, fun i t hdec ht hout => ?_⟩
  · exact step_of_fetchDecode_error ha (decodeAt_truncated h hop hlen)
  · exact step_of_fetchDecode_error ha ((decodeAt_of_decodeBytes hdec).trans (checkTarget_of_outside ht hout))

end Sys2Proof.Claims

/-! What a step of a running launch can do (R111): a fault, the end by `hlt`, or an instruction that keeps what `Keeps` says.
Settles O11, O12, O23, O24 and O25. -/

namespace Sys2Proof.Laws

open Sys2Proof.Machine

/-- The decoder's faults have a cause (R110). -/
theorem decodeAt_error_ne_none {e : Encoding} {code : List Byte} {ip : Nat} {c : FaultCause}
    (h : decodeAt e code ip = .error c) : c ≠ .none := by
  cases hdec : decodeBytes e (code.drop ip) with
  | error c' =>
    obtain rfl : c' = c := Except.error.inj ((Claims.decodeAt_of_decodeBytes_error hdec).symm.trans h)
    unfold decodeBytes at hdec
    split at hdec
    · cases hdec
      decide
    · split at hdec
      · cases hdec
        decide
      · split at hdec
        · cases hdec
          decide
        · cases Claims.decodeOperands_error hdec
          decide
  | ok i =>
    rw [Claims.decodeAt_of_decodeBytes hdec] at h
    unfold checkTarget at h
    split at h
    · cases h
    · split at h <;> cases h
      decide

/-- A fault in the state of the step, or after its instruction used up a token or an answer (R253). -/
inductive StepFaults (s : State) : State → Prop
  | decode (c : FaultCause) (hc : c ≠ .none) (h : fetchDecode s = .error c) : StepFaults s (takeFault c s)
  | instr (i : Instr) (h : fetchDecode s = .ok i) (c : FaultCause) (s1 : State) (hf : Faulty i s c s1) :
      StepFaults s (takeFault c s1)

/-- Everything a step of a running launch can do. -/
theorem step_active_cases {s t : State} (ha : s.execActive = true) (h : step s = .next t) :
    StepFaults s t ∨ (fetchDecode s = .ok .hlt ∧ t = s.halt) ∨ ∃ i, fetchDecode s = .ok i ∧ Keeps i s t := by
  obtain ⟨c, hc, rfl⟩ | ⟨i, hi, hexec⟩ := step_active ha h
  · exact .inl (.decode c (decodeAt_error_ne_none hc) hc)
  · obtain ⟨c, s1, rfl, hf⟩ | ⟨rfl, rfl⟩ | hk := exec_cases hexec
    · exact .inl (.instr i hi c s1 hf)
    · exact .inr (.inl ⟨hi, rfl⟩)
    · exact .inr (.inr ⟨i, hi, hk⟩)

/-- What a fault leaves of the state but for the fault record: everything except a token or an answer (R253). -/
structure FaultKeeps (s t : State) : Prop where
  cause : t.faultCause ≠ .none
  frame : t = { s with
    mode := .wait
    faultCause := t.faultCause
    faultedSinceReset := true
    execActive := false
    lastResult := some (.failure t.faultCause)
    inTokens := t.inTokens
    outAnswers := t.outAnswers }
  tokens : t.inTokens = s.inTokens ∨ (t.faultCause = .ioError ∧ t.inTokens = s.inTokens.tail ∧
    (fetchDecode s = .ok .input ∨ ∃ r, fetchDecode s = .ok (.inputR r)))
  answers : t.outAnswers = s.outAnswers ∨ (t.faultCause = .ioError ∧ s.outAnswers = false :: t.outAnswers)

theorem StepFaults.keeps {s t : State} (h : StepFaults s t) : FaultKeeps s t := by
  cases h with
  | decode c hc h => exact ⟨hc, rfl, .inl rfl, .inl rfl⟩
  | instr i hi c s1 hf =>
    cases hf with
    | same _ hc => exact ⟨hc, rfl, .inl rfl, .inl rfl⟩
    | tok hin =>
      refine ⟨by simp, rfl, .inr ⟨rfl, rfl, ?_⟩, .inl rfl⟩
      obtain rfl | ⟨r, rfl⟩ := hin
      · exact .inl hi
      · exact .inr ⟨r, hi⟩
    | ans rest ha => exact ⟨by simp, rfl, .inl rfl, .inr ⟨rfl, ha⟩⟩

end Sys2Proof.Laws

namespace Sys2Proof.Claims

open Sys2Proof.Machine Sys2Proof.Laws

/-- Settles O11: neither `hlt` nor an instruction that completes ends in WAIT, and a fault keeps what `FaultKeeps` says. -/
theorem faultsArePrecise : Obligations.FaultsArePrecise := by
  intro s t ha hon h hwait
  obtain hf | ⟨_, rfl⟩ | ⟨i, _, hk⟩ := step_active_cases ha h
  · exact ⟨hf.keeps.cause, hf.keeps.frame, hf.keeps.tokens.imp_right fun ⟨hc, ht, _⟩ => ⟨hc, ht⟩, hf.keeps.answers⟩
  · cases hwait
  · rw [hk.mode, hon] at hwait
    cases hwait

/-- Settles O12: the three cases of a step, in their order. -/
theorem modeChangesOnlyByHaltOrFault : Obligations.ModeChangesOnlyByHaltOrFault := by
  intro s t ha hon h
  obtain hf | ⟨hi, rfl⟩ | ⟨i, _, hk⟩ := step_active_cases ha h
  · have hframe := hf.keeps.frame
    exact .inr (.inr ⟨by rw [hframe], by rw [hframe], hf.keeps.cause, by rw [hframe]⟩)
  · exact .inr (.inl ⟨rfl, rfl, hi, rfl⟩)
  · exact .inl ⟨hk.mode.trans hon, hk.act.trans ha, hk.cause⟩

/-- Settles O23: a fault and `hlt` write no register, an instruction that completes only its destination. -/
theorem onlyTheNamedRegisterIsWritten : Obligations.OnlyTheNamedRegisterIsWritten := by
  rintro s t i r ⟨ha, hi⟩ h hw
  obtain hf | ⟨_, rfl⟩ | ⟨j, hj, hk⟩ := step_active_cases ha h
  · exact State.reg_congr _ _ (by rw [hf.keeps.frame]) r
  · rfl
  · obtain rfl : i = j := Except.ok.inj (hi.symm.trans hj)
    exact hk.regs r hw

/-- Settles O24: only an instruction that completes can change memory, by a write, which keeps the banks' sizes. -/
theorem launchKeepsCodeAndMemoryLayout : Obligations.LaunchKeepsCodeAndMemoryLayout := by
  intro s t ha h
  obtain hf | ⟨_, rfl⟩ | ⟨i, hi, hk⟩ := step_active_cases ha h
  · rw [hf.keeps.frame]
    exact ⟨rfl, rfl, rfl, rfl, fun hne => absurd rfl hne⟩
  · exact ⟨rfl, rfl, rfl, rfl, fun hne => absurd rfl hne⟩
  · obtain hsame | ⟨a, v, m, hm, hmem, hwrite⟩ := hk.mem
    · exact ⟨hk.code, hk.params, hk.hq, by rw [hsame], fun hne => absurd hsame hne⟩
    · refine ⟨hk.code, hk.params, hk.hq, by rw [hmem, Memory.write_sizes hm], fun _ => ?_⟩
      obtain ⟨rs, ri, rfl⟩ | ⟨rs, a, rfl⟩ := hwrite
      · exact ⟨rs, .inl ⟨ri, hi⟩⟩
      · exact ⟨rs, .inr ⟨a, hi⟩⟩

/-- Settles O25: the console's part of each of the three cases of a step. -/
theorem consoleMovesOneValueAtATime : Obligations.ConsoleMovesOneValueAtATime := by
  intro s t ha h
  obtain hf | ⟨_, rfl⟩ | ⟨i, hi, hk⟩ := step_active_cases ha h
  · refine ⟨hf.keeps.tokens.imp_right fun ⟨_, ht, hin⟩ => ⟨ht, hin⟩, .inl ?_⟩
    rw [hf.keeps.frame]
  · exact ⟨.inl rfl, .inl rfl⟩
  · refine ⟨hk.inp.imp_right fun ⟨ht, hin⟩ => ⟨ht, ?_⟩, hk.out.imp_right fun ⟨v, ht, hout⟩ => ⟨v, ht, ?_⟩⟩
    · obtain rfl | ⟨r, rfl⟩ := hin
      · exact .inl hi
      · exact .inr ⟨r, hi⟩
    · obtain rfl | ⟨r, rfl⟩ := hout
      · exact .inl hi
      · exact .inr ⟨r, hi⟩

end Sys2Proof.Claims

/-! The host's transactions (R23, R40 to R48). Settles O13 to O17 and O19. -/

namespace Sys2Proof.Machine

/-- No transaction of the host is accepted while a launch runs (R48). -/
theorem State.powerOn_of_active {s : State} (ha : s.execActive = true) : s.powerOn = s := if_pos ha

theorem State.doReset_of_active {s : State} (ha : s.execActive = true) : s.doReset = s := if_pos ha

theorem State.execute_of_active {s : State} (ha : s.execActive = true) (code : List Byte) : s.execute code = s := if_pos ha

theorem hostStep_of_active (q : HostRequest) {s : State} (ha : s.execActive = true) : hostStep q s = s := if_pos ha

theorem State.powerOn_of_on {s : State} (hm : s.mode = .on) : s.powerOn = s := by
  simp only [State.powerOn, hm, ite_self]

section Idle

variable {s : State} (ha : s.execActive = false)
include ha

/-- R41, by the mode. -/
theorem State.powerOn_of_off (hm : s.mode = .off) : s.powerOn =
    { s with
      mode := .on, opStack := some [], callStack := some [], faultCause := .none, faultedSinceReset := false } := by
  simp only [State.powerOn, ha, hm, Bool.false_eq_true, if_false]

theorem State.powerOn_of_wait (hm : s.mode = .wait) : s.powerOn = { s with mode := .on, faultCause := .none } := by
  simp only [State.powerOn, ha, hm, Bool.false_eq_true, if_false]

/-- R42. -/
theorem State.doReset_of_idle : s.doReset =
    { s with
      mode := .on
      opStack := some []
      callStack := some []
      regs := { rax := 0, rbx := 0, rcx := 0 }
      faultCause := .none
      faultedSinceReset := false } := by
  simp only [State.doReset, ha, Bool.false_eq_true, if_false]

/-- R43 (a). -/
theorem State.execute_of_refuses {code : List Byte} (hr : s.refuses code = true) :
    s.execute code = { s with lastResult := some .refused } := by
  simp only [State.execute, ha, hr, Bool.false_eq_true, if_false, if_true]

/-- R43 (b). -/
theorem State.execute_of_accepts {code : List Byte} (hr : s.refuses code = false) : s.execute code = s.launch code := by
  simp only [State.execute, ha, hr, Bool.false_eq_true, if_false]

theorem hostStep_powerOn : hostStep .powerOn s = s.powerOn := by
  simp only [hostStep, ha, Bool.false_eq_true, if_false]

theorem hostStep_reset : hostStep .reset s = s.doReset := by
  simp only [hostStep, ha, Bool.false_eq_true, if_false]

theorem hostStep_execute (code : List Byte) : hostStep (.execute code) s = s.execute code := by
  simp only [hostStep, ha, Bool.false_eq_true, if_false]

theorem hostStep_setReg (r : Reg) (v : Value) : hostStep (.setReg r v) s = s.setReg r v := by
  simp only [hostStep, ha, Bool.false_eq_true, if_false]

theorem hostStep_newMemory : hostStep .newMemory s = { s with mem := { banks := [] } } := by
  simp only [hostStep, ha, Bool.false_eq_true, if_false]

theorem hostStep_createBank_none {size : Int} {fill : Value} {init : List Value} {allocated : Bool}
    (h : s.mem.createBank size fill init allocated = none) : hostStep (.createBank size fill init allocated) s = s := by
  simp only [hostStep, ha, h, Bool.false_eq_true, if_false]

theorem hostStep_createBank_some {size : Int} {fill : Value} {init : List Value} {allocated : Bool} {m : Memory}
    (h : s.mem.createBank size fill init allocated = some m) :
    hostStep (.createBank size fill init allocated) s = { s with mem := m } := by
  simp only [hostStep, ha, h, Bool.false_eq_true, if_false]

end Idle

/-- When a launch is refused (R43 (a); log 12). -/
theorem State.refuses_iff {s : State} {code : List Byte} : s.refuses code = true ↔
    s.mode ≠ .on ∨ (s.params.restartPolicy = .requireReset ∧ s.faultedSinceReset = true) ∨
      Config.maxCodeLen < code.length := by
  simp only [State.refuses, Bool.or_eq_true, Bool.and_eq_true, decide_eq_true_eq, or_assoc]

end Sys2Proof.Machine

namespace Sys2Proof.Claims

open Sys2Proof.Machine

/-- The fault causes in the order of the table of R250. -/
def causeTable : List FaultCause :=
  [.none, .stackUnderflow, .divNearZero, .sqrtNegative, .badRegister, .badOpcode, .truncatedOperand] ++
  [.retEmpty, .memOutOfRange, .endOfStream, .badTarget, .badIndex, .ioError, .resource]

/-- The code of a cause is its place in the table. -/
theorem causeTable_getElem?_causeCode (c : FaultCause) : causeTable[causeCode c]? = some c := by
  cases c <;> rfl

/-- Settles O13: the two tables; the codes are distinct since they are positions in the list. -/
theorem codesAreTheTables : Obligations.CodesAreTheTables := by
  refine ⟨by decide, by decide, fun c d h => ?_⟩
  have hpos := causeTable_getElem?_causeCode c
  rw [h, causeTable_getElem?_causeCode d, Option.some.injEq] at hpos
  exact hpos.symm

/-- Settles O14: one lemma for each mode. -/
theorem powerOnByMode : Obligations.PowerOnByMode :=
  fun _ => ⟨State.powerOn_of_active, State.powerOn_of_off, fun _ => State.powerOn_of_on, State.powerOn_of_wait⟩

/-- Settles O15: with and without a launch. -/
theorem resetClearsStacksAndRegisters : Obligations.ResetClearsStacksAndRegisters :=
  ⟨fun _ => State.doReset_of_idle, fun _ => State.doReset_of_active⟩

/-- Settles O16: the conditions of a refusal, and their complement. -/
theorem executeStartsOrRefuses : Obligations.ExecuteStartsOrRefuses := by
  refine fun s code => ⟨fun ha => State.execute_of_active ha code, fun ha hr => ?_, fun ha hon hpol hlen => ?_⟩
  · exact State.execute_of_refuses ha (State.refuses_iff.2 hr)
  · refine State.execute_of_accepts ha (eq_false_of_ne_true fun hr => ?_)
    obtain hm | ⟨hreq, hfault⟩ | hlong := State.refuses_iff.1 hr
    · exact hm hon
    · rw [hreq, hfault] at hpol
      simp at hpol
    · exact absurd hlen hlong.not_ge

/-- Settles O17: none in a launch, and each outside it. -/
theorem hostActsOnlyBetweenLaunches : Obligations.HostActsOnlyBetweenLaunches := by
  refine ⟨fun q s ha => hostStep_of_active q ha, fun r r' v s ha => ?_, fun s ha => ?_⟩
  · rw [hostStep_setReg ha]
    exact ⟨State.setReg_reg_same s r v, State.setReg_reg_other s r r' v, rfl⟩
  · exact ⟨hostStep_powerOn ha, hostStep_reset ha, hostStep_execute ha, hostStep_newMemory ha,
      fun _ _ _ _ => ⟨hostStep_createBank_none ha, fun _ => hostStep_createBank_some ha⟩⟩

/-- Settles O19: both states written out, and `reset` of the one is the other. -/
theorem resetSatisfiesTheInvariant : Obligations.ResetSatisfiesTheInvariant := by
  have hcap : ∀ st : Option (List Value), withinCap none st := fun _ c hc => absurd hc (by simp)
  have hcap' : ∀ st : Option (List Nat), withinCap none st := fun _ c hc => absurd hc (by simp)
  refine ⟨⟨?_, ?_, ?_, ?_, ?_, hcap _, hcap' _, by decide⟩, ⟨?_, ?_, ?_, ?_, ?_, hcap _, hcap' _, by decide⟩, rfl⟩
  all_goals decide

end Sys2Proof.Claims

/-! The invariant (R24, R25, R33 to R35, R97): every step keeps it, of a launch and of the host. Settles O20. -/

namespace Sys2Proof.Laws

open Sys2Proof.Machine

/-- The host's queue is no part of the invariant. -/
theorem inv_hostQueue {s : State} (h : s.Inv) (rest : List HostRequest) : State.Inv { s with hostQueue := rest } := h

/-- A memory in canonical form may take the place of another. -/
theorem inv_withMem {s : State} (h : s.Inv) {m : Memory} (hm : m.wf) : State.Inv { s with mem := m } := by
  obtain ⟨hstacks, hcause, hon, -, hcode, hopcap, hcscap, henc⟩ := h
  exact ⟨hstacks, hcause, hon, hm, hcode, hopcap, hcscap, henc⟩

/-- A fault in a launch goes from ON to WAIT with its cause; stacks, memory and code stay (R252). -/
theorem inv_of_stepFaults {s t : State} (h : s.Inv) (ha : s.execActive = true) (hf : StepFaults s t) : t.Inv := by
  obtain ⟨⟨hops, hcs⟩, -, hon, hmem, hcode, hopcap, hcscap, henc⟩ := h
  have hmode : s.mode = .on := hon ha
  rw [hmode] at hops hcs
  have hcause := hf.keeps.cause
  rw [hf.keeps.frame]
  refine ⟨⟨?_, ?_⟩, ⟨?_, fun _ => rfl⟩, fun h => ?_, hmem, hcode, hopcap, hcscap, henc⟩
  · simpa using hops
  · simpa using hcs
  · simpa using hcause
  · cases h

/-- `hlt` goes from ON to OFF and releases the stacks (R231). -/
theorem inv_halt {s : State} (h : s.Inv) (ha : s.execActive = true) : s.halt.Inv := by
  obtain ⟨-, ⟨hcause, -⟩, hon, hmem, hcode, -, -, henc⟩ := h
  have hnone : s.faultCause = .none := hcause.2 (by rw [hon ha]; decide)
  exact ⟨⟨by simp, by simp⟩, ⟨by simp [hnone], by simp⟩, by simp, hmem, hcode, by simp [withinCap],
    by simp [withinCap], henc⟩

/-- An instruction that completes keeps the lifecycle, the canonical form of memory and the capacities. -/
theorem inv_of_keeps {i : Instr} {s t : State} (h : s.Inv) (hk : Keeps i s t) : t.Inv := by
  obtain ⟨⟨hops, hcs⟩, hcause, hon, hmem, hcode, hopcap, hcscap, henc⟩ := h
  refine ⟨⟨?_, ?_⟩, ?_, ?_, ?_, ?_, ?_, ?_, ?_⟩
  · rw [hk.ops, hk.mode, hops]
  · rw [hk.cs, hk.mode, hcs]
  · rw [State.CauseFollowsMode, hk.cause, hk.mode, hk.fsr]
    exact hcause
  · rw [State.LaunchIsOn, hk.act, hk.mode]
    exact hon
  · obtain hsame | ⟨a, v, m, hm, rfl, _⟩ := hk.mem
    · rw [hsame]
      exact hmem
    · exact Memory.write_wf hmem hm
  · rw [State.codeLen, hk.code]
    exact hcode
  · rw [hk.params]
    exact hk.opcap hopcap
  · rw [hk.params]
    exact hk.cscap hcscap
  · rw [hk.params]
    exact henc

/-- Empty stacks are within every capacity. -/
theorem withinCap_nil {α : Type} (cap : Option Nat) : withinCap cap (some ([] : List α)) := by
  simp [withinCap]

section Host

variable {s : State} (h : s.Inv) (ha : s.execActive = false)
include h ha

theorem inv_powerOn : s.powerOn.Inv := by
  obtain ⟨⟨hops, hcs⟩, ⟨hcause, hfsr⟩, hon, hmem, hcode, hopcap, hcscap, henc⟩ := h
  cases hm : s.mode with
  | off =>
    rw [State.powerOn_of_off ha hm]
    exact ⟨⟨by simp, by simp⟩, ⟨by simp, by simp⟩, fun _ => rfl, hmem, hcode, withinCap_nil _, withinCap_nil _, henc⟩
  | on =>
    rw [State.powerOn_of_on hm]
    exact ⟨⟨hops, hcs⟩, ⟨hcause, hfsr⟩, hon, hmem, hcode, hopcap, hcscap, henc⟩
  | wait =>
    rw [State.powerOn_of_wait ha hm]
    rw [hm] at hops hcs
    exact ⟨⟨by simpa using hops, by simpa using hcs⟩, ⟨by simp, by simp⟩, fun _ => rfl, hmem, hcode, hopcap, hcscap,
      henc⟩

theorem inv_doReset : s.doReset.Inv := by
  obtain ⟨-, -, -, hmem, hcode, -, -, henc⟩ := h
  rw [State.doReset_of_idle ha]
  exact ⟨⟨by simp, by simp⟩, ⟨by simp, by simp⟩, fun _ => rfl, hmem, hcode, withinCap_nil _, withinCap_nil _, henc⟩

/-- A launch that is accepted starts in ON and its code is not too long (R43). -/
theorem inv_execute (code : List Byte) : (s.execute code).Inv := by
  cases hr : s.refuses code with
  | true =>
    rw [State.execute_of_refuses ha hr]
    exact h
  | false =>
    rw [State.execute_of_accepts ha hr]
    obtain ⟨hmode, _, hlen⟩ : s.mode = .on ∧ _ ∧ code.length ≤ Config.maxCodeLen := by
      simpa only [not_or, not_not, not_lt] using mt State.refuses_iff.2 (by rw [hr]; decide)
    obtain ⟨hstacks, hcause, -, hmem, -, hopcap, hcscap, henc⟩ := h
    exact ⟨hstacks, hcause, fun _ => hmode, hmem, hlen, hopcap, hcscap, henc⟩

theorem inv_hostStep (q : HostRequest) : (hostStep q s).Inv := by
  cases q with
  | powerOn =>
    rw [hostStep_powerOn ha]
    exact inv_powerOn h ha
  | reset =>
    rw [hostStep_reset ha]
    exact inv_doReset h ha
  | execute code =>
    rw [hostStep_execute ha]
    exact inv_execute h ha code
  | setReg r v =>
    rw [hostStep_setReg ha]
    exact h
  | newMemory =>
    rw [hostStep_newMemory ha]
    exact inv_withMem h (fun _ hb => nomatch hb)
  | createBank size fill init allocated =>
    obtain ⟨-, -, -, hmem, -⟩ := id h
    cases hc : s.mem.createBank size fill init allocated with
    | none =>
      rw [hostStep_createBank_none ha hc]
      exact h
    | some m =>
      rw [hostStep_createBank_some ha hc]
      exact inv_withMem h (Memory.createBank_wf hmem hc)

theorem inv_idleStep : (idleStep s).Inv := by
  cases hq : s.hostQueue with
  | nil =>
    rw [idleStep_nil hq]
    exact h
  | cons q rest =>
    rw [idleStep_cons hq]
    exact inv_hostStep (inv_hostQueue h rest) ha q

end Host

end Sys2Proof.Laws

namespace Sys2Proof.Claims

open Sys2Proof.Machine Sys2Proof.Laws

/-- Settles O20: the three cases of a step of a launch, and the host's transactions. -/
theorem everyStepKeepsTheInvariant : Obligations.EveryStepKeepsTheInvariant := by
  intro s t h hstep
  cases ha : s.execActive with
  | true =>
    obtain hf | ⟨_, rfl⟩ | ⟨i, _, hk⟩ := step_active_cases ha hstep
    · exact inv_of_stepFaults h ha hf
    · exact inv_halt h ha
    · exact inv_of_keeps h hk
  | false =>
    rw [step_idle ha] at hstep
    cases hstep
    exact inv_idleStep h ha

end Sys2Proof.Claims

/-! Progress: with both stacks there, every operation and so every instruction has a next state (R24, R26; log 16). Settles
O21. -/

namespace Sys2Proof.Machine

/-- An answer that is a next state. -/
def HasNext (r : Result) : Prop := ∃ t, r = .next t

theorem hasNext_next (t : State) : HasNext (.next t) := ⟨t, rfl⟩

theorem hasNext_raiseFault (c : FaultCause) (s : State) : HasNext (raiseFault c s) := ⟨_, rfl⟩

section Operations

variable {s : State}

theorem hasNext_withStack {k : List Value → Result} (hs : s.opStack ≠ none) (hk : ∀ st, HasNext (k st)) :
    HasNext (withStack s k) := by
  obtain ⟨st, hst⟩ := Option.ne_none_iff_exists'.1 hs
  rw [withStack_of_some hst]
  exact hk st

theorem hasNext_withTop {k : Value → List Value → Result} (hs : s.opStack ≠ none) (hk : ∀ a st, HasNext (k a st)) :
    HasNext (withTop s k) :=
  hasNext_withStack hs fun st =>
    match st with
    | a :: rest => hk a rest
    | [] => hasNext_raiseFault _ _

theorem hasNext_withTopTwo {k : Value → Value → List Value → Result} (hs : s.opStack ≠ none)
    (hk : ∀ a b st, HasNext (k a b st)) : HasNext (withTopTwo s k) :=
  hasNext_withStack hs fun st =>
    match st with
    | a :: b :: rest => hk a b rest
    | [_] => hasNext_raiseFault _ _
    | [] => hasNext_raiseFault _ _

theorem hasNext_withRoom {k : List Value → Result} (hs : s.opStack ≠ none) (hk : ∀ st, HasNext (k st)) :
    HasNext (withRoom s k) :=
  hasNext_withStack hs fun st => by
    split
    · exact hasNext_raiseFault _ _
    · exact hk st

theorem hasNext_withCallStack {k : List Nat → Result} (hs : s.callStack ≠ none) (hk : ∀ st, HasNext (k st)) :
    HasNext (withCallStack s k) := by
  obtain ⟨st, hst⟩ := Option.ne_none_iff_exists'.1 hs
  rw [withCallStack, hst]
  exact hk st

theorem hasNext_withTarget {t : Int} {k : Nat → Result} (hk : ∀ n, HasNext (k n)) : HasNext (withTarget s t k) := by
  unfold withTarget
  split
  · exact hk _
  · exact hasNext_raiseFault _ _

theorem hasNext_withIndex {ri : Reg} {k : Int → Result} (hk : ∀ a, HasNext (k a)) : HasNext (withIndex s ri k) := by
  unfold withIndex
  split
  · exact hk _
  · exact hasNext_raiseFault _ _

theorem hasNext_storeAt {a : Int} {v : Value} {k : State → Result} (hk : ∀ s1, HasNext (k s1)) :
    HasNext (storeAt s a v k) := by
  unfold storeAt
  split
  · exact hk _
  · exact hasNext_raiseFault _ _

theorem hasNext_loadAt {a : Int} {k : Value → Result} (hk : ∀ v, HasNext (k v)) : HasNext (loadAt s a k) := by
  unfold loadAt
  split
  · exact hk _
  · exact hasNext_raiseFault _ _

theorem hasNext_consoleIn {k : Value → State → Result} (hk : ∀ v s1, HasNext (k v s1)) : HasNext (consoleIn s k) := by
  unfold consoleIn
  split
  · split
    · exact hk _ _
    · exact hasNext_raiseFault _ _
  · split
    · exact hasNext_raiseFault _ _
    · exact hasNext_next s

theorem hasNext_consoleOut {v : Value} {k : State → Result} (hk : ∀ s1, HasNext (k s1)) : HasNext (consoleOut s v k) := by
  unfold consoleOut
  split
  · exact hk _
  · exact hasNext_raiseFault _ _

theorem hasNext_branchIf {cond : Value → Value → Bool} {t : Int} (hs : s.opStack ≠ none) : HasNext (branchIf cond t s) :=
  hasNext_withTarget fun _ => hasNext_withTopTwo hs fun _ _ _ => by
    split <;> exact hasNext_next _

end Operations

/-- With both stacks there every instruction has a next state. -/
theorem hasNext_exec (i : Instr) {s : State} (hops : s.opStack ≠ none) (hcs : s.callStack ≠ none) : HasNext (exec i s) := by
  cases i with
  | add | sub | mul => exact hasNext_withTopTwo hops fun _ _ _ => hasNext_next _
  | div =>
    refine hasNext_withTopTwo hops fun a _ _ => ?_
    split
    · exact hasNext_raiseFault _ _
    · exact hasNext_next _
  | sqrt =>
    refine hasNext_withTop hops fun a _ => ?_
    split
    · exact hasNext_raiseFault _ _
    · exact hasNext_next _
  | pushV | pushR => exact hasNext_withRoom hops fun _ => hasNext_next _
  | pop | popR => exact hasNext_withTop hops fun _ _ => hasNext_next _
  | input => exact hasNext_withRoom hops fun _ => hasNext_consoleIn fun _ _ => hasNext_next _
  | inputR r => exact show HasNext (execInR r s) from hasNext_consoleIn fun _ _ => hasNext_next _
  | output => exact hasNext_withTop hops fun _ _ => hasNext_consoleOut fun _ => hasNext_next _
  | outputR r => exact show HasNext (execOutR r s) from hasNext_consoleOut fun _ => hasNext_next _
  | writeR => exact hasNext_withIndex fun _ => hasNext_storeAt fun _ => hasNext_next _
  | writeA rs a => exact show HasNext (execWriteA rs a s) from hasNext_storeAt fun _ => hasNext_next _
  | readR => exact hasNext_withIndex fun _ => hasNext_loadAt fun _ => hasNext_next _
  | readA => exact hasNext_loadAt fun _ => hasNext_next _
  | jmp => exact hasNext_withTarget fun _ => hasNext_next _
  | jmpl | jmpg => exact hasNext_branchIf hops
  | call =>
    refine hasNext_withTarget fun _ => hasNext_withCallStack hcs fun st => ?_
    split
    · exact hasNext_raiseFault _ _
    · exact hasNext_next _
  | ret =>
    refine hasNext_withCallStack hcs fun st => ?_
    cases st with
    | cons a rest => exact hasNext_next _
    | nil => exact hasNext_raiseFault _ _
  | hlt => exact hasNext_next _

end Sys2Proof.Machine

namespace Sys2Proof.Claims

open Sys2Proof.Machine

/-- Settles O21: the invariant keeps a launch in ON, where both stacks are there. -/
theorem invariantStatesNeverStop : Obligations.InvariantStatesNeverStop := by
  rintro s ⟨⟨hops, hcs⟩, -, hon, -⟩
  cases ha : s.execActive with
  | true =>
    have hmode : s.mode ≠ .off := by
      rw [hon ha]
      decide
    cases hf : fetchDecode s with
    | error c => exact ⟨_, step_of_fetchDecode_error ha hf⟩
    | ok i =>
      rw [step_of_fetchDecode_ok ha hf]
      exact hasNext_exec i (mt hops.1 hmode) (mt hcs.1 hmode)
  | false => exact ⟨_, step_idle ha⟩

end Sys2Proof.Claims

/-! Where `ip` and the return addresses go (R26, R28). Settles O22. -/

namespace Sys2Proof.Laws

open Sys2Proof.Machine

/-- What a step does to `ip` and the call-return stack: on to the next instruction, or none of it (a fault, a read that is not
answered), a checked target, a call, a return, the end by `hlt`. -/
inductive Flow (i : Instr) (s t : State) : Prop
  | stay (hip : t.ip = s.ip) (hcs : t.callStack = s.callStack)
  | goOn (hip : t.ip = s.ip + i.length) (hcs : t.callStack = s.callStack)
  | goTo (hip : t.ip ≤ s.codeLen) (hcs : t.callStack = s.callStack)
  | call (st : List Nat) (hs : s.callStack = some st) (hip : t.ip ≤ s.codeLen)
      (hcs : t.callStack = some ((s.ip + i.length) :: st))
  | ret (a : Nat) (st : List Nat) (hs : s.callStack = some (a :: st)) (hip : t.ip = a) (hcs : t.callStack = some st)
  | halt (hip : t.ip = s.ip) (hcs : t.callStack = none)

/-- A target that passed the check is inside the code. -/
theorem toNat_le_codeLen {s : State} {a : Int} (h : targetOk s.codeLen a) : a.toNat ≤ s.codeLen := by
  have := h.2
  omega

/-- An instruction that answers a next state moves `ip` and the call-return stack in one of these ways. -/
theorem flow_of_exec {i : Instr} {s t : State} (h : exec i s = .next t) : Flow i s t := by
  have num : ∀ {i : Instr} (r : Option Value) (rest : List Value), i.length = 1 →
      Flow i s ((s.pushNumeric r rest).advance 1) := fun r rest hlen => .goOn (by simp [hlen]) (by simp)
  cases i with
  | add =>
    obtain rfl | ⟨_, _, _, _, rfl⟩ := execAdd_next h
    · exact .stay rfl rfl
    · exact num _ _ rfl
  | sub =>
    obtain rfl | ⟨_, _, _, _, rfl⟩ := execSub_next h
    · exact .stay rfl rfl
    · exact num _ _ rfl
  | mul =>
    obtain rfl | ⟨_, _, _, _, rfl⟩ := execMul_next h
    · exact .stay rfl rfl
    · exact num _ _ rfl
  | div =>
    obtain rfl | rfl | ⟨_, _, _, _, _, rfl⟩ := execDiv_next h
    · exact .stay rfl rfl
    · exact .stay rfl rfl
    · exact num _ _ rfl
  | sqrt =>
    obtain rfl | rfl | ⟨_, _, _, _, rfl⟩ := execSqrt_next h
    · exact .stay rfl rfl
    · exact .stay rfl rfl
    · exact num _ _ rfl
  | pushV d =>
    obtain rfl | ⟨_, _, _, rfl⟩ := execPushV_next h
    · exact .stay rfl rfl
    · exact .goOn rfl rfl
  | pushR r =>
    obtain rfl | ⟨_, _, _, rfl⟩ := execPushR_next h
    · exact .stay rfl rfl
    · exact .goOn rfl rfl
  | pop =>
    obtain rfl | ⟨_, _, _, rfl⟩ := execPop_next h
    · exact .stay rfl rfl
    · exact .goOn rfl rfl
  | popR r =>
    obtain rfl | ⟨_, _, _, rfl⟩ := execPopR_next h
    · exact .stay rfl rfl
    · exact .goOn rfl rfl
  | input =>
    obtain rfl | rfl | ⟨_, rfl⟩ | ⟨_, _, _, rfl⟩ | ⟨_, _, _, _, _, _, _, _, rfl⟩ := execIn_next h
    · exact .stay rfl rfl
    · exact .stay rfl rfl
    · exact .stay rfl rfl
    · exact .stay rfl rfl
    · exact .goOn rfl rfl
  | inputR r =>
    obtain rfl | ⟨_, rfl⟩ | ⟨_, _, _, rfl⟩ | ⟨_, _, _, _, _, rfl⟩ := execInR_next h
    · exact .stay rfl rfl
    · exact .stay rfl rfl
    · exact .stay rfl rfl
    · exact .goOn rfl rfl
  | output =>
    obtain rfl | ⟨_, _, rfl⟩ | ⟨_, _, _, _, rfl⟩ := execOut_next h
    · exact .stay rfl rfl
    · exact .stay rfl rfl
    · split <;> exact .goOn rfl rfl
  | outputR r =>
    obtain ⟨_, _, rfl⟩ | ⟨_, rfl⟩ := execOutR_next h
    · exact .stay rfl rfl
    · exact .goOn rfl rfl
  | writeR rs ri =>
    obtain rfl | rfl | ⟨_, _, _, _, rfl⟩ := execWriteR_next h
    · exact .stay rfl rfl
    · exact .stay rfl rfl
    · exact .goOn rfl rfl
  | writeA rs a =>
    obtain rfl | ⟨_, _, rfl⟩ := execWriteA_next h
    · exact .stay rfl rfl
    · exact .goOn rfl rfl
  | readR ri rd =>
    obtain rfl | rfl | ⟨_, _, _, _, rfl⟩ := execReadR_next h
    · exact .stay rfl rfl
    · exact .stay rfl rfl
    · exact .goOn rfl rfl
  | readA a rd =>
    obtain rfl | ⟨_, _, rfl⟩ := execReadA_next h
    · exact .stay rfl rfl
    · exact .goOn rfl rfl
  | jmp n =>
    obtain rfl | ⟨hn, rfl⟩ := execJmp_next h
    · exact .stay rfl rfl
    · exact .goTo (toNat_le_codeLen hn) rfl
  | jmpl n | jmpg n =>
    obtain rfl | rfl | ⟨hn, _, _, _, _, rfl⟩ := branchIf_next h
    · exact .stay rfl rfl
    · exact .stay rfl rfl
    · split
      · exact .goTo (toNat_le_codeLen hn) rfl
      · exact .goOn rfl rfl
  | call n =>
    obtain rfl | rfl | ⟨hn, st, hs, _, rfl⟩ := execCall_next h
    · exact .stay rfl rfl
    · exact .stay rfl rfl
    · exact .call st hs (toNat_le_codeLen hn) rfl
  | ret =>
    obtain rfl | ⟨a, st, hs, rfl⟩ := execRet_next h
    · exact .stay rfl rfl
    · exact .ret a st hs rfl rfl
  | hlt =>
    rw [execHlt_next h]
    exact .halt rfl rfl

/-- Where the instruction lies inside the code, none of these moves leaves it. -/
theorem noStaleReturn_of_flow {i : Instr} {s t : State} (hs : s.NoStaleReturn) (hcode : t.code = s.code)
    (hlen : s.ip + i.length ≤ s.codeLen) (hf : Flow i s t) : t.NoStaleReturn := by
  obtain ⟨hip, hcs⟩ := hs
  have hlen' : t.codeLen = s.codeLen := congrArg List.length hcode
  rw [State.NoStaleReturn, hlen']
  cases hf with
  | stay h1 h2 => exact ⟨h1 ▸ hip, h2 ▸ hcs⟩
  | goOn h1 h2 => exact ⟨h1 ▸ hlen, h2 ▸ hcs⟩
  | goTo h1 h2 => exact ⟨h1, h2 ▸ hcs⟩
  | call st h0 h1 h2 =>
    rw [h0, Option.getD_some] at hcs
    rw [h2, Option.getD_some]
    exact ⟨h1, List.forall_mem_cons.2 ⟨hlen, hcs⟩⟩
  | ret a st h0 h1 h2 =>
    rw [h0, Option.getD_some] at hcs
    rw [h1, h2, Option.getD_some]
    exact List.forall_mem_cons.1 hcs
  | halt h1 h2 =>
    rw [h1, h2]
    exact ⟨hip, fun a ha => nomatch ha⟩

end Sys2Proof.Laws

namespace Sys2Proof.Claims

open Sys2Proof.Machine Sys2Proof.Laws

/-- Settles O22: a decoded instruction lies inside the code, so what follows it is at most `CODE_LEN`. -/
theorem returnAddressesStayInTheCode : Obligations.ReturnAddressesStayInTheCode := by
  refine ⟨fun s t ha hs h => ?_, fun s code hs => ?_⟩
  · obtain ⟨hcode, -⟩ := launchKeepsCodeAndMemoryLayout s t ha h
    obtain ⟨c, _, rfl⟩ | ⟨i, hi, hexec⟩ := step_active ha h
    · exact hs
    · exact noStaleReturn_of_flow hs hcode (decodeAt_length hi) (flow_of_exec hexec)
  · refine ⟨Nat.zero_le _, fun a ha => ?_⟩
    rw [State.launch_callStack, hs] at ha
    cases ha

end Sys2Proof.Claims

/-! Reads and writes of memory (R68 to R71) and the creation of a bank (R64, R66). Settles O18 and O43. -/

namespace Sys2Proof.Machine

/-- A translated address lies in a bank. -/
theorem Memory.exists_bank_of_translate {m : Memory} {a : Int} {j o : Nat} (h : m.translate a = some (j, o)) :
    ∃ b, m.banks[j]? = some b :=
  ⟨_, List.getElem?_eq_getElem (Memory.translate_eq_some_iff.1 h).1⟩

theorem Memory.read_of_translate {m : Memory} {a : Int} {j o : Nat} {b : Bank} (h : m.translate a = some (j, o))
    (hb : m.banks[j]? = some b) : m.read a = some (b.get o) := by
  simp only [Memory.read, h, hb, Option.map_some]

theorem Memory.read_of_translate_none {m : Memory} {a : Int} (h : m.translate a = none) : m.read a = none := by
  simp only [Memory.read, h]

/-- R68, R70: a read is an error exactly for an address out of range. -/
theorem Memory.read_eq_none_iff {m : Memory} {a : Int} : m.read a = none ↔ a < 0 ∨ (m.total : Int) ≤ a := by
  rw [← Memory.translate_eq_none_iff]
  refine ⟨fun h => ?_, Memory.read_of_translate_none⟩
  cases ht : m.translate a with
  | none => rfl
  | some p =>
    obtain ⟨b, hb⟩ := Memory.exists_bank_of_translate ht
    rw [Memory.read_of_translate ht hb] at h
    cases h

/-- R68, R71: a write is an error exactly for an address out of range. -/
theorem Memory.write_eq_none_iff {m : Memory} {a : Int} {v : Value} :
    m.write a v = none ↔ a < 0 ∨ (m.total : Int) ≤ a := by
  rw [← Memory.translate_eq_none_iff, Memory.write]
  cases m.translate a <;> simp

/-- Two addresses that translate alike are one. -/
theorem Memory.eq_of_translate_eq {m : Memory} {a a' : Int} {p : Nat × Nat} (h : m.translate a = some p)
    (h' : m.translate a' = some p) : a' = a := by
  obtain ⟨_, ha, _⟩ := Memory.translate_eq_some_iff.1 h
  obtain ⟨_, ha', _⟩ := Memory.translate_eq_some_iff.1 h'
  exact ha'.trans ha.symm

section Write

variable {m m' : Memory} {a : Int} {v : Value} (h : m.write a v = some m')
include h

/-- A write moves no address. -/
theorem Memory.translate_of_write (a' : Int) : m'.translate a' = m.translate a' := by
  simp only [Memory.translate, translateIn_congr (Memory.write_sizes h)]

theorem Memory.total_of_write : m'.total = m.total := by
  rw [Memory.total, Memory.write_sizes h, Memory.total]

/-- The element written reads as the value written. -/
theorem Memory.read_write_same (hm : m.wf) : m'.read a = some v := by
  obtain ⟨j, o, b, ht, hb, _, hm'⟩ := Memory.write_some h
  have hb' : m'.banks[j]? = some (b.put o v) := by simp [hm', hb]
  rw [Memory.read_of_translate ((Memory.translate_of_write h a).trans ht) hb',
    Bank.get_put_same (hm b (List.mem_of_getElem? hb))]

/-- Every other element reads as before, and an address out of range is still one. -/
theorem Memory.read_write_other {a' : Int} (hne : a' ≠ a) : m'.read a' = m.read a' := by
  cases ht' : m.translate a' with
  | none =>
    rw [Memory.read_of_translate_none ht', Memory.read_of_translate_none ((Memory.translate_of_write h a').trans ht')]
  | some p =>
    obtain ⟨j, o, b, ht, hb, _, hm'⟩ := Memory.write_some h
    obtain ⟨j', o'⟩ := p
    obtain ⟨b', hb'⟩ := Memory.exists_bank_of_translate ht'
    rw [Memory.read_of_translate ht' hb']
    by_cases hj : j = j'
    · subst hj
      obtain rfl : b = b' := Option.some.inj (hb.symm.trans hb')
      have ho : o' ≠ o := fun ho => hne (Memory.eq_of_translate_eq ht (ho ▸ ht'))
      have hput : m'.banks[j]? = some (b.put o v) := by simp [hm', hb]
      rw [Memory.read_of_translate ((Memory.translate_of_write h a').trans ht') hput, Bank.get_put_other b o o' v ho]
    · have hsame : m'.banks[j']? = some b' := by simp [hm', hb', hj]
      rw [Memory.read_of_translate ((Memory.translate_of_write h a').trans ht') hsame]

end Write

/-- The memory with one more bank. -/
def Memory.withBank (m : Memory) (b : Bank) : Memory := { m with banks := m.banks ++ [b] }

theorem Memory.total_withBank (m : Memory) (b : Bank) : (m.withBank b).total = m.total + b.size := by
  simp [Memory.withBank, Memory.total]

/-- A bank registered after the others moves none of their elements (R64). -/
theorem Memory.read_withBank_of_lt {m : Memory} {b : Bank} {a : Int} (ha : a < m.total) :
    (m.withBank b).read a = m.read a := by
  cases ht : m.translate a with
  | none =>
    have hout := Memory.translate_eq_none_iff.1 ht
    rw [Memory.read_of_translate_none ht, Memory.read_eq_none_iff]
    omega
  | some p =>
    obtain ⟨j, o⟩ := p
    obtain ⟨hj, hlo, hhi⟩ := Memory.translate_eq_some_iff.1 ht
    have ht' : (m.withBank b).translate a = some (j, o) := by
      rw [Memory.translate_eq_some_iff, Memory.withBank, List.take_append_of_le_length (Nat.le_of_lt hj),
        List.take_append_of_le_length hj, List.length_append]
      exact ⟨Nat.lt_add_right _ hj, hlo, hhi⟩
    have hb : m.banks[j]? = some m.banks[j] := List.getElem?_eq_getElem hj
    rw [Memory.read_of_translate ht hb]
    refine Memory.read_of_translate ht' ?_
    rw [Memory.withBank, List.getElem?_append_left hj, hb]

/-- Its own elements stand after theirs. -/
theorem Memory.read_withBank_new (m : Memory) {b : Bank} {k : Nat} (hk : k < b.size) :
    (m.withBank b).read (m.total + k) = some (b.get k) := by
  refine Memory.read_of_translate (j := m.banks.length) ?_ (by simp [Memory.withBank])
  rw [Memory.translate_eq_some_iff]
  refine ⟨by simp [Memory.withBank], by simp [Memory.withBank, Memory.total], ?_⟩
  have htake : (m.withBank b).banks.take (m.banks.length + 1) = m.banks ++ [b] := by simp [Memory.withBank]
  rw [htake, Memory.total]
  simpa using hk

/-- R64: no bank of size 0 or less. -/
theorem Memory.createBank_of_nonpos (m : Memory) {size : Int} (h : size ≤ 0) (fill : Value) (init : List Value)
    (allocated : Bool) : m.createBank size fill init allocated = none := if_pos (.inl h)

/-- R64, R260: no bank where the allocation fails. -/
theorem Memory.createBank_of_failed (m : Memory) (size : Int) (fill : Value) (init : List Value) :
    m.createBank size fill init false = none := if_pos (.inr rfl)

/-- The bank that a request of the host creates. -/
def newBank (size : Nat) (fill : Value) (init : List Value) : Bank :=
  { size := size, fill := fill, cells := initCells fill (init.take size) 0 }

theorem Memory.createBank_of_pos (m : Memory) {size : Int} (h : 0 < size) (fill : Value) (init : List Value) :
    m.createBank size fill init true = some (m.withBank (newBank size.toNat fill init)) :=
  if_neg (by simp [h])

/-- A new bank holds the elements given, as far as they fit, and the fill after them (R66). -/
theorem get_newBank {size k : Nat} (hk : k < size) (fill : Value) (init : List Value) :
    (newBank size fill init).get k = init.getD k fill := by
  have h := cellsFind_initCells fill (init.take size) 0 k
  rw [Nat.zero_add] at h
  rw [Bank.get, newBank, h, List.getD_eq_getElem?_getD, List.getElem?_take_of_lt hk, List.getD_eq_getElem?_getD]

end Sys2Proof.Machine

namespace Sys2Proof.Claims

open Sys2Proof.Machine

/-- Settles O43: translation decides the errors, and a write changes one offset of one bank. -/
theorem readAfterWrite : Obligations.ReadAfterWrite :=
  fun _ _ _ hm => ⟨Memory.read_eq_none_iff, Memory.write_eq_none_iff, fun _ h =>
    ⟨Memory.read_write_same h hm, fun _ => Memory.read_write_other h, Memory.total_of_write h⟩⟩

/-- Settles O18: the refusals, and the memory with one more bank. -/
theorem bankCreation : Obligations.BankCreation := by
  refine fun m size fill init => ⟨fun allocated h => m.createBank_of_nonpos h fill init allocated,
    m.createBank_of_failed size fill init, fun h => ⟨_, m.createBank_of_pos h fill init, ?_, ?_, fun k hk => ?_⟩⟩
  · have hsize : (newBank size.toNat fill init).size = size.toNat := rfl
    rw [Memory.total_withBank, hsize]
    omega
  · exact fun a ha => Memory.read_withBank_of_lt ha
  · have hk' : k < size.toNat := by omega
    rw [m.read_withBank_new hk', get_newBank hk']

end Sys2Proof.Claims

/-! The address that a register's double names (R201), in real numbers. -/

namespace Sys2Proof.Laws

open Sys2Proof.Machine Sys2Proof.Claims

theorem idx_of_not_finite (conv : IndexConversion) {v : Value} (h : F64.isFinite v = false) : idx conv v = none := by
  simp only [idx, h, Bool.false_eq_true, if_false]

theorem unit_pos : 0 < F64.unit := pow_pos two_pos _

theorem natAbs_scaled (v : Value) : (F64.scaled v).natAbs = F64.scaledMag v := by
  unfold F64.scaled
  split <;> simp

/-- A value stands for its number of units, over the units in 1. -/
theorem scaled_eq_mul_unit {v : Value} {x : ℝ} (h : Denotes v x) : (F64.scaled v : ℝ) = x * (F64.unit : ℕ) := by
  rw [unit_cast]
  exact h.2

/-- `strict` names `n` exactly for the values of `n` times the units in 1. -/
theorem idx_strict_eq_some_iff {v : Value} (hf : F64.isFinite v = true) {n : Int} :
    idx .strict v = some n ↔ F64.scaled v = n * (F64.unit : Int) := by
  have hunit : (F64.unit : Int) ≠ 0 := by exact_mod_cast unit_pos.ne'
  have hdvd : F64.scaledMag v % F64.unit = 0 ↔ (F64.unit : Int) ∣ F64.scaled v := by
    rw [← natAbs_scaled, ← Nat.dvd_iff_mod_eq_zero, Int.natCast_dvd]
  by_cases hd : (F64.unit : Int) ∣ F64.scaled v
  · simp only [idx, hf, if_true, if_pos (hdvd.2 hd), Option.some.injEq, Int.ediv_eq_iff_eq_mul_left hunit hd]
  · simp only [idx, hf, if_true, if_neg (mt hdvd.1 hd), reduceCtorEq, false_iff]
    exact fun h => hd ⟨n, by rw [h, mul_comm]⟩

/-- `strict` names exactly the integral values. -/
theorem idx_strict_iff {v : Value} {x : ℝ} (h : Denotes v x) {n : Int} : idx .strict v = some n ↔ x = n := by
  have hunit : ((F64.unit : ℕ) : ℝ) ≠ 0 := by exact_mod_cast unit_pos.ne'
  rw [idx_strict_eq_some_iff h.1, ← Int.cast_inj (α := ℝ), scaled_eq_mul_unit h, Int.cast_mul, Int.cast_natCast,
    mul_left_inj' hunit]

theorem idx_truncate {v : Value} (hf : F64.isFinite v = true) :
    idx .truncate v = some (Int.tdiv (F64.scaled v) (F64.unit : Int)) := by
  simp only [idx, hf, if_true]

/-- `Int.tdiv` rounds a quotient of reals toward zero. -/
theorem tdiv_toward_zero {a : Int} {d : Nat} (hd : 0 < d) {x : ℝ} (hx : (a : ℝ) = x * d) :
    |((Int.tdiv a d : Int) : ℝ)| ≤ |x| ∧ |x| < |((Int.tdiv a d : Int) : ℝ)| + 1 ∧
      0 ≤ ((Int.tdiv a d : Int) : ℝ) * x := by
  have hdr : (0 : ℝ) < d := by exact_mod_cast hd
  have habs : |((Int.tdiv a d : Int) : ℝ)| = ((a.natAbs / d : Nat) : ℝ) := by
    rw [← Int.cast_abs, Int.abs_eq_natAbs, Int.natAbs_tdiv, Int.natAbs_natCast, Int.cast_natCast]
    rfl
  have hxabs : |x| * d = (a.natAbs : ℝ) := by
    rw [Nat.cast_natAbs, Int.cast_abs, hx, abs_mul, abs_of_pos hdr]
  rw [habs]
  refine ⟨?_, ?_, ?_⟩
  · refine le_of_mul_le_mul_right ?_ hdr
    rw [hxabs]
    exact_mod_cast Nat.div_mul_le_self a.natAbs d
  · refine lt_of_mul_lt_mul_right ?_ hdr.le
    rw [hxabs]
    have h : a.natAbs < (a.natAbs / d + 1) * d := by
      rw [Nat.succ_mul]
      exact Nat.lt_div_mul_add hd
    exact_mod_cast h
  · rcases le_total 0 a with h | h
    · have h1 : (0 : ℝ) ≤ (Int.tdiv a d : Int) := by exact_mod_cast Int.tdiv_nonneg h (Int.natCast_nonneg d)
      have h2 : 0 ≤ x := nonneg_of_mul_nonneg_left (hx ▸ (by exact_mod_cast h : (0 : ℝ) ≤ a)) hdr
      exact mul_nonneg h1 h2
    · have hneg : 0 ≤ -Int.tdiv a d := by
        rw [← Int.neg_tdiv]
        exact Int.tdiv_nonneg (by omega) (Int.natCast_nonneg d)
      have h1 : ((Int.tdiv a d : Int) : ℝ) ≤ 0 := by exact_mod_cast (by omega : Int.tdiv a d ≤ 0)
      have h2 : x ≤ 0 := nonpos_of_mul_nonpos_left (hx ▸ (by exact_mod_cast h : (a : ℝ) ≤ 0)) hdr
      exact mul_nonneg_of_nonpos_of_nonpos h1 h2

end Sys2Proof.Laws

/-! The forward reading of the memory operations, and the decoder on the two-field formats (R92, R200, R201). -/

namespace Sys2Proof.Machine

theorem withIndex_of_some {s : State} {ri : Reg} {a : Int} (h : idx s.params.indexConversion (s.reg ri) = some a)
    (k : Int → Result) : withIndex s ri k = k a := by
  rw [withIndex, h]

theorem withIndex_of_none {s : State} {ri : Reg} (h : idx s.params.indexConversion (s.reg ri) = none)
    (k : Int → Result) : withIndex s ri k = Claims.faulted .badIndex s := by
  rw [withIndex, h]
  rfl

theorem storeAt_of_outside {s : State} {a : Int} (h : a < 0 ∨ (s.mem.total : Int) ≤ a) (v : Value) (k : State → Result) :
    storeAt s a v k = Claims.faulted .memOutOfRange s := by
  rw [storeAt, Memory.write_eq_none_iff.2 h]
  rfl

/-- A store in range goes on with the memory in which that element reads as the value and the others as before. -/
theorem storeAt_of_inside {s : State} (hm : s.mem.wf) {a : Int} (h0 : 0 ≤ a) (h1 : a < s.mem.total) (v : Value) :
    ∃ m : Memory, m.read a = some v ∧ (∀ a', a' ≠ a → m.read a' = s.mem.read a') ∧
      ∀ k : State → Result, storeAt s a v k = k { s with mem := m } := by
  cases hw : s.mem.write a v with
  | none =>
    have := Memory.write_eq_none_iff.1 hw
    omega
  | some m =>
    exact ⟨m, Memory.read_write_same hw hm, fun a' hne => Memory.read_write_other hw hne, fun k => by rw [storeAt, hw]⟩

theorem loadAt_of_outside {s : State} {a : Int} (h : a < 0 ∨ (s.mem.total : Int) ≤ a) (k : Value → Result) :
    loadAt s a k = Claims.faulted .memOutOfRange s := by
  rw [loadAt, Memory.read_eq_none_iff.2 h]
  rfl

/-- A load in range goes on with the element. -/
theorem loadAt_of_inside {s : State} {a : Int} (h0 : 0 ≤ a) (h1 : a < s.mem.total) :
    ∃ v, s.mem.read a = some v ∧ ∀ k : Value → Result, loadAt s a k = k v := by
  cases hr : s.mem.read a with
  | none =>
    have := Memory.read_eq_none_iff.1 hr
    omega
  | some v => exact ⟨v, rfl, fun k => by rw [loadAt, hr]⟩

theorem exec_writeR (rs ri : Reg) (s : State) : exec (.writeR rs ri) s =
    withIndex s ri fun a => storeAt s a (s.reg rs) fun s1 => .next (s1.advance 3) := rfl

theorem exec_writeA (rs : Reg) (a : Int) (s : State) :
    exec (.writeA rs a) s = storeAt s a (s.reg rs) fun s1 => .next (s1.advance 6) := rfl

theorem exec_readR (ri rd : Reg) (s : State) : exec (.readR ri rd) s =
    withIndex s ri fun a => loadAt s a fun v => .next ((s.setReg rd v).advance 3) := rfl

theorem exec_readA (a : Int) (rd : Reg) (s : State) :
    exec (.readA a rd) s = loadAt s a fun v => .next ((s.setReg rd v).advance 6) := rfl

end Sys2Proof.Machine

namespace Sys2Proof.Claims

open Sys2Proof.Machine

/-- The bytes after an opcode of format `FRR` are its registers, in that order. -/
theorem decodesRegisters_of_decodeOperands {op : Opcode} {instr : Reg → Reg → Instr} (hlen : op.length = 3)
    (hops : ∀ e bs, decodeOperands e op bs =
      (regField e bs 1).bind fun r1 => (regField e bs 2).bind fun r2 => .ok (instr r1 r2)) : DecodesRegisters op instr := by
  intro e b b1 b2 r1 r2 rest hop h1 h2
  have f1 : regField e (b :: b1 :: b2 :: rest) 1 = .ok r1 := regField_of_reg? h1
  have f2 : regField e (b :: b1 :: b2 :: rest) 2 = .ok r2 := regField_of_reg? h2
  rw [decodeBytes_of_opcode? hop (by simp [hlen]), hops, f1, Except.bind, f2, Except.bind]

/-- The bytes of format `FRA`: a register, then an address. -/
theorem decodesRegisterAddress_writeA : DecodesRegisterAddress .writeA .writeA := by
  intro e b b1 a0 a1 a2 a3 r rest hop h1
  have f1 : regField e (b :: b1 :: a0 :: a1 :: a2 :: a3 :: rest) 1 = .ok r := regField_of_reg? h1
  have f2 : addrField e (b :: b1 :: a0 :: a1 :: a2 :: a3 :: rest) 2 = addressOf e.byteOrder a0 a1 a2 a3 :=
    addrField_eq_addressOf rfl
  rw [decodeBytes_of_opcode? hop (by simp [Opcode.length, Opcode.format, Format.length])]
  simp only [decodeOperands, f1, f2, bind, Except.bind]

/-- The bytes of format `FAR`: an address, then a register. -/
theorem decodesAddressRegister_readA : DecodesAddressRegister .readA .readA := by
  intro e b a0 a1 a2 a3 b5 r rest hop h5
  have f5 : regField e (b :: a0 :: a1 :: a2 :: a3 :: b5 :: rest) 5 = .ok r := regField_of_reg? h5
  have f1 : addrField e (b :: a0 :: a1 :: a2 :: a3 :: b5 :: rest) 1 = addressOf e.byteOrder a0 a1 a2 a3 :=
    addrField_eq_addressOf rfl
  rw [decodeBytes_of_opcode? hop (by simp [Opcode.length, Opcode.format, Format.length])]
  simp only [decodeOperands, f5, f1, bind, Except.bind]

theorem decodesRegisters_writeR : DecodesRegisters .writeR .writeR :=
  decodesRegisters_of_decodeOperands rfl fun _ _ => rfl

theorem decodesRegisters_readR : DecodesRegisters .readR .readR :=
  decodesRegisters_of_decodeOperands rfl fun _ _ => rfl

end Sys2Proof.Claims

/-! The memory instructions (R200 to R206). Settles O45 to O49. -/

namespace Sys2Proof.Claims

open Sys2Proof.Machine Sys2Proof.Laws

/-- Settles O45: `idx` in real numbers, and the two faults of the register-indexed instructions. -/
theorem indexConversions : Obligations.IndexConversions := by
  refine ⟨fun conv v h => idx_of_not_finite conv h, fun v x h => ⟨fun n => idx_strict_iff h, ?_, ?_⟩,
    fun s rs ri rd => ⟨fun h => ⟨?_, ?_⟩, fun a h hout => ⟨?_, ?_⟩⟩, ?_⟩
  · simp only [Option.eq_none_iff_forall_ne_some, ne_eq, idx_strict_iff h, not_exists]
  · exact ⟨_, idx_truncate h.1, tdiv_toward_zero unit_pos (scaled_eq_mul_unit h)⟩
  · exact (exec_writeR rs ri s).trans (withIndex_of_none h _)
  · exact (exec_readR ri rd s).trans (withIndex_of_none h _)
  · rw [exec_writeR, withIndex_of_some h, storeAt_of_outside hout]
  · rw [exec_readR, withIndex_of_some h, loadAt_of_outside hout]
  · decide +kernel

/-- Settles O46: `withIndex`, then a store. -/
theorem writeIndexed : Obligations.WriteIndexed := by
  refine ⟨⟨rfl, rfl, rfl⟩, decodesRegisters_writeR, truncates _, checksRegister_of_mem (by decide),
    checksRegister_of_mem (by decide), fun s rs ri hm => ⟨fun h => ?_, fun a h => ⟨fun hout => ?_, fun h0 h1 => ?_⟩⟩,
    decodesRegisters_writeR _ _ _ _ _ _ _ (by decide) (by decide) (by decide)⟩
  · exact (exec_writeR rs ri s).trans (withIndex_of_none h _)
  · rw [exec_writeR, withIndex_of_some h, storeAt_of_outside hout]
  · obtain ⟨m, hsame, hother, hstore⟩ := storeAt_of_inside hm h0 h1 (s.reg rs)
    exact ⟨m, hsame, hother, by rw [exec_writeR, withIndex_of_some h, hstore]; rfl⟩

/-- Settles O47: a store at the literal address. -/
theorem writeLiteral : Obligations.WriteLiteral := by
  refine ⟨⟨rfl, rfl, rfl⟩, decodesRegisterAddress_writeA, truncates _, checksRegister_of_mem (by decide),
    fun s rs a hm => ⟨fun hout => ?_, fun h0 h1 => ?_⟩, by decide, by decide⟩
  · exact (exec_writeA rs a s).trans (storeAt_of_outside hout _ _)
  · obtain ⟨m, hsame, hother, hstore⟩ := storeAt_of_inside hm h0 h1 (s.reg rs)
    exact ⟨m, hsame, hother, (exec_writeA rs a s).trans (hstore _)⟩

/-- Settles O48: `withIndex` of the old register, then a load. -/
theorem readIndexed : Obligations.ReadIndexed := by
  refine ⟨⟨rfl, rfl, rfl⟩, decodesRegisters_readR, truncates _, checksRegister_of_mem (by decide),
    checksRegister_of_mem (by decide), fun s ri rd hm => ⟨fun h => ?_, fun a h => ⟨fun hout => ?_, fun h0 h1 => ?_⟩⟩,
    decodesRegisters_readR _ _ _ _ _ _ _ (by decide) (by decide) (by decide)⟩
  · exact (exec_readR ri rd s).trans (withIndex_of_none h _)
  · rw [exec_readR, withIndex_of_some h, loadAt_of_outside hout]
  · obtain ⟨v, hv, hload⟩ := loadAt_of_inside h0 h1
    exact ⟨s.regs.set rd v, by rw [Regs.get_set_same, hv], fun r' hne => Regs.get_set_other _ _ _ _ hne,
      by rw [exec_readR, withIndex_of_some h, hload]; rfl⟩

/-- Settles O49: a load from the literal address. -/
theorem readLiteral : Obligations.ReadLiteral := by
  refine ⟨⟨rfl, rfl, rfl⟩, decodesAddressRegister_readA, truncates _, checksRegister_of_mem (by decide),
    fun s a rd hm => ⟨fun hout => ?_, fun h0 h1 => ?_⟩, by decide, by decide⟩
  · exact (exec_readA a rd s).trans (loadAt_of_outside hout _)
  · obtain ⟨v, hv, hload⟩ := loadAt_of_inside h0 h1
    exact ⟨s.regs.set rd v, by rw [Regs.get_set_same, hv], fun r' hne => Regs.get_set_other _ _ _ _ hne,
      (exec_readA a rd s).trans (hload _)⟩

end Sys2Proof.Claims

/-! The console ports (R180, R181) and the console instructions (R183 to R186). Settles O36 to O40. -/

namespace Sys2Proof.Machine

theorem consoleIn_of_token {s : State} {token : List Char} {rest : List (List Char)} {v : Value}
    (ht : s.inTokens = token :: rest) (hv : convertToken s.params.inputConvert token = some v)
    (k : Value → State → Result) : consoleIn s k = k v { s with inTokens := rest } := by
  simp only [consoleIn, ht, hv]

theorem consoleIn_of_badToken {s : State} {token : List Char} {rest : List (List Char)}
    (ht : s.inTokens = token :: rest) (hv : convertToken s.params.inputConvert token = none)
    (k : Value → State → Result) : consoleIn s k = Claims.faulted .ioError { s with inTokens := rest } := by
  simp only [consoleIn, ht, hv]
  rfl

theorem consoleIn_of_closed {s : State} (ht : s.inTokens = []) (hc : s.inClosed = true) (k : Value → State → Result) :
    consoleIn s k = Claims.faulted .ioError s := by
  simp only [consoleIn, ht, hc, if_true]
  rfl

/-- A read that is never answered leaves the state as it is (log 6). -/
theorem consoleIn_of_unanswered {s : State} (ht : s.inTokens = []) (hc : s.inClosed = false)
    (k : Value → State → Result) : consoleIn s k = .next s := by
  simp only [consoleIn, ht, hc, Bool.false_eq_true, if_false]

/-- The host answers with success unless a failure is listed (log 10). -/
theorem State.outOk_eq_false_iff {s : State} : s.outOk = false ↔ s.outAnswers.head? = some false := by
  unfold State.outOk
  cases s.outAnswers <;> simp

theorem consoleOut_of_success {s : State} (h : s.outAnswers.head? ≠ some false) (v : Value) (k : State → Result) :
    consoleOut s v k = k (s.written v) :=
  if_pos (eq_true_of_ne_false (mt State.outOk_eq_false_iff.1 h))

theorem consoleOut_of_failure {s : State} (h : s.outAnswers.head? = some false) (v : Value) (k : State → Result) :
    consoleOut s v k = Claims.faulted .ioError { s with outAnswers := s.outAnswers.tail } := by
  rw [consoleOut, State.outOk_eq_false_iff.2 h, List.drop_one]
  rfl

/-- A successful write, as one update of the state. -/
theorem State.written_eq (s : State) (v : Value) :
    s.written v = { s with outAnswers := s.outAnswers.tail, outValues := s.outValues ++ [v] } := by
  rw [State.written, List.drop_one]

theorem exec_input (s : State) :
    exec .input s = withRoom s fun st => consoleIn s fun v s1 => .next ((s1.setStack (v :: st)).advance 1) := rfl

theorem exec_inputR (r : Reg) (s : State) :
    exec (.inputR r) s = consoleIn s fun v s1 => .next ((s1.setReg r v).advance 2) := rfl

theorem exec_output (s : State) : exec .output s = withTop s fun v rest => consoleOut s v fun s1 =>
    .next ((if s1.params.outPops then s1.setStack rest else s1).advance 1) := rfl

theorem exec_outputR (r : Reg) (s : State) :
    exec (.outputR r) s = consoleOut s (s.reg r) fun s1 => .next (s1.advance 2) := rfl

/-- A successful `out`, its pop decided by `OUT_POPS` (R185). -/
theorem exec_output_of_success {s : State} {v : Value} {st : List Value} (hs : s.opStack = some (v :: st))
    (h : s.outAnswers.head? ≠ some false) : exec .output s = .next { s with
      outAnswers := s.outAnswers.tail
      outValues := s.outValues ++ [v]
      opStack := some (if s.params.outPops = true then st else v :: st)
      ip := s.ip + 1 } := by
  rw [exec_output, withTop_of_cons hs, consoleOut_of_success h, State.written_params, State.written_eq]
  cases s.params.outPops with
  | true => rfl
  | false => simp only [Bool.false_eq_true, if_false, ← hs]; rfl

end Sys2Proof.Machine

namespace Sys2Proof.Claims

open Sys2Proof.Machine

theorem decodesRegister_inputR : DecodesRegister .inputR .inputR :=
  decodesRegister_of_decodeOperands (fun _ _ => rfl) rfl

theorem decodesRegister_outputR : DecodesRegister .outputR .outputR :=
  decodesRegister_of_decodeOperands (fun _ _ => rfl) rfl

/-- Settles O36: `withRoom`, then the console port. -/
theorem inPushesTheToken : Obligations.InPushesTheToken := by
  refine ⟨⟨rfl, rfl, rfl⟩, decodesAlone_of_decodeOperands rfl fun _ _ => rfl,
    fun s st hs => ⟨fun c hcap hfull => ?_, fun hroom => ?_⟩, by decide +kernel, by decide +kernel⟩
  · exact (exec_input s).trans (withRoom_of_full hs hcap hfull _)
  · rw [exec_input, withRoom_of_hasRoom hs hroom]
    exact ⟨fun token rest v ht hv => consoleIn_of_token ht hv _, fun token rest ht hv => consoleIn_of_badToken ht hv _,
      fun ht hc => consoleIn_of_closed ht hc _⟩

/-- Settles O37: the console port, which looks at no stack. -/
theorem inRegisterTakesTheToken : Obligations.InRegisterTakesTheToken := by
  refine ⟨⟨rfl, rfl, rfl⟩, decodesRegister_inputR, truncates _, checksRegister_of_mem (by decide),
    fun s r => ⟨fun token rest v ht hv => ?_, fun token rest ht hv => ?_, fun ht hc => ?_⟩,
    decodesRegister_inputR _ _ _ _ _ (by decide) (by decide), by decide +kernel⟩
  · exact ⟨s.regs.set r v, Regs.get_set_same _ _ _, fun r' hne => Regs.get_set_other _ _ _ _ hne,
      (exec_inputR r s).trans (consoleIn_of_token ht hv _)⟩
  · exact (exec_inputR r s).trans (consoleIn_of_badToken ht hv _)
  · exact (exec_inputR r s).trans (consoleIn_of_closed ht hc _)

/-- Settles O38: the port that is not answered, and `in` reaches it where the stack has room. -/
theorem unansweredReadBlocks : Obligations.UnansweredReadBlocks := by
  refine fun s st ht hc => ⟨fun r => (exec_inputR r s).trans (consoleIn_of_unanswered ht hc _), fun hs hroom => ?_⟩
  rw [exec_input, withRoom_of_hasRoom hs hroom, consoleIn_of_unanswered ht hc]

/-- Settles O39: `withTop`, then the host's answer. -/
theorem outWritesTheTop : Obligations.OutWritesTheTop := by
  refine ⟨⟨rfl, rfl, rfl⟩, decodesAlone_of_decodeOperands rfl fun _ _ => rfl, underflows_of_withTop exec_output,
    fun s v st hs => ⟨exec_output_of_success hs, fun h => ?_⟩, by decide +kernel⟩
  rw [exec_output, withTop_of_cons hs, consoleOut_of_failure h]

/-- Settles O40: the host's answer; the register is only read. -/
theorem outRegisterWritesIt : Obligations.OutRegisterWritesIt := by
  refine ⟨⟨rfl, rfl, rfl⟩, decodesRegister_outputR, truncates _, checksRegister_of_mem (by decide),
    fun s r => ⟨fun h => ?_, fun h => ?_⟩, decodesRegister_outputR _ _ _ _ _ (by decide) (by decide), by decide +kernel⟩
  · rw [exec_outputR, consoleOut_of_success h, State.written_eq]
    rfl
  · rw [exec_outputR, consoleOut_of_failure h]

end Sys2Proof.Claims

/-! The ordered comparison of values (R144). -/

namespace Sys2Proof.Machine

theorem F64.lt_of_isNaN_left {a : Value} (h : F64.isNaN a = true) (b : Value) : F64.lt a b = false := by
  simp [F64.lt, h]

theorem F64.lt_of_isNaN_right {b : Value} (h : F64.isNaN b = true) (a : Value) : F64.lt a b = false := by
  simp [F64.lt, h]

/-- Of values that are no NaN the keys decide. -/
theorem F64.lt_iff {a b : Value} (ha : F64.isNaN a = false) (hb : F64.isNaN b = false) :
    F64.lt a b = true ↔ F64.orderKey a < F64.orderKey b := by
  simp [F64.lt, ha, hb]

/-- Values with equal keys are not below one another, be they NaNs or not. -/
theorem F64.lt_of_orderKey_eq {a b : Value} (h : F64.orderKey a = F64.orderKey b) : F64.lt a b = false := by
  simp [F64.lt, h]

theorem F64.orderKey_of_isZero {a : Value} (h : F64.isZero a = true) : F64.orderKey a = 0 := by
  simp [F64.orderKey, (F64.isZero_iff a).1 h]

/-- The operands on which neither branch is taken: a NaN, two zeros of any signs, equal patterns (R221). -/
theorem F64.lt_of_unordered_or_equal {a b : Value}
    (h : F64.isNaN a = true ∨ F64.isNaN b = true ∨ (F64.isZero a = true ∧ F64.isZero b = true) ∨ a = b) :
    F64.lt a b = false ∧ F64.lt b a = false := by
  obtain h | h | ⟨ha, hb⟩ | rfl := h
  · exact ⟨F64.lt_of_isNaN_left h b, F64.lt_of_isNaN_right h b⟩
  · exact ⟨F64.lt_of_isNaN_right h a, F64.lt_of_isNaN_left h a⟩
  · have hkey : F64.orderKey a = F64.orderKey b := by rw [F64.orderKey_of_isZero ha, F64.orderKey_of_isZero hb]
    exact ⟨F64.lt_of_orderKey_eq hkey, F64.lt_of_orderKey_eq hkey.symm⟩
  · exact ⟨F64.lt_of_orderKey_eq rfl, F64.lt_of_orderKey_eq rfl⟩

end Sys2Proof.Machine

/-! The branches, `call`, `ret` and `hlt` (R221 to R231). Settles O51 to O56. -/

namespace Sys2Proof.Machine

theorem withTopTwo_of_cons {s : State} {a b : Value} {st : List Value} (hs : s.opStack = some (a :: b :: st))
    (k : Value → Value → List Value → Result) : withTopTwo s k = k a b st :=
  withStack_of_some hs _

theorem withTopTwo_of_short {s : State} {st : List Value} (hs : s.opStack = some st) (hlen : st.length < 2)
    (k : Value → Value → List Value → Result) : withTopTwo s k = Claims.faulted .stackUnderflow s :=
  match st, hs, hlen with
  | [], hs, _ => withStack_of_some hs _
  | [_], hs, _ => withStack_of_some hs _

theorem withCallStack_of_some {s : State} {st : List Nat} (hs : s.callStack = some st) (k : List Nat → Result) :
    withCallStack s k = k st := by
  rw [withCallStack, hs]

section Branch

variable {cond : Value → Value → Bool} {s : State} {t : Nat} (ht : t < s.codeLen)
include ht

/-- Both entries go, and the condition decides where `ip` goes (R221). -/
theorem branchIf_of_cons {a b : Value} {st : List Value} (hs : s.opStack = some (a :: b :: st)) :
    branchIf cond t s = .next { s with opStack := some st, ip := if cond a b = true then t else s.ip + 5 } := by
  rw [branchIf, withTarget_natCast ht, withTopTwo_of_cons hs]
  cases cond a b <;> rfl

theorem branchIf_of_short {st : List Value} (hs : s.opStack = some st) (hlen : st.length < 2) :
    branchIf cond t s = Claims.faulted .stackUnderflow s := by
  rw [branchIf, withTarget_natCast ht, withTopTwo_of_short hs hlen]

end Branch

theorem exec_jmpl (t : Int) (s : State) : exec (.jmpl t) s = branchIf lessTaken t s := rfl

theorem exec_jmpg (t : Int) (s : State) : exec (.jmpg t) s = branchIf greaterTaken t s := rfl

theorem exec_call (t : Int) (s : State) : exec (.call t) s = withTarget s t fun n => withCallStack s fun st =>
    if atCapacity s.params.callStackCap st.length then raiseFault .resource s
    else .next ((s.setCallStack ((s.ip + 5) :: st)).jumpTo n) := rfl

theorem exec_call_of_hasRoom {s : State} {t : Nat} {st : List Nat} (ht : t < s.codeLen) (hs : s.callStack = some st)
    (hroom : Claims.HasRoom s.params.callStackCap st.length) :
    exec (.call t) s = .next { s with callStack := some ((s.ip + 5) :: st), ip := t } := by
  rw [exec_call, withTarget_natCast ht, withCallStack_of_some hs, atCapacity_eq_false_iff.2 hroom,
    if_neg Bool.false_ne_true]
  rfl

theorem exec_call_of_full {s : State} {t c : Nat} {st : List Nat} (ht : t < s.codeLen) (hs : s.callStack = some st)
    (hcap : s.params.callStackCap = some c) (hfull : c ≤ st.length) :
    exec (.call t) s = Claims.faulted .resource s := by
  rw [exec_call, withTarget_natCast ht, withCallStack_of_some hs, hcap, atCapacity_of_le hfull, if_pos rfl]
  rfl

theorem exec_ret_of_cons {s : State} {a : Nat} {st : List Nat} (hs : s.callStack = some (a :: st)) :
    exec .ret s = .next { s with callStack := some st, ip := a } :=
  withCallStack_of_some hs _

theorem exec_ret_of_nil {s : State} (hs : s.callStack = some []) : exec .ret s = Claims.faulted .retEmpty s :=
  withCallStack_of_some hs _

theorem exec_hlt (s : State) : exec .hlt s = .next s.halt := rfl

end Sys2Proof.Machine

namespace Sys2Proof.Claims

open Sys2Proof.Machine

/-- Settles O51: a branch on `B < A`. -/
theorem jumpIfLess : Obligations.JumpIfLess := by
  refine ⟨⟨rfl, rfl, rfl⟩, decodesAddress_of_decodeOperands rfl fun _ _ => rfl, truncates _,
    checksTarget_of_target? fun _ => rfl, fun s t ht => ⟨fun st hs hlen => ?_, fun a b st hs => ⟨?_, fun h => ?_⟩⟩,
    by decide +kernel, by decide +kernel⟩
  · exact (exec_jmpl t s).trans (branchIf_of_short ht hs hlen)
  · exact (exec_jmpl t s).trans (branchIf_of_cons ht hs)
  · have hfall : lessTaken a b = false := (F64.lt_of_unordered_or_equal h).2
    rw [exec_jmpl, branchIf_of_cons ht hs, hfall, if_neg Bool.false_ne_true]

/-- Settles O52: a branch on `B > A`. -/
theorem jumpIfGreater : Obligations.JumpIfGreater := by
  refine ⟨⟨rfl, rfl, rfl⟩, decodesAddress_of_decodeOperands rfl fun _ _ => rfl, truncates _,
    checksTarget_of_target? fun _ => rfl, fun s t ht => ⟨fun st hs hlen => ?_, fun a b st hs => ⟨?_, fun h => ?_⟩⟩,
    by decide +kernel, by decide +kernel, by decide +kernel⟩
  · exact (exec_jmpg t s).trans (branchIf_of_short ht hs hlen)
  · exact (exec_jmpg t s).trans (branchIf_of_cons ht hs)
  · have hfall : greaterTaken a b = false := (F64.lt_of_unordered_or_equal h).1
    rw [exec_jmpg, branchIf_of_cons ht hs, hfall, if_neg Bool.false_ne_true]

/-- Settles O53: the target's check, then the capacity's. -/
theorem callPushesTheReturnAddress : Obligations.CallPushesTheReturnAddress :=
  ⟨⟨rfl, rfl, rfl⟩, decodesAddress_of_decodeOperands rfl fun _ _ => rfl, truncates _, checksTarget_of_target? fun _ => rfl,
    fun _ _ _ ht hs => ⟨exec_call_of_hasRoom ht hs, fun _ => exec_call_of_full ht hs⟩, fun _ => step_endOfStream⟩

/-- Settles O54: the two shapes of the call-return stack. -/
theorem returnTakesTheLastAddress : Obligations.ReturnTakesTheLastAddress :=
  ⟨⟨rfl, rfl, rfl⟩, decodesAlone_of_decodeOperands rfl fun _ _ => rfl, fun _ => exec_ret_of_nil,
    fun _ _ _ => exec_ret_of_cons, fun _ => step_endOfStream⟩

/-- Settles O55: the state is OFF after `hlt`, so `execute` is refused. -/
theorem haltEndsTheLaunch : Obligations.HaltEndsTheLaunch := by
  refine ⟨⟨rfl, rfl, rfl⟩, decodesAlone_of_decodeOperands rfl fun _ _ => rfl, exec_hlt, fun s t code h => ?_⟩
  rw [execHlt_next h]
  exact State.execute_of_refuses rfl (State.refuses_iff.2 (.inl (by simp)))

/-- Settles O56: a call that did not fault left its return address on top. -/
theorem returnUndoesCall : Obligations.ReturnUndoesCall := by
  intro s t n h hmode
  obtain rfl | rfl | ⟨_, st, hs, _, rfl⟩ := execCall_next h
  · exact absurd rfl hmode
  · exact absurd rfl hmode
  · rw [exec_ret_of_cons (State.jumpTo_callStack _ _)]
    simp only [State.setCallStack, State.jumpTo, ← hs]

end Sys2Proof.Claims

/-! The comparisons of values in real numbers, and the near-zero test (R144). Settles O31. -/

namespace Sys2Proof.Laws

open Sys2Proof.Machine Sys2Proof.Claims

/-- The keys of two values stand as their units do. -/
theorem orderKey_lt_iff_scaled_lt (a b : Value) : F64.orderKey a < F64.orderKey b ↔ F64.scaled a < F64.scaled b := by
  have hab : F64.unitsOf (F64.magnitude a) < F64.unitsOf (F64.magnitude b) ↔ F64.magnitude a < F64.magnitude b :=
    F64.unitsOf_strictMono.lt_iff_lt
  have hba : F64.unitsOf (F64.magnitude b) < F64.unitsOf (F64.magnitude a) ↔ F64.magnitude b < F64.magnitude a :=
    F64.unitsOf_strictMono.lt_iff_lt
  have hzero : ∀ v : Value, F64.unitsOf (F64.magnitude v) = 0 ↔ F64.magnitude v = 0 := fun v =>
    (Eq.congr_right F64.unitsOf_zero.symm).trans F64.unitsOf_strictMono.injective.eq_iff
  have ha := hzero a
  have hb := hzero b
  rw [scaled_eq, scaled_eq, F64.orderKey, F64.orderKey]
  cases F64.sign a <;> cases F64.sign b <;> simp only [Bool.false_eq_true, if_false, if_true] <;> omega

/-- On finite values the comparison is that of the real numbers they stand for, so the zeros are equal. -/
theorem lt_iff_of_denotes {a b : Value} {x y : ℝ} (ha : Denotes a x) (hb : Denotes b y) : F64.lt a b = true ↔ x < y := by
  have hT : (0 : ℝ) < 2 ^ 1074 := by positivity
  rw [F64.lt_iff (fin_not_inf ha.1).2 (fin_not_inf hb.1).2, orderKey_lt_iff_scaled_lt, ← Int.cast_lt (R := ℝ), ha.2, hb.2,
    mul_lt_mul_iff_left₀ hT]

/-- The key of a value that is no NaN lies within the infinities' keys. -/
theorem magnitude_le_of_not_nan {b : Value} (h : F64.isNaN b = false) : F64.magnitude b ≤ F64.infMagnitude := by
  have := mt (F64.isNaN_iff b).2 (by rw [h]; decide)
  omega

/-- -inf is below every value but itself and the NaNs, and nothing is below it. -/
theorem lt_of_negInf {a b : Value} (hb : F64.isNaN b = false) (ha : F64.isInf a = true) (hs : F64.sign a = true) :
    (F64.lt a b = true ↔ ¬(F64.isInf b = true ∧ F64.sign b = true)) ∧ F64.lt b a = false := by
  have hle := magnitude_le_of_not_nan hb
  have hmag := (F64.isInf_iff a).1 ha
  have hpos : 0 < F64.infMagnitude := by norm_num [F64.infMagnitude]
  obtain ⟨-, hna, -⟩ := inf_not ha
  rw [← Bool.not_eq_true (F64.lt b a), F64.lt_iff hna hb, F64.lt_iff hb hna, F64.isInf_iff, F64.orderKey, F64.orderKey,
    hs, hmag]
  cases F64.sign b <;> simp only [Bool.false_eq_true, and_false, and_true, not_false_iff, iff_true, if_false, if_true] <;>
    omega

/-- +inf is above every value but itself and the NaNs, and nothing is above it. -/
theorem lt_of_posInf {a b : Value} (hb : F64.isNaN b = false) (ha : F64.isInf a = true) (hs : F64.sign a = false) :
    (F64.lt b a = true ↔ ¬(F64.isInf b = true ∧ F64.sign b = false)) ∧ F64.lt a b = false := by
  have hle := magnitude_le_of_not_nan hb
  have hmag := (F64.isInf_iff a).1 ha
  have hpos : 0 < F64.infMagnitude := by norm_num [F64.infMagnitude]
  obtain ⟨-, hna, -⟩ := inf_not ha
  rw [← Bool.not_eq_true (F64.lt a b), F64.lt_iff hna hb, F64.lt_iff hb hna, F64.isInf_iff, F64.orderKey, F64.orderKey,
    hs, hmag]
  cases F64.sign b <;>
    simp only [Bool.true_eq_false, Bool.false_eq_true, and_false, and_true, not_false_iff, iff_true, if_false, if_true] <;>
    omega

theorem sign_abs (a : Value) : F64.sign (F64.abs a) = false := F64.sign_withSign _ (F64.magnitude_lt a)

theorem magnitude_abs (a : Value) : F64.magnitude (F64.abs a) = F64.magnitude a :=
  F64.magnitude_withSign _ (F64.magnitude_lt a)

/-- `abs` clears the sign bit. -/
theorem abs_eq_and (a : Value) : F64.abs a = a &&& 0x7FFFFFFFFFFFFFFF := by
  apply BitVec.eq_of_toNat_eq
  rw [F64.abs, F64.withSign_toNat _ (F64.magnitude_lt a), BitVec.toNat_and]
  simpa [F64.magnitude] using (Nat.and_two_pow_sub_one_eq_mod a.toNat 63).symm

/-- `abs` of a finite value stands for the absolute value. -/
theorem denotes_abs {a : Value} {x : ℝ} (h : Denotes a x) : Denotes (F64.abs a) |x| := by
  have hT : (0 : ℝ) < 2 ^ 1074 := by positivity
  refine ⟨?_, ?_⟩
  · rw [F64.isFinite_iff, magnitude_abs, ← F64.isFinite_iff]
    exact h.1
  · have habs : F64.scaled (F64.abs a) = |F64.scaled a| := by
      rw [scaled_eq, scaled_eq, sign_abs, magnitude_abs]
      cases F64.sign a <;> simp
    rw [habs, Int.cast_abs, h.2, abs_mul, abs_of_pos hT]

theorem nearZero_iff_of_denotes {eps a : Value} {e x : ℝ} (he : Denotes eps e) (ha : Denotes a x) :
    nearZero eps a = true ↔ |x| < e :=
  lt_iff_of_denotes (denotes_abs ha) he

/-- No infinity and no NaN is near zero, whatever the threshold. -/
theorem nearZero_of_not_finite (eps : Value) {a : Value} (h : F64.isFinite a = false) : nearZero eps a = false := by
  cases hnan : F64.isNaN (F64.abs a) with
  | true => exact F64.lt_of_isNaN_left hnan eps
  | false =>
    cases hnan' : F64.isNaN eps with
    | true => exact F64.lt_of_isNaN_right hnan' _
    | false =>
      have hinf : F64.isInf (F64.abs a) = true := by
        have hle := magnitude_le_of_not_nan hnan
        have hge := mt (F64.isFinite_iff a).2 (by rw [h]; decide)
        rw [magnitude_abs] at hle
        rw [F64.isInf_iff, magnitude_abs]
        omega
      exact (lt_of_posInf hnan' hinf (sign_abs a)).2

/-- The default threshold is what 1e-6 rounds to. -/
theorem round_epsilon : F64.round false 1 (10 ^ 6) = epsilon := by decide +kernel

theorem roundsTo_epsilon : RoundsTo (1 / 10 ^ 6) epsilon := by
  have h := round_spec false (num := 1) (den := 10 ^ 6) (by norm_num) (by norm_num)
  rw [round_epsilon] at h
  simpa only [Bool.false_eq_true, if_false, one_mul, Nat.cast_one, Nat.cast_pow, Nat.cast_ofNat] using h

/-- The units of the default threshold: its 53-bit significand over the places of its exponent. -/
theorem scaled_epsilon : F64.scaled epsilon = 4722366482869645 * 2 ^ 1002 := by decide +kernel

theorem epsilon_value {eps : ℝ} (h : Denotes epsilon eps) : eps = 4722366482869645 / 2 ^ 72 := by
  have hT : (2 : ℝ) ^ 1074 = 2 ^ 1002 * 2 ^ 72 := by rw [← pow_add]
  have hP : (2 : ℝ) ^ 1002 ≠ 0 := by positivity
  rw [denotes_val h, scaled_epsilon, hT, Int.cast_mul, Int.cast_pow, mul_comm, Int.cast_ofNat, Int.cast_ofNat,
    mul_div_mul_left _ _ hP]

end Sys2Proof.Laws

namespace Sys2Proof.Claims

open Sys2Proof.Machine Sys2Proof.Laws

/-- Settles O31: finite values by their units, infinities by their keys, NaNs by the test for them. -/
theorem orderedComparisons : Obligations.OrderedComparisons := by
  refine ⟨fun _ _ => rfl, fun a b h => ?_, fun _ _ _ _ => lt_iff_of_denotes, fun _ _ => lt_of_negInf, fun _ _ => lt_of_posInf,
    fun _ _ _ _ => nearZero_iff_of_denotes, fun eps a => nearZero_of_not_finite eps, abs_eq_and, rfl, roundsTo_epsilon,
    fun eps h => ?_⟩
  · exact h.elim (F64.lt_of_isNaN_left · b) (F64.lt_of_isNaN_right · a)
  · rw [epsilon_value h, abs_lt]
    constructor <;> norm_num

end Sys2Proof.Claims

/-! What the arithmetic instructions leave on the stack (R143, R145 to R149). Settles O26 to O30. -/

namespace Sys2Proof.Claims

open Sys2Proof.Machine Sys2Proof.Laws

/-- The push of a result is what the statements call so: the value, or some NaN. -/
theorem pushes_pushNumeric (s : State) (rest : List Value) (r : Option Value) :
    Pushes (.next ((s.pushNumeric r rest).advance 1)) s rest r :=
  match r with
  | some _ => rfl
  | none => ⟨_, _, F64.isNaN_nanOf _, rfl⟩

/-- An instruction that uses two entries underflows on fewer, whatever it would do with them. -/
theorem underflows_of_withTopTwo {i : Instr} {k : State → Value → Value → List Value → Result}
    (hexec : ∀ s, exec i s = withTopTwo s (k s)) : Underflows i 2 :=
  fun s _ hs hlen => (hexec s).trans (withTopTwo_of_short hs hlen _)

/-- In this state the instruction pushes this result in the place of these entries. -/
def PushesResultIn (s : State) (i : Instr) (entries : List Value) (r : Option Value) : Prop :=
  ∀ rest, s.opStack = some (entries ++ rest) → exec i s = .next ((s.pushNumeric r rest).advance 1)

section Result

variable {s : State} {i : Instr} {entries : List Value}

theorem PushesResultIn.pushes {r : Option Value} (h : PushesResultIn s i entries r) {rest : List Value}
    (hs : s.opStack = some (entries ++ rest)) : Pushes (exec i s) s rest r :=
  h rest hs ▸ pushes_pushNumeric s rest r

theorem PushesResultIn.leavesIn {r : Option Value} {v : Value} (h : PushesResultIn s i entries r) (hr : r = some v) :
    LeavesIn s i entries v := by
  subst hr
  exact h

theorem leavesNaN_of_pushesResultIn {r : Option Value} (h : ∀ s, PushesResultIn s i entries r) (hr : r = none) :
    LeavesNaN i entries := by
  subst hr
  exact fun s rest hs => (h s).pushes hs

end Result

theorem pushesResultIn_add (s : State) (a b : Value) : PushesResultIn s .add [a, b] (F64.add a b) :=
  fun _ hs => withTopTwo_of_cons hs _

theorem pushesResultIn_sub (s : State) (a b : Value) : PushesResultIn s .sub [a, b] (F64.sub b a) :=
  fun _ hs => withTopTwo_of_cons hs _

theorem pushesResultIn_mul (s : State) (a b : Value) : PushesResultIn s .mul [a, b] (F64.mul a b) :=
  fun _ hs => withTopTwo_of_cons hs _

theorem exec_div (s : State) : exec .div s = withTopTwo s fun a b rest =>
    if nearZero s.params.eps a then raiseFault .divNearZero s
    else .next ((s.pushNumeric (F64.div b a) rest).advance 1) := rfl

theorem exec_sqrt (s : State) : exec .sqrt s = withTop s fun a rest =>
    if negative a then raiseFault .sqrtNegative s else .next ((s.pushNumeric (F64.sqrt a) rest).advance 1) := rfl

theorem faultsIn_div {s : State} {a : Value} (h : nearZero s.params.eps a = true) (b : Value) :
    FaultsIn s .div [a, b] .divNearZero := by
  intro rest hs
  rw [exec_div, withTopTwo_of_cons hs, if_pos h, raiseFault_eq_faulted]

theorem pushesResultIn_div {s : State} {a : Value} (h : nearZero s.params.eps a = false) (b : Value) :
    PushesResultIn s .div [a, b] (F64.div b a) := by
  intro rest hs
  rw [exec_div, withTopTwo_of_cons hs, h, if_neg Bool.false_ne_true]
  rfl

theorem faultsOn_sqrt {a : Value} (h : negative a = true) : FaultsOn .sqrt [a] .sqrtNegative := by
  intro s rest hs
  rw [exec_sqrt, withTop_of_cons hs, if_pos h, raiseFault_eq_faulted]

theorem pushesResultIn_sqrt (s : State) {a : Value} (h : negative a = false) :
    PushesResultIn s .sqrt [a] (F64.sqrt a) := by
  intro rest hs
  rw [exec_sqrt, withTop_of_cons hs, h, if_neg Bool.false_ne_true]
  rfl

/-- A finite value stands for a real number. -/
theorem exists_denotes {v : Value} (h : F64.isFinite v = true) : ∃ x, Denotes v x :=
  ⟨F64.scaled v / 2 ^ 1074, h, (div_mul_cancel₀ _ (by positivity)).symm⟩

/-- `x - x` is +0 for every finite `x` (R146). -/
theorem sub_self_of_finite {x : Value} (h : F64.isFinite x = true) : F64.sub x x = some 0 := by
  obtain ⟨y, hy⟩ := exists_denotes h
  obtain ⟨-, -, -, -, hfinite⟩ := isDiff_sub x x
  rw [(hfinite y y hy hy).1 (sub_self y), Bool.and_not_self]
  decide

/-- Settles O26: `add` is the IEEE sum of the two entries. -/
theorem addPushesTheRoundedSum : Obligations.AddPushesTheRoundedSum := by
  refine ⟨⟨rfl, rfl, rfl⟩, decodesAlone_of_decodeOperands rfl fun _ _ => rfl, underflows_of_withTopTwo fun _ => rfl,
    fun s a b rest hs => ⟨F64.add a b, isSum_add a b, (pushesResultIn_add s a b).pushes hs⟩, ?_, ?_, ?_, ?_, ?_⟩
  · exact leavesNaN_of_pushesResultIn (fun s => pushesResultIn_add s _ _) (by decide +kernel)
  all_goals exact fun s => (pushesResultIn_add s _ _).leavesIn (by decide +kernel)

/-- Settles O27: `sub` is the IEEE difference, the entry under the top less the top. -/
theorem subPushesTheRoundedDifference : Obligations.SubPushesTheRoundedDifference := by
  refine ⟨⟨rfl, rfl, rfl⟩, decodesAlone_of_decodeOperands rfl fun _ _ => rfl, underflows_of_withTopTwo fun _ => rfl,
    fun s a b rest hs => ⟨F64.sub b a, isDiff_sub b a, (pushesResultIn_sub s a b).pushes hs⟩,
    fun x hx s => (pushesResultIn_sub s x x).leavesIn (sub_self_of_finite hx), ?_, ?_, ?_, ?_⟩
  · exact leavesNaN_of_pushesResultIn (fun s => pushesResultIn_sub s _ _) (by decide +kernel)
  all_goals exact fun s => (pushesResultIn_sub s _ _).leavesIn (by decide +kernel)

/-- Settles O28: `mul` is the IEEE product of the two entries. -/
theorem mulPushesTheRoundedProduct : Obligations.MulPushesTheRoundedProduct := by
  refine ⟨⟨rfl, rfl, rfl⟩, decodesAlone_of_decodeOperands rfl fun _ _ => rfl, underflows_of_withTopTwo fun _ => rfl,
    fun s a b rest hs => ⟨F64.mul a b, isProd_mul a b, (pushesResultIn_mul s a b).pushes hs⟩, ?_, ?_, ?_, ?_, ?_⟩
  · exact leavesNaN_of_pushesResultIn (fun s => pushesResultIn_mul s _ _) (by decide +kernel)
  all_goals exact fun s => (pushesResultIn_mul s _ _).leavesIn (by decide +kernel)

/-- A NaN divisor: it is not near zero, and the quotient is a NaN. -/
theorem leavesNaN_div_of_isNaN {a : Value} (h : F64.isNaN a = true) (b : Value) : LeavesNaN .div [a, b] := by
  have hfin : F64.isFinite a = false := eq_false_of_ne_true fun hf => by simp [(fin_not_inf hf).2] at h
  exact leavesNaN_of_pushesResultIn (fun s => pushesResultIn_div (nearZero_of_not_finite _ hfin) b)
    ((isQuot_div b a).1 (.inr h))

/-- A finite value over +inf is a zero of its sign. -/
theorem leaves_div_posInf {b : Value} (h : F64.isFinite b = true) :
    Leaves .div [0x7FF0000000000000, b] (F64.zero (F64.sign b)) := by
  intro s
  obtain ⟨-, -, -, hquot, -⟩ := isQuot_div b 0x7FF0000000000000
  have hsign : F64.sign 0x7FF0000000000000 = false := by decide +kernel
  refine (pushesResultIn_div (nearZero_of_not_finite _ (by decide +kernel)) b).leavesIn ?_
  rw [hquot h (by decide +kernel), hsign, Bool.bne_false]

/-- Settles O29: the near-zero test, then the IEEE quotient. -/
theorem divPushesTheRoundedQuotient : Obligations.DivPushesTheRoundedQuotient := by
  refine ⟨⟨rfl, rfl, rfl⟩, decodesAlone_of_decodeOperands rfl fun _ _ => rfl, underflows_of_withTopTwo exec_div,
    fun s a b rest hs => ⟨fun h => faultsIn_div h b rest hs,
      fun h => ⟨F64.div b a, isQuot_div b a, (pushesResultIn_div h b).pushes hs⟩⟩,
    fun a b h => leavesNaN_div_of_isNaN h b, fun b h => leaves_div_posInf h, ?_, fun s heps => ?_⟩
  · exact leavesNaN_of_pushesResultIn (fun s => pushesResultIn_div (nearZero_of_not_finite _ (by decide +kernel)) _)
      (by decide +kernel)
  · have hfault : ∀ {a b : Value}, nearZero epsilon a = true → FaultsIn s .div [a, b] .divNearZero :=
      fun h => faultsIn_div (heps ▸ h) _
    have hleaves : ∀ {a b v : Value}, nearZero epsilon a = false → F64.div b a = some v → LeavesIn s .div [a, b] v :=
      fun h hv => (pushesResultIn_div (heps ▸ h) _).leavesIn hv
    refine ⟨fun b => ⟨hfault ?_, hfault ?_, hfault ?_, hfault ?_⟩, hleaves ?_ ?_, hleaves ?_ ?_,
      hleaves ?_ ?_, hleaves ?_ ?_⟩
    all_goals decide +kernel

/-- `A < 0` on a finite value: its number is below 0 (R149). -/
theorem negative_iff_of_denotes {a : Value} {x : ℝ} (h : Denotes a x) : negative a = true ↔ x < 0 :=
  lt_iff_of_denotes h ⟨by decide +kernel, by
    have hzero : F64.scaled (F64.zero false) = 0 := by decide +kernel
    rw [hzero, Int.cast_zero, zero_mul]⟩

/-- `A < 0` on an infinity: it is -inf. -/
theorem negative_iff_of_isInf {a : Value} (h : F64.isInf a = true) : negative a = true ↔ F64.sign a = true := by
  have hnan : F64.isNaN (F64.zero false) = false := by decide +kernel
  have hinf : F64.isInf (F64.zero false) = false := by decide +kernel
  cases hs : F64.sign a with
  | true => exact iff_of_true ((lt_of_negInf hnan h hs).1.2 fun hc => by simp [hinf] at hc) rfl
  | false => exact iff_of_false (by rw [negative, (lt_of_posInf hnan h hs).2]; decide) Bool.false_ne_true

theorem negative_of_isNaN {a : Value} (h : F64.isNaN a = true) : negative a = false := F64.lt_of_isNaN_left h _

/-- Settles O30: the sign test, then the IEEE root. -/
theorem sqrtReplacesTheTop : Obligations.SqrtReplacesTheTop := by
  refine ⟨⟨rfl, rfl, rfl⟩, decodesAlone_of_decodeOperands rfl fun _ _ => rfl, underflows_of_withTop exec_sqrt,
    fun _ _ => negative_iff_of_denotes, fun _ => negative_of_isNaN, fun _ => negative_iff_of_isInf, fun _ => faultsOn_sqrt,
    fun s a rest hs h => ⟨F64.sqrt a, isRoot_sqrt a, (pushesResultIn_sqrt s h).pushes hs⟩, ?_, fun a h => ?_, ?_,
    ?_, ?_, ?_, ?_⟩
  · exact fun s => (pushesResultIn_sqrt s (by decide +kernel)).leavesIn (by decide +kernel)
  · exact leavesNaN_of_pushesResultIn (fun s => pushesResultIn_sqrt s (negative_of_isNaN h)) ((isRoot_sqrt a).1 h)
  · exact faultsOn_sqrt (by decide +kernel)
  · exact fun s => (pushesResultIn_sqrt s (by decide +kernel)).leavesIn (by decide +kernel)
  · exact faultsOn_sqrt (by decide +kernel)
  · exact fun s => (pushesResultIn_sqrt s (by decide +kernel)).leavesIn (by decide +kernel)
  · exact faultsOn_sqrt (by decide +kernel)

end Sys2Proof.Claims

/-! The symbol table (R124). Settles O58 and O59. -/

namespace Sys2Proof.Machine

/-- The labels of two lists of items, the second's offsets after the bytes of the first. -/
theorem symbols_append (before after : List AsmItem) (off : Nat) :
    symbols (before ++ after) off = symbols before off ++ symbols after (off + (before.map AsmItem.length).sum) := by
  induction before generalizing off with
  | nil => simp [symbols]
  | cons item rest ih =>
    cases item with
    | plain i | transfer k t => simp only [List.cons_append, symbols, ih, List.map_cons, List.sum_cons, Nat.add_assoc]
    | label name =>
      simp only [List.cons_append, symbols, ih, List.map_cons, List.sum_cons, AsmItem.length, Nat.zero_add]

/-- A label defined once is found with the offset at its definition. -/
theorem lookup_symbols {before after : List AsmItem} {name : Token}
    (h : ((symbols (before ++ .label name :: after) 0).map Prod.fst).Nodup) :
    (symbols (before ++ .label name :: after) 0).lookup name = some (before.map AsmItem.length).sum := by
  rw [symbols_append, Nat.zero_add, symbols] at h ⊢
  rw [List.lookup_eq_some_iff]
  refine ⟨_, _, rfl, fun p hp => bne_iff_ne.2 fun hname => ?_⟩
  rw [List.map_append, List.map_cons, List.nodup_append] at h
  obtain ⟨-, -, hdisjoint⟩ := h
  exact hdisjoint p.1 (List.mem_map_of_mem hp) name (by simp) hname.symm

end Sys2Proof.Machine

namespace Sys2Proof.Claims

open Sys2Proof.Machine

/-- Settles O58: the search finds the one definition, and its offset is the length of what stands before it. -/
theorem labelsHoldTheirOffset : Obligations.LabelsHoldTheirOffset := by
  intro before after name k h
  rw [resolve, lookup_symbols h]

/-- Settles O59: the text, assembled. -/
theorem forwardReferenceExample : Obligations.ForwardReferenceExample := by
  unfold Obligations.ForwardReferenceExample
  decide +kernel

end Sys2Proof.Claims

/-! What the assembler accepts is well formed: the parser checks every address it reads, and a label's offset is at most the
program's length (R121, R124, R125). -/

namespace Sys2Proof.Machine

/-- An item whose addresses fit their fields; a label's address is not known yet. -/
def AsmItem.Fits : AsmItem → Prop
  | .plain i => i.wf = true
  | .transfer _ (.literal a) => inAddrRange a
  | .transfer _ (.label _) => True
  | .label _ => True

theorem addrLiteral_ok {t : Token} {a : Int} (h : addrLiteral t = .ok a) : inAddrRange a := by
  unfold addrLiteral at h
  split at h
  · cases h
  · split at h
    · rename_i hrange
      cases h
      exact hrange
    · cases h

/-- A step of the parser that maps an answer answers where the step does. -/
theorem except_map_eq_ok {ε α β : Type} {x : Except ε α} {f : α → β} {b : β} (h : x.map f = .ok b) :
    ∃ a, x = .ok a ∧ f a = b := by
  cases x with
  | error e => cases h
  | ok a => exact ⟨a, rfl, Except.ok.inj h⟩

theorem memOperand_address {t : Token} {a : Int} (h : memOperand t = .ok (.address a)) : inAddrRange a := by
  unfold memOperand at h
  split at h
  · cases h
  · split at h
    · cases h
    · obtain ⟨a', ha, hfa⟩ := except_map_eq_ok h
      cases hfa
      exact addrLiteral_ok ha

theorem targetOperand_fits {t : Token} {g : Target} (h : targetOperand t = .ok g) (k : Transfer) :
    (AsmItem.transfer k g).Fits := by
  unfold targetOperand at h
  split at h
  · obtain ⟨a, ha, rfl⟩ := except_map_eq_ok h
    exact addrLiteral_ok ha
  · cases h
    trivial

theorem zeroOperand_wf {t : Token} {i : Instr} (h : zeroOperand t = some i) : i.wf = true := by
  unfold zeroOperand at h
  repeat' split at h
  all_goals cases h
  all_goals rfl

theorem zeroOperandAt_wf {t : Lexeme} {i : Instr} (h : zeroOperandAt t = some i) : i.wf = true := by
  unfold zeroOperandAt at h
  split at h
  · exact zeroOperand_wf h
  · cases h

theorem registerForm_fits {withReg : Reg → Instr} {plain : Instr} {spaced : Bool} {ts rest : List Lexeme} {item : AsmItem}
    (hreg : ∀ r, (withReg r).wf = true) (hplain : plain.wf = true)
    (h : registerForm withReg plain spaced ts = .ok (item, rest)) : item.Fits := by
  unfold registerForm at h
  split at h
  · cases h
    exact hreg _
  · split at h
    · cases h
      exact hplain
    · cases h

theorem wf_writeA {rs : Reg} {a : Int} (h : inAddrRange a) : (Instr.writeA rs a).wf = true := decide_eq_true h

theorem wf_readA {rd : Reg} {a : Int} (h : inAddrRange a) : (Instr.readA a rd).wf = true := decide_eq_true h

theorem parseOperands_fits {n : OperandName} {spaced : Bool} {ts rest : List Lexeme} {item : AsmItem}
    (h : parseOperands n spaced ts = .ok (item, rest)) : item.Fits := by
  cases n with
  | push =>
    simp only [parseOperands] at h
    repeat' split at h
    all_goals cases h
    all_goals rfl
  | pop | input | output => exact registerForm_fits (fun _ => rfl) rfl h
  | write =>
    simp only [parseOperands] at h
    split at h
    · split at h
      · cases h
        rfl
      · rename_i ha
        cases h
        exact wf_writeA (memOperand_address ha)
      · cases h
      · cases h
    · cases h
    · cases h
  | read =>
    simp only [parseOperands] at h
    split at h
    · split at h
      · cases h
        rfl
      · rename_i ha _
        cases h
        exact wf_readA (memOperand_address ha)
      · cases h
      · cases h
    · cases h
    · cases h

theorem labelDefinition_fits {t : Token} {item : AsmItem} (h : labelDefinition t = .ok item) : item.Fits := by
  unfold labelDefinition at h
  repeat' split at h
  all_goals cases h
  trivial

theorem parseItem_fits {t : Lexeme} {ts rest : List Lexeme} {item : AsmItem} (h : parseItem t ts = .ok (item, rest)) :
    item.Fits := by
  unfold parseItem at h
  split at h
  · rename_i hi
    cases h
    exact zeroOperandAt_wf hi
  · split at h
    · split at h
      · cases h
      · obtain ⟨g, hg, hfg⟩ := except_map_eq_ok h
        cases hfg
        exact targetOperand_fits hg _
    · split at h
      · exact parseOperands_fits h
      · obtain ⟨l, hl, hfl⟩ := except_map_eq_ok h
        cases hfl
        exact labelDefinition_fits hl

theorem parseItems_fits {fuel : Nat} {ts : List Lexeme} {items : List AsmItem} (h : parseItems fuel ts = .ok items) :
    ∀ item ∈ items, item.Fits := by
  induction fuel generalizing ts items with
  | zero =>
    cases ts with
    | nil =>
      cases h
      simp
    | cons t ts => cases h
  | succ fuel ih =>
    cases ts with
    | nil =>
      cases h
      simp
    | cons t ts =>
      simp only [parseItems] at h
      split at h
      · cases h
      · rename_i hitem
        obtain ⟨items', hitems, rfl⟩ := except_map_eq_ok h
        exact List.forall_mem_cons.2 ⟨parseItem_fits hitem, ih hitems⟩

/-- A label's offset is at most the length of all the items. -/
theorem symbols_le {items : List AsmItem} {off : Nat} {p : Token × Nat} (h : p ∈ symbols items off) :
    p.2 ≤ off + (items.map AsmItem.length).sum := by
  induction items generalizing off with
  | nil => cases h
  | cons item rest ih =>
    rw [List.map_cons, List.sum_cons]
    cases item with
    | plain i | transfer k t =>
      have := ih h
      omega
    | label name =>
      rcases List.mem_cons.1 h with rfl | h
      · exact Nat.le_add_right _ _
      · have := ih h
        omega

theorem length_transferInstr (k : Transfer) (a b : Int) : (k.instr a).length = (k.instr b).length := by
  cases k <;> rfl

theorem wf_transferInstr (k : Transfer) {a : Int} (h : inAddrRange a) : (k.instr a).wf = true := by
  cases k <;> exact decide_eq_true h

/-- A list of instructions that an item, or a list of them, is resolved to: well formed, of the length counted. -/
structure Resolved (is : List Instr) (len : Nat) : Prop where
  wf : ∀ i ∈ is, i.wf = true
  length : (is.map Instr.length).sum = len

theorem resolved_singleton {i : Instr} {len : Nat} (hwf : i.wf = true) (hlen : i.length = len) : Resolved [i] len :=
  ⟨by simpa using hwf, by simpa using hlen⟩

theorem Resolved.append {is js : List Instr} {m n : Nat} (h : Resolved is m) (h' : Resolved js n) :
    Resolved (is ++ js) (m + n) :=
  ⟨fun i hi => (List.mem_append.1 hi).elim (h.wf i) (h'.wf i), by rw [List.map_append, List.sum_append, h.length, h'.length]⟩

section Resolve

variable {table : List (Token × Nat)} (htable : ∀ p ∈ table, p.2 ≤ Config.maxCodeLen)
include htable

theorem resolve_resolved {item : AsmItem} {is : List Instr} (hfits : item.Fits) (h : resolve table item = .ok is) :
    Resolved is item.length := by
  unfold resolve at h
  split at h
  · cases h
    exact resolved_singleton hfits rfl
  · cases h
    exact ⟨by simp, rfl⟩
  · cases h
    exact resolved_singleton (wf_transferInstr _ hfits) (length_transferInstr _ _ _)
  · split at h
    · rename_i off hoff
      cases h
      obtain ⟨l1, l2, rfl, -⟩ := List.lookup_eq_some_iff.1 hoff
      have hle := htable _ (List.mem_append_right l1 List.mem_cons_self)
      refine resolved_singleton (wf_transferInstr _ ?_) (length_transferInstr _ _ _)
      simp only [Config.maxCodeLen, inAddrRange] at hle ⊢
      omega
    · cases h

theorem resolveAll_resolved {items : List AsmItem} {is : List Instr} (hfits : ∀ item ∈ items, item.Fits)
    (h : resolveAll table items = .ok is) : Resolved is (items.map AsmItem.length).sum := by
  induction items generalizing is with
  | nil =>
    cases h
    exact ⟨by simp, rfl⟩
  | cons item rest ih =>
    obtain ⟨hitem, hrest⟩ := List.forall_mem_cons.1 hfits
    unfold resolveAll at h
    split at h
    · rename_i his hjs
      cases h
      exact (resolve_resolved htable hitem his).append (ih hrest hjs)
    · cases h
    · cases h

end Resolve

/-- The instructions of an accepted text are well formed, and not too long together (R6, D27). -/
theorem assembleInstrs_ok {src : List Char} {is : List Instr} (h : assembleInstrs src = .ok is) :
    (∀ i ∈ is, i.wf = true) ∧ (is.map Instr.length).sum ≤ Config.maxCodeLen := by
  unfold assembleInstrs at h
  split at h
  · cases h
  · rename_i items hitems
    split at h
    · split at h
      · cases h
      · rename_i hlong
        have htable : ∀ p ∈ symbols items 0, p.2 ≤ Config.maxCodeLen := fun p hp => by
          have := symbols_le hp
          omega
        obtain ⟨hwf, hlen⟩ := resolveAll_resolved htable (parseItems_fits hitems) h
        exact ⟨hwf, by omega⟩
    · cases h

theorem length_encodeAll (e : Encoding) (is : List Instr) : (encodeAll e is).length = (is.map Instr.length).sum := by
  simp only [encodeAll, List.length_flatMap, encode_length]

/-- Behind the bytes of the instructions before it, an instruction's own bytes stand. -/
theorem drop_encodeAll (e : Encoding) (before : List Instr) (i : Instr) (after : List Instr) :
    (encodeAll e (before ++ i :: after)).drop (before.map Instr.length).sum = encode e i ++ encodeAll e after := by
  rw [← length_encodeAll e before]
  simp only [encodeAll, List.flatMap_append, List.drop_left, List.flatMap_cons]

end Sys2Proof.Machine

namespace Sys2Proof.Claims

open Sys2Proof.Machine

/-- Settles O57: the text's instructions are well formed, so each is decoded from its own bytes. -/
theorem assembledCodeDecodes : Obligations.AssembledCodeDecodes := by
  intro e src bytes he h
  obtain ⟨is, his, rfl⟩ := except_map_eq_ok h
  obtain ⟨hwf, hlen⟩ := assembleInstrs_ok his
  refine ⟨is, his, hwf, length_encodeAll e is, (length_encodeAll e is).trans_le hlen, ?_⟩
  rintro before i after rfl
  rw [drop_encodeAll]
  exact decodeBytes_encode he (hwf i (by simp)) _

end Sys2Proof.Claims

/-! Decimal literals (R123): the digits that a literal counts bound its number, so its cut-offs lie past the greatest and below
the least binary64. Settles O41. -/

namespace Sys2Proof.Machine

theorem decDigit_lt (c : Char) (d : Nat) (h : decDigit c = some d) : d < 10 := by
  unfold decDigit at h
  split at h
  · cases h
    omega
  · cases h

/-- Digits read make a number below the base to the count of them. -/
theorem takeDigits_lt {digit : Char → Option Nat} {base : Nat} (hdigit : ∀ c d, digit c = some d → d < base)
    {acc count : Nat} (h : acc < base ^ count) (cs : List Char) :
    (takeDigits digit base acc count cs).1 < base ^ (takeDigits digit base acc count cs).2.1 := by
  induction cs generalizing acc count with
  | nil => exact h
  | cons c cs ih =>
    unfold takeDigits
    split
    · rename_i d hd
      refine ih ?_
      calc acc * base + d < (acc + 1) * base := by rw [Nat.succ_mul]; exact Nat.add_lt_add_left (hdigit c d hd) _
        _ ≤ base ^ (count + 1) := Nat.mul_le_mul_right base h
    · exact h

/-- So do the digits of a mantissa, on both sides of its point. -/
theorem takeMantissa_lt {digit : Char → Option Nat} {base : Nat} (hdigit : ∀ c d, digit c = some d → d < base)
    (cs : List Char) : (takeMantissa digit base cs).1 < base ^ (takeMantissa digit base cs).2.1 := by
  have hbefore := takeDigits_lt hdigit (acc := 0) (count := 0) (by simp) cs
  unfold takeMantissa
  split
  · rename_i n k rest heq
    rw [heq] at hbefore
    exact takeDigits_lt hdigit hbefore rest
  · rename_i heq
    rw [heq] at hbefore
    exact hbefore

theorem wholeDec_lt {neg neg' : Bool} {cs : List Char} {num digits : Nat} {exp : Int}
    (h : wholeDec neg cs = some (.dec neg' num digits exp)) : num < 10 ^ digits := by
  have hlt := takeMantissa_lt decDigit_lt cs
  unfold wholeDec at h
  split at h
  rename_i heq
  rw [heq] at hlt
  split at h
  · cases h
  · obtain ⟨e, -, he⟩ := Option.map_eq_some_iff.1 h
    cases he
    exact hlt

/-- A hexadecimal literal is no decimal one. -/
theorem wholeHex_ne_dec {neg neg' : Bool} {cs : List Char} {num digits : Nat} {exp : Int} :
    wholeHex neg cs ≠ some (.dec neg' num digits exp) := by
  intro h
  unfold wholeHex at h
  split at h
  split at h
  · cases h
  · obtain ⟨e, -, he⟩ := Option.map_eq_some_iff.1 h
    cases he

theorem parseLiteral_lt {text : List Char} {neg : Bool} {num digits : Nat} {exp : Int}
    (h : parseLiteral text = some (.dec neg num digits exp)) : num < 10 ^ digits := by
  unfold parseLiteral at h
  split at h
  split at h
  · cases h
  · split at h
    · cases h
    · split at h
      · cases h
      · split at h
        · exact absurd h wholeHex_ne_dec
        · exact wholeDec_lt h

end Sys2Proof.Machine

namespace Sys2Proof.Laws

open Sys2Proof.Machine Sys2Proof.Claims

/-- The real number of a magnitude under a sign. -/
noncomputable def signed (neg : Bool) (y : ℝ) : ℝ := (if neg then -1 else 1) * y

theorem abs_signed (neg : Bool) {y : ℝ} (hy : 0 < y) : |signed neg y| = y := by
  cases neg <;> simp [signed, abs_of_pos hy]

/-- A value of that sign has the sign of the number. -/
theorem sign_of_signed {neg : Bool} {y : ℝ} (hy : 0 < y) {v : Value} (hv : F64.sign v = neg) :
    (signed neg y < 0 → F64.sign v = true) ∧ (0 < signed neg y → F64.sign v = false) := by
  subst hv
  cases F64.sign v <;> simp [signed, hy.le]

/-- From halfway between the greatest finite value and 2^1024 on, a number rounds to an infinity. -/
theorem roundsTo_inf (neg : Bool) {y : ℝ} (hy : 0 < y) (h : 2 ^ 1024 - 2 ^ 970 ≤ y) :
    RoundsTo (signed neg y) (F64.inf neg) := by
  obtain ⟨hneg, hpos⟩ := sign_of_signed hy (F64.sign_withSign neg infMag_lt)
  refine ⟨hneg, hpos, .inr ⟨by rwa [abs_signed neg hy], ?_⟩⟩
  rw [F64.isInf_iff, F64.inf, F64.magnitude_withSign neg infMag_lt]

theorem magnitude_zero (neg : Bool) : F64.magnitude (F64.zero neg) = 0 := F64.magnitude_withSign neg (by norm_num)

theorem one_le_overflow : (1 : ℝ) ≤ 2 ^ 1024 - 2 ^ 970 := by
  have hgap : ∀ a : ℝ, 1 ≤ a → 1 ≤ 2 ^ 54 * a - a := fun a ha => by linarith
  have hsplit : (2 : ℝ) ^ 1024 = 2 ^ 54 * 2 ^ 970 := by rw [← pow_add]
  rw [hsplit]
  exact hgap _ (one_le_pow₀ (by norm_num))

/-- A zero is the nearest value to a number of less than half a unit, and the only one. -/
theorem roundsTo_zero (neg : Bool) {y : ℝ} (hy : 0 < y) (h : y * 2 ^ 1074 < 1 / 2) :
    RoundsTo (signed neg y) (F64.zero neg) := by
  have hT : (1 : ℝ) ≤ 2 ^ 1074 := one_le_pow₀ (by norm_num)
  obtain ⟨hneg, hpos⟩ := sign_of_signed hy (F64.sign_withSign neg (mag := 0) (by norm_num))
  have hscaled : F64.scaled (F64.zero neg) = 0 := by
    rw [scaled_eq, magnitude_zero, F64.unitsOf_zero]
    simp
  have hunits : |signed neg y * 2 ^ 1074| < 1 / 2 := by
    rwa [abs_mul, abs_signed neg hy, abs_of_pos (by positivity)]
  have hfar : ∀ w : Value, F64.scaled w ≠ 0 → 1 / 2 < |(F64.scaled w : ℝ) - signed neg y * 2 ^ 1074| := by
    intro w hw
    have hone : (1 : ℝ) ≤ |(F64.scaled w : ℝ)| := by exact_mod_cast Int.one_le_abs hw
    have := abs_sub_abs_le_abs_sub (F64.scaled w : ℝ) (signed neg y * 2 ^ 1074)
    linarith
  refine ⟨hneg, hpos, .inl ⟨?_, ?_, fun w _ => ?_, fun w _ hne heq => ?_⟩⟩
  · rw [abs_signed neg hy]
    calc y ≤ y * 2 ^ 1074 := le_mul_of_one_le_right hy.le hT
      _ < 1 := h.trans (by norm_num)
      _ ≤ 2 ^ 1024 - 2 ^ 970 := one_le_overflow
  · rw [F64.isFinite_iff, magnitude_zero]
    norm_num [F64.infMagnitude]
  · by_cases hw : F64.scaled w = 0
    · rw [hscaled, hw]
    · rw [hscaled, Int.cast_zero, zero_sub, abs_neg]
      exact hunits.le.trans (hfar w hw).le
  · rw [hscaled] at hne heq
    rw [Int.cast_zero, zero_sub, abs_neg] at heq
    exact absurd heq (hunits.trans (hfar w hne)).ne

/-- A power of ten past both cut-offs. -/
theorem two_pow_le_ten_pow : (2 : ℝ) ^ 1203 ≤ 10 ^ 401 := by
  calc (2 : ℝ) ^ 1203 = (2 ^ 3) ^ 401 := by rw [← pow_mul]
    _ ≤ 10 ^ 401 := pow_le_pow_left₀ (by norm_num) (by norm_num) 401

theorem decimal_overflows {num : Nat} {exp : Int} (hnum : num ≠ 0) (hexp : 400 < exp) :
    (2 : ℝ) ^ 1024 - 2 ^ 970 ≤ num * 10 ^ exp := by
  have hone : (1 : ℝ) ≤ num := by exact_mod_cast Nat.one_le_iff_ne_zero.2 hnum
  have hpow : (10 : ℝ) ^ 401 ≤ 10 ^ exp := by
    rw [← zpow_natCast]
    exact zpow_le_zpow_right₀ (by norm_num) (by omega)
  calc (2 : ℝ) ^ 1024 - 2 ^ 970 ≤ 2 ^ 1024 := sub_le_self _ (by positivity)
    _ ≤ 2 ^ 1203 := pow_le_pow_right₀ (by norm_num) (by norm_num)
    _ ≤ 10 ^ 401 := two_pow_le_ten_pow
    _ ≤ 10 ^ exp := hpow
    _ ≤ num * 10 ^ exp := le_mul_of_one_le_left (zpow_pos (by norm_num) exp).le hone

theorem decimal_underflows {num digits : Nat} {exp : Int} (hlt : num < 10 ^ digits) (hexp : digits + exp < -400) :
    (num : ℝ) * 10 ^ exp * 2 ^ 1074 < 1 / 2 := by
  have hten : (0 : ℝ) < 10 := by norm_num
  have hnum : (num : ℝ) * 10 ^ exp < 10 ^ (digits + exp) := by
    rw [zpow_add₀ hten.ne', zpow_natCast]
    exact mul_lt_mul_of_pos_right (by exact_mod_cast hlt) (zpow_pos hten exp)
  have hpow : (10 : ℝ) ^ (digits + exp) ≤ (10 ^ 401)⁻¹ := by
    rw [← zpow_natCast, ← zpow_neg]
    exact zpow_le_zpow_right₀ (by norm_num) (by push_cast; omega)
  have hinv : ((10 : ℝ) ^ 401)⁻¹ ≤ (2 ^ 1203)⁻¹ := inv_anti₀ (by positivity) two_pow_le_ten_pow
  have hunits : ((2 : ℝ) ^ 1203)⁻¹ * 2 ^ 1074 = (2 ^ 129)⁻¹ := by
    rw [show (2 : ℝ) ^ 1203 = 2 ^ 129 * 2 ^ 1074 by rw [← pow_add], mul_inv, inv_mul_cancel_right₀ (by positivity)]
  calc (num : ℝ) * 10 ^ exp * 2 ^ 1074 < (2 ^ 1203)⁻¹ * 2 ^ 1074 :=
        mul_lt_mul_of_pos_right (hnum.trans_le (hpow.trans hinv)) (by positivity)
    _ = (2 ^ 129)⁻¹ := hunits
    _ < 1 / 2 := by norm_num

/-- The value of a decimal literal that is not zero: past the cut-offs an infinity or a zero, between them one rounding. -/
theorem roundsTo_decimal (text : List Char) (neg : Bool) {num digits : Nat} {exp : Int} (hnum : num ≠ 0)
    (hlt : num < 10 ^ digits) :
    RoundsTo (signed neg (num * 10 ^ exp)) (Literal.value roundNearest text (.dec neg num digits exp)) := by
  have hpos : 0 < num := Nat.pos_of_ne_zero hnum
  have hy : (0 : ℝ) < num * 10 ^ exp := mul_pos (by exact_mod_cast hpos) (zpow_pos (by norm_num) exp)
  rw [Literal.value, if_neg hnum]
  split
  · exact roundsTo_inf neg hy (decimal_overflows hnum ‹_›)
  · split
    · exact roundsTo_zero neg hy (decimal_underflows hlt ‹_›)
    · split
      · rename_i h0
        obtain ⟨n, rfl⟩ := Int.eq_ofNat_of_zero_le h0
        have h := round_spec neg (Nat.mul_pos hpos (Nat.pow_pos (n := n) (by norm_num : 0 < 10))) Nat.one_pos
        rw [signed, zpow_natCast, Int.toNat_natCast, roundNearest]
        simpa using h
      · rename_i h0
        obtain ⟨n, hn⟩ := Int.eq_ofNat_of_zero_le (by omega : 0 ≤ -exp)
        obtain rfl : exp = -(n : Int) := by omega
        have h := round_spec neg hpos (Nat.pow_pos (n := n) (by norm_num : 0 < 10))
        rw [signed, zpow_neg, zpow_natCast, neg_neg, Int.toNat_natCast, roundNearest, ← div_eq_mul_inv]
        simpa using h

end Sys2Proof.Laws

namespace Sys2Proof.Claims

open Sys2Proof.Machine Sys2Proof.Laws

/-- Settles O41: the value of the literal that the text parses as. -/
theorem decimalLiteralsRoundToNearest : Obligations.DecimalLiteralsRoundToNearest := by
  intro text neg num digits exp h
  have hvalue : textValue roundNearest text = some (Literal.value roundNearest text (.dec neg num digits exp)) := by
    rw [textValue, h, Option.map_some]
  refine ⟨fun hnum => ?_, fun hnum => ⟨_, hvalue, ?_⟩⟩
  · rw [hvalue, Literal.value, if_pos hnum]
  · have hrounds := roundsTo_decimal text neg (exp := exp) hnum (parseLiteral_lt h)
    rwa [signed, ← mul_assoc] at hrounds

end Sys2Proof.Claims
